-- ==== Sys2Proof/Word.lean ====
section
/-! DEFINITION. The two word types of the CSX64 core: a memory byte and a 64-bit register, address or length word
(10_state.md R20, R22; 00_scope.md R10). -/

namespace Sys2Proof

/-- One byte of the address space (20_memory.md R60). -/
abbrev Byte := BitVec 8

/-- A 64-bit register, address or length word (00_scope.md R10). -/
abbrev Word := BitVec 64

end Sys2Proof
end

