-- ==== Sys2Proof/Syntax.lean ====
section
/-! DEFINITION. The instructions of the CSX64 core as syntax: one constructor per row of spec/opcode_table.json, over the
operand forms of 30_encoding.md. Encoded choices that do not change an instruction's effect (the prefix of an immediate,
the scale of an absent base register) are kept, so that an encoding can be given back bit for bit. -/

namespace Sys2Proof

/-- An operand width of 1, 2, 4 or 8 bytes: the size code `sz` of 30_encoding.md R102. -/
inductive Width
  | w1 | w2 | w4 | w8
  deriving DecidableEq, Repr

/-- `2^sz` bytes (R102). -/
abbrev Width.bytes : Width → Nat
  | .w1 => 1
  | .w2 => 2
  | .w4 => 4
  | .w8 => 8

/-- The bits `N = 8w` of an operand of width `w` (43_alu.md R190). -/
abbrev Width.bits (w : Width) : Nat := 8 * w.bytes

/-- An address width of 2, 4 or 8 bytes: the address size code `a` of R106. The code 0 (8-bit) is illegal and so is no value here. -/
inductive AddrSize
  | a16 | a32 | a64
  deriving DecidableEq, Repr

/-- `n = 2^a` bytes (R106). -/
abbrev AddrSize.bytes : AddrSize → Nat
  | .a16 => 2
  | .a32 => 4
  | .a64 => 8

/-- The index of a general register, 0 to 15 (10_state.md R22). -/
abbrev Reg := Fin 16

/-- An index into the FPU stack, counted from the top: the `i` of `ST(i)` (45_fpu.md R260). -/
abbrev StIndex := BitVec 3

/-- A compact immediate: the sign-extend flag, the body's width and the body, zero-extended (30_encoding.md R103). -/
structure Imm where
  sx   : Bool
  size : Width
  body : Word
  deriving DecidableEq, Repr

/-- A memory address operand (30_encoding.md R106 to R109): the address size, the base scale `k`, and the optional base,
index and displacement (held zero-extended). `k` is encoded, and kept, even where no base is present. -/
structure Addr where
  size  : AddrSize
  scale : BitVec 2
  base  : Option Reg
  index : Option Reg
  disp  : Option Word
  deriving DecidableEq, Repr

/-- The operand of the UN format, and every destination: a register or a memory location (R113, R117). -/
inductive RegMem
  | reg (r : Reg)
  | mem (a : Addr)
  deriving DecidableEq, Repr

/-- A value operand: a register, an immediate or a memory location (R113, R118). -/
inductive Operand
  | reg (r : Reg)
  | imm (v : Imm)
  | mem (a : Addr)
  deriving DecidableEq, Repr

/-- The four modes of the BIN format (R116): `op r, s`; `op r, imm`; `op r, [addr]`; `op [addr], r`. -/
inductive BinForm
  | rr (r s : Reg)
  | ri (r : Reg) (v : Imm)
  | rm (r : Reg) (a : Addr)
  | mr (a : Addr) (r : Reg)
  deriving DecidableEq, Repr

/-- The operand of the FRM format: `ST(i)` or a 64-bit memory location (R122). -/
inductive FpuForm
  | st (i : StIndex)
  | mem (a : Addr)
  deriving DecidableEq, Repr

/-- The sixteen conditions in the order of their numbers (44_control.md R220 to R235). -/
inductive Cond
  | o | no | b | ae | e | ne | be | a | s | ns | p | np | l | ge | le | g
  deriving DecidableEq, Repr

/-- The instructions, one constructor per row of spec/opcode_table.json, in the table's order. -/
inductive Instr
  | nop
  | hlt
  | syscall
  | pushf
  | popf
  | mov (w : Width) (f : BinForm)
  | lea (w : Width) (r : Reg) (a : Addr)
  | push (w : Width) (v : Operand)
  | pop (w : Width) (d : RegMem)
  | jmp (w : Width) (t : Operand)
  | jo (w : Width) (t : Operand)
  | jno (w : Width) (t : Operand)
  | jb (w : Width) (t : Operand)
  | jae (w : Width) (t : Operand)
  | je (w : Width) (t : Operand)
  | jne (w : Width) (t : Operand)
  | jbe (w : Width) (t : Operand)
  | ja (w : Width) (t : Operand)
  | js (w : Width) (t : Operand)
  | jns (w : Width) (t : Operand)
  | jp (w : Width) (t : Operand)
  | jnp (w : Width) (t : Operand)
  | jl (w : Width) (t : Operand)
  | jge (w : Width) (t : Operand)
  | jle (w : Width) (t : Operand)
  | jg (w : Width) (t : Operand)
  | loop (w : Width) (t : Operand)
  | loope (w : Width) (t : Operand)
  | loopne (w : Width) (t : Operand)
  | call (w : Width) (t : Operand)
  | ret
  | add (w : Width) (f : BinForm)
  | sub (w : Width) (f : BinForm)
  | cmp (w : Width) (f : BinForm)
  | and (w : Width) (f : BinForm)
  | or (w : Width) (f : BinForm)
  | xor (w : Width) (f : BinForm)
  | test (w : Width) (f : BinForm)
  | inc (w : Width) (d : RegMem)
  | dec (w : Width) (d : RegMem)
  | neg (w : Width) (d : RegMem)
  | not (w : Width) (d : RegMem)
  | fld (f : FpuForm)
  | fst (f : FpuForm)
  | fstp (f : FpuForm)
  | ffree (i : StIndex)
  | fincstp
  | fdecstp
  | finit
  deriving DecidableEq, Repr

end Sys2Proof
end

