-- ==== Sys2Proof/Machine/Bytes.lean ====
section
/-! DEFINITION. Byte order, bit fields and extension: the helpers that the decoder, the encoder and the machine share
(00_scope.md R13, R14; 20_memory.md R62). -/

namespace Sys2Proof

/-- The value of bytes in little-endian order, lowest address first (20_memory.md R62). -/
def leNat : List Byte → Nat
  | [] => 0
  | b :: bs => b.toNat + 256 * leNat bs

/-- The `n` bytes of `v` in little-endian order (20_memory.md R62, R64). -/
def leBytes : Nat → Nat → List Byte
  | 0, _ => []
  | n + 1, v => BitVec.ofNat 8 v :: leBytes n (v / 256)

/-- The field `b[7:4]`. -/
def hiNibble (b : Byte) : BitVec 4 := b.extractLsb' 4 4

/-- The field `b[3:0]`. -/
def loNibble (b : Byte) : BitVec 4 := b.extractLsb' 0 4

/-- The byte `h ++ l`. -/
def nibbles (h l : BitVec 4) : Byte := h ++ l

/-- The field `S[3:2]` of a settings byte (30_encoding.md R114). -/
def sizeField (b : Byte) : BitVec 2 := b.extractLsb' 2 2

/-- The field `S[1:0]` of a settings byte (R114). -/
def modeField (b : Byte) : BitVec 2 := b.extractLsb' 0 2

/-- The settings byte `r ++ sz ++ m` (R114). -/
def settings (r : BitVec 4) (sz m : BitVec 2) : Byte := r ++ sz ++ m

/-- The register with a 4-bit number (10_state.md R22). -/
def regOf (n : BitVec 4) : Reg := n.toFin

/-- The 4-bit number of a register (10_state.md R22). -/
def regCode (r : Reg) : BitVec 4 := BitVec.ofFin r

/-- The width with a size code (30_encoding.md R102). -/
def widthOf (c : BitVec 2) : Width :=
  if c = 0#2 then .w1 else if c = 1#2 then .w2 else if c = 2#2 then .w4 else .w8

/-- The size code of a width (R102). -/
def widthCode : Width → BitVec 2
  | .w1 => 0#2
  | .w2 => 1#2
  | .w4 => 2#2
  | .w8 => 3#2

/-- The address size with a size code; the code 0 has none (R106). -/
def addrSizeOf (c : BitVec 2) : Option AddrSize :=
  if c = 0#2 then none else if c = 1#2 then some .a16 else if c = 2#2 then some .a32 else some .a64

/-- The size code of an address size (R106). -/
def addrSizeCode : AddrSize → BitVec 2
  | .a16 => 1#2
  | .a32 => 2#2
  | .a64 => 3#2

/-- The value of a compact immediate, 64 bits (R104): where the flag is set, the body is narrower than 64 bits and its
top bit is 1, the high-bit mask is OR-ed in; else the zero-extended body. -/
def immValue (i : Imm) : Word :=
  if i.sx && decide (i.size.bytes < 8) && i.body.getLsbD (i.size.bits - 1) then
    i.body ||| BitVec.ofNat 64 (2 ^ 64 - 2 ^ i.size.bits)
  else i.body

end Sys2Proof
end

