-- ==== Sys2Proof/Config.lean ====
section
/-! DEFINITION. What is fixed for one engine and read by its steps, the vocabulary of the host's interface, the syscall
handlers as programs, and the free values. FILL (70_reset_and_hazards.md R346) is the record Fill; what the spec leaves as a
draw or to the host's oracle is an opaque constant, about which nothing can be proved. The record of all of a host's
parameters is EngineParams of Machine/Params.lean. -/

namespace Sys2Proof

/-- The `Error` values (10_state.md R35; 60_exceptions.md R280, R282): symbols, with no numeric code. -/
inductive ErrorCode
  | none
  | outOfBounds
  | accessViolation
  | stackOverflow
  | undefinedBehavior
  | abort
  | unhandledSyscall
  | fdNotInUse
  | fsDisabled
  | insufficientFds
  | ioFailure
  deriving DecidableEq, Repr

/-- One file-descriptor slot (10_state.md R37). The stream handle is opaque to the engine: a number that only the host
reads. -/
structure FdSlot where
  inUse       : Bool
  stream      : Nat
  interactive : Bool
  deriving DecidableEq, Repr

/-- A free slot. -/
def FdSlot.free : FdSlot := ⟨false, 0, false⟩

/-- The reference value of INITIAL_FDS (92_eei_decisions.md D32) in a table of the reference NFD = 16 slots: slot 0 stdin
(interactive), slot 1 stdout, slot 2 stderr, the rest free. -/
def referenceFds : List FdSlot := [⟨true, 0, true⟩, ⟨true, 1, false⟩, ⟨true, 2, false⟩] ++ List.replicate 13 .free

/-- What a number of SYSCALL_MAP names: one of the services of 60_exceptions.md R304, in the order of its table, or the
`n`-th handler of the host's own, a `Handler` that the host gives (00_scope.md R11; log 19). -/
inductive Service
  | exit | read | write | openFile | close | flush | seek | tell | move | remove | mkdir | rmdir
  | own (n : Nat)
  deriving DecidableEq, Repr

/-- SYSCALL_MAP (00_scope.md R11; 60_exceptions.md R303, R304): which numbers name which handlers, and the register
convention that goes with them. A number that stands twice names the first handler (log 19). -/
structure SyscallMap where
  /-- The register that holds the number. -/
  number   : Reg
  /-- The registers that hold the arguments `a0`, `a1` and `a2`. -/
  arg0     : Reg
  arg1     : Reg
  arg2     : Reg
  /-- The register that takes the result. -/
  result   : Reg
  handlers : List (Word × Service)
  deriving DecidableEq, Repr

/-- The reference SYSCALL_MAP (R303, R304): the number in RAX, the arguments in RDI, RSI and RDX, the result in RAX. -/
def referenceSyscalls : SyscallMap where
  number := 0
  arg0 := 7
  arg1 := 6
  arg2 := 2
  result := 0
  handlers :=
    [(0, .exit), (1, .read), (2, .write), (3, .openFile), (4, .close), (5, .flush), (6, .seek), (7, .tell), (8, .move),
     (9, .remove), (10, .mkdir), (11, .rmdir)]

/-- The part of the configuration that a step reads (10_state.md R21): set when the engine is constructed, changed by no
instruction. -/
structure EngineConfig where
  /-- FS_ENABLED (10_state.md R36). -/
  fsEnabled : Bool
  /-- SYSCALL_MAP (00_scope.md R11). -/
  syscalls  : SyscallMap
  deriving DecidableEq, Repr

/-- The draws of one `Initialize` (70_reset_and_hazards.md R346): the heap/stack bytes from the stack barrier upward
(bytes past the list's end read as unlisted bytes, bytes past the buffer's end are not used), the register values and
the FPU slot values. -/
structure Fill where
  heap : List Byte
  regs : Vector Word 16
  fpr  : Vector Word 8
  deriving DecidableEq, Repr

/-- Where a seek counts from (60_exceptions.md R304, syscall 6). -/
inductive SeekOrigin
  | fromStart | fromCurrent | fromEnd
  deriving DecidableEq, Repr

/-- A host operation a SYSCALL or a termination performs, with what the engine hands to the host (60_exceptions.md R304,
R287); the last is any other operation that a handler of the host's own asks for, by number, with what it hands over (log 19). -/
inductive HostCall
  | read (stream : Nat) (count : Nat)
  | write (stream : Nat) (data : List Byte)
  | openFile (path : List Byte) (mode : Word)
  | close (stream : Nat)
  | flush (stream : Nat)
  | seek (stream : Nat) (offset : Int) (origin : SeekOrigin)
  | tell (stream : Nat)
  | move (source target : List Byte)
  | remove (path : List Byte)
  | mkdir (path : List Byte)
  | rmdir (path : List Byte)
  | own (n : Nat) (data : List Byte)
  deriving DecidableEq, Repr

/-- The host's answer to one operation (60_exceptions.md R305): a failure, or a success whose result is the field the
operation asks for: the bytes a read delivers, the handle of an opened stream, the position a seek or tell reports. -/
structure HostReply where
  failed   : Bool
  data     : List Byte
  stream   : Nat
  position : Word
  deriving DecidableEq, Repr, Inhabited

/-- A syscall handler (60_exceptions.md R298): what it does next, until it ends as R298 lets it end. The operations are those
R298 lets a handler make, and no others; memory is touched through the checked primitives (20_memory.md R76, 60_exceptions.md
R302), and a host operation is asked of the host (R305). Each operation that gives something goes on from it. -/
inductive Handler
  /-- `Done`. -/
  | finish
  /-- `Suspend`. -/
  | suspend
  /-- `Exit(v)`. -/
  | exit (v : Word)
  /-- `Fail(e)`. -/
  | fail (e : ErrorCode)
  /-- A general register. -/
  | readReg (r : Reg) (next : Word → Handler)
  /-- The result register takes a value. -/
  | writeResult (v : Word) (next : Handler)
  /-- `MemRead`. -/
  | readMem (p : Nat) (w : Width) (next : BitVec w.bits → Handler)
  /-- `MemWrite`. -/
  | writeMem (p : Nat) (w : Width) (v : BitVec w.bits) (next : Handler)
  /-- `ReadCString`. -/
  | readString (p : Nat) (next : List Byte → Handler)
  /-- `WriteCString`. -/
  | writeString (p : Nat) (str : List Byte) (next : Handler)
  /-- `CheckBufRead`. -/
  | checkBufRead (p n : Nat) (next : Handler)
  /-- `CheckBufWrite`. -/
  | checkBufWrite (p n : Nat) (next : Handler)
  /-- FS_ENABLED. -/
  | readFsEnabled (next : Bool → Handler)
  /-- The FD table. -/
  | readFds (next : List FdSlot → Handler)
  /-- A slot of the FD table takes a value. -/
  | writeFd (k : Nat) (f : FdSlot) (next : Handler)
  /-- A host operation. -/
  | askHost (c : HostCall) (next : HostReply → Handler)
  deriving Inhabited

/-- The handlers of the host's own, by the numbers that `Service.own` gives them: part of the parameter SYSCALL_MAP
(00_scope.md R11, 93_implementation_defined.md). -/
abbrev HandlerTable := Nat → Handler

namespace Config

/-- FREE VALUE: the flag AF after the n-th logical operation (43_alu.md R194: "AF is a draw"). Log 4. -/
opaque freeAF : Nat → Bool

/-- FREE VALUE: the host's answer to the newest call of a history of calls, newest first (93_implementation_defined.md,
"a host oracle gives each operation's result or failure"). Log 5. -/
opaque hostReply : List HostCall → HostReply

/-- FREE VALUE: the handlers of the host's own of the engine whose tick is `Machine.step`; `Machine.stepWith` takes any
table as an argument. Log 19. -/
opaque ownHandlers : HandlerTable

end Config

end Sys2Proof
end

