-- ==== Sys2Proof/Machine/State.lean ====
section
/-! DEFINITION. The state of the engine (10_state.md): the record of R20, the reasons a step can stop, and the state after
reset. -/

namespace Sys2Proof.Machine

/-- The model's own faults: there is none. Every fault of this machine is a termination the spec describes (60_exceptions.md
R283, R284), so it is a next state that records its cause in `error`. Nobody raises a `Fault`, and that is safe: no step
is ever cut short by the model. -/
inductive Fault
  deriving DecidableEq, Repr

/-- The model's refusals. -/
inductive Refusal
  /-- An instruction without a meaning, raised by `exec` alone; no arm raises it, every row of the table has its meaning.
  Safe: a refused instruction has no next state. -/
  | notModelled (mnemonic : String)
  deriving DecidableEq, Repr

/-- The engine state: the record of 10_state.md R20, with the configuration a step reads (R21, R36, R38) held beside it, and
three fields of the model's own that hold the inputs of a step. -/
structure State where
  /-- `mem`: the listed bytes, addresses strictly rising, none equal to what an unlisted address reads as (R60). -/
  mem : List Host.Cell
  /-- `L`, the buffer length (R33). -/
  len : Word
  /-- `EB`, the end of text (R32). -/
  eb : Word
  /-- `RB`, the end of rodata (R32). -/
  rb : Word
  /-- `SB`, the end of data and bss (R32). -/
  sb : Word
  /-- `x[0..15]`, the general registers (R22). -/
  x : Vector Word 16
  /-- `RIP`, the instruction pointer (R25). -/
  rip : Word
  /-- `RFLAGS`, the flags word (R26). -/
  rflags : Word
  /-- `fpr[0..7]`, the FPU slot values, raw 64-bit patterns (R30). -/
  fpr : Vector Word 8
  /-- `inuse[0..7]`, the FPU in-use bits (R30). -/
  inuse : Vector Bool 8
  /-- `TOP`, the FPU top-of-stack index (R30). -/
  top : BitVec 3
  /-- `Running` (R34). -/
  running : Bool
  /-- `SuspendedRead` (R34). -/
  suspendedRead : Bool
  /-- `Error` (R35). -/
  error : ErrorCode
  /-- `ReturnValue` (R34). -/
  returnValue : Word
  /-- `fd[0..NFD-1]`, the file-descriptor table (R37); its length is NFD. -/
  fd : List FdSlot
  /-- FS_ENABLED and SYSCALL_MAP (R21, R36): configuration, set when the engine is constructed and never written. -/
  cfg : EngineConfig
  /-- The model's own: the host calls made so far, newest first (log 5). -/
  hostCalls : List HostCall
  /-- The model's own: the host's answers still to come; past its end an answer is a free value (log 5). -/
  hostReplies : List HostReply
  /-- The model's own: how many draws of AF have been taken (log 4). -/
  draws : Nat
  deriving DecidableEq, Repr

/-- The machine right after reset. Reset is a successful `Initialize` (70_reset_and_hazards.md R341), whose result R40
tabulates: RIP 0, RFLAGS 0x2, TOP 0, every slot free, Running, not suspended, no error. What the image and the host decide
is taken at its least (DESIGN CHOICE, log 1): four lengths of 0, no arguments, a stack reserve of 0, so `L` and the
barriers are 0 and RSP = L = 0. The draws (the other registers and the FPU slots) and ReturnValue are 0 (DESIGN CHOICE,
log 2), the FD table is the reference INITIAL_FDS (DESIGN CHOICE, log 7), FS_ENABLED is false (DESIGN CHOICE, log 6) and
SYSCALL_MAP and NFD have the reference values of 00_scope.md R11. -/
def State.reset : State where
  mem := []
  len := 0
  eb := 0
  rb := 0
  sb := 0
  x := Vector.replicate 16 0
  rip := 0
  rflags := 0x2
  fpr := Vector.replicate 8 0
  inuse := Vector.replicate 8 false
  top := 0
  running := true
  suspendedRead := false
  error := .none
  returnValue := 0
  fd := referenceFds
  cfg := ⟨false, referenceSyscalls⟩
  hostCalls := []
  hostReplies := []
  draws := 0

end Sys2Proof.Machine
end

