-- ==== Sys2Proof/Machine/Ops.lean ====
section
/-! DEFINITION. The operations every instruction is built from: sequencing, registers, memory and its checks, the stack
primitives, the C-string primitives, the host's side of a call, and termination, which is how this machine takes an
exception (60_exceptions.md R283, R284). -/

namespace Sys2Proof.Machine

/-! ### Sequencing -/

/-- How a piece of an instruction's pseudocode ends: done, with a value, or with `raise E` (00_scope.md R16, R17). Both
carry the state as the statements left it: nothing is undone (60_exceptions.md R288). -/
inductive Res (α : Type)
  | done (v : α) (s : State)
  | raised (e : ErrorCode) (s : State)

/-- The next statement; a `raise` ends the instruction at once (R17). -/
def Res.bind {α β : Type} (r : Res α) (k : α → State → Res β) : Res β :=
  match r with
  | .done v s => k v s
  | .raised e s => .raised e s

/-! ### Termination: the machine's exception entry -/

/-- One slot after `CloseAllFDs()`: in-use false, the rest as it was (60_exceptions.md R287; the stale handle: log 14). -/
def closedSlot (f : FdSlot) : FdSlot := { f with inUse := false }

/-- The host closes `CloseAllFDs()` makes, slot 0 first: one per slot in use (R287). -/
def closeCalls (fd : List FdSlot) : List HostCall :=
  (fd.filter (·.inUse)).map fun f => HostCall.close f.stream

/-- `CloseAllFDs()` (R287): every in-use slot is closed once, in index order; the host's answers are ignored. -/
def closeAllFds (s : State) : State :=
  { s with
    fd := s.fd.map closedSlot
    hostCalls := (closeCalls s.fd).reverse ++ s.hostCalls }

/-- `Terminate(err)` (R284): the machine's one exception entry. The first writer wins; ReturnValue is not written and
nothing else of the state changes. -/
def terminate (e : ErrorCode) (s : State) : State :=
  if s.running then
    closeAllFds { s with running := false, suspendedRead := false, error := e }
  else s

/-- `Exit(v)` (R285): the normal end. -/
def exitWith (v : Word) (s : State) : State :=
  if s.running then
    closeAllFds { s with running := false, suspendedRead := false, error := .none, returnValue := v }
  else s

/-- The end of an instruction: `raise E` is `Terminate(E)` (00_scope.md R16), a next state. -/
def Res.finish (r : Res Unit) : Host.Outcome State Fault Refusal :=
  match r with
  | .done _ s => .next s
  | .raised e s => .next (terminate e s)

/-! ### General registers -/

/-- `x[i]` (00_scope.md R15). -/
def State.reg (s : State) (i : Reg) : Word := s.x[i]

/-- `x[i] <- v` (R15). -/
def State.putReg (s : State) (i : Reg) (v : Word) : State := { s with x := s.x.set i v }

/-- `xw(i, w)`: the low bytes of register `i` (10_state.md R23). -/
def State.regW (s : State) (i : Reg) (w : Width) : BitVec w.bits := (s.reg i).setWidth w.bits

/-- The value a register takes by the sub-view rule (10_state.md R23): 8 bytes replace it, 4 bytes clear its upper half,
2 and 1 bytes keep its upper bits. -/
def subView (old : Word) (w : Width) (v : BitVec w.bits) : Word :=
  match w with
  | .w8 => v.setWidth 64
  | .w4 => v.setWidth 64
  | .w2 => old.extractLsb' 16 48 ++ v.setWidth 16
  | .w1 => old.extractLsb' 8 56 ++ v.setWidth 8

/-- `SetReg(i, w, v)` (10_state.md R23). -/
def State.setReg (s : State) (i : Reg) (w : Width) (v : BitVec w.bits) : State :=
  s.putReg i (subView (s.reg i) w v)

/-- RAX: the syscall number and result (R24, R303). -/
def rax : Reg := 0
/-- RCX: the LOOP counter (R24). -/
def rcx : Reg := 1
/-- RDX: the third syscall argument (60_exceptions.md R303). -/
def rdx : Reg := 2
/-- RSP: the stack pointer (R24). -/
def rsp : Reg := 4
/-- RSI: the second syscall argument; the argument array at bootstrap (R24, R303). -/
def rsi : Reg := 6
/-- RDI: the first syscall argument; the argument count at bootstrap (R24, R303). -/
def rdi : Reg := 7

/-! ### Memory -/

/-- What an unlisted address of the buffer reads as: 0, as the bss is filled (R341); for the heap and stack DESIGN CHOICE,
log 3. -/
def unlistedByte : Byte := 0

/-- The byte at an address. -/
def memByte : List Host.Cell → Nat → Byte
  | [], _ => unlistedByte
  | (a, b) :: m, p => if p = a then b else memByte m p

/-- A cell put in its place among cells of rising addresses. -/
def memInsert : List Host.Cell → Nat → Byte → List Host.Cell
  | [], p, v => [(p, v)]
  | (a, b) :: m, p, v => if p < a then (p, v) :: (a, b) :: m else (a, b) :: memInsert m p v

/-- The memory with one byte replaced, in canonical form. -/
def memSet (m : List Host.Cell) (p : Nat) (v : Byte) : List Host.Cell :=
  let others := m.filter fun c => c.1 != p
  if v = unlistedByte then others else memInsert others p v

/-- The memory with consecutive bytes replaced from an address upward. -/
def memSetBytes : List Host.Cell → Nat → List Byte → List Host.Cell
  | m, _, [] => m
  | m, p, b :: bs => memSetBytes (memSet m p b) (p + 1) bs

/-- The canonical form: addresses strictly rising, no entry equal to what an unlisted address reads as. -/
def Memory.wf : List Host.Cell → Bool
  | [] => true
  | (a, b) :: m => decide (b ≠ unlistedByte) && m.all (fun c => decide (a < c.1)) && Memory.wf m

/-- The byte of the buffer at an address (20_memory.md R60). -/
def State.byte (s : State) (p : Nat) : Byte := memByte s.mem p

/-- The `n` bytes from an address upward. -/
def State.bytes (s : State) (p n : Nat) : List Byte := (List.range n).map fun k => s.byte (p + k)

/-- The bytes stored from an address upward, without a check. -/
def State.putBytes (s : State) (p : Nat) (bs : List Byte) : State := { s with mem := memSetBytes s.mem p bs }

/-- The value of `n` bytes at an address, little-endian, without a check (20_memory.md R62). -/
def State.value (s : State) (p n : Nat) : BitVec (8 * n) := BitVec.ofNat (8 * n) (leNat (s.bytes p n))

/-- An `n`-byte value stored at an address, little-endian, without a check (R62, R64). -/
def State.putValue (s : State) (p n : Nat) (v : BitVec (8 * n)) : State := s.putBytes p (leBytes n v.toNat)

/-- `pos + n <= L`, an unbounded sum (20_memory.md R63). -/
def State.inBounds (s : State) (p n : Nat) : Bool := decide (p + n ≤ s.len.toNat)

/-- `MemRead(pos, n)` (20_memory.md R63). -/
def memRead (p n : Nat) (s : State) : Res (BitVec (8 * n)) :=
  if s.inBounds p n then .done (s.value p n) s else .raised .outOfBounds s

/-- The checks of a write: readonly first, then bounds (R64, R65). -/
def checkWrite (p n : Nat) (s : State) : Res Unit :=
  if p < s.rb.toNat then .raised .accessViolation s
  else if s.inBounds p n then .done () s
  else .raised .outOfBounds s

/-- `MemWrite(pos, n, v)` (20_memory.md R64): a failed write changes no byte. -/
def memWrite (p n : Nat) (v : BitVec (8 * n)) (s : State) : Res Unit :=
  (checkWrite p n s).bind fun _ s => .done () (s.putValue p n v)

/-! ### The stack primitives -/

/-- `Push(n, v)` (20_memory.md R72): RSP moves first (modulo 2^64), then it is held against SB, then the value is written. -/
def push (n : Nat) (v : BitVec (8 * n)) (s : State) : Res Unit :=
  let s := s.putReg rsp (s.reg rsp - BitVec.ofNat 64 n)
  if (s.reg rsp).toNat < s.sb.toNat then .raised .stackOverflow s
  else memWrite (s.reg rsp).toNat n v s

/-- `Pop(n)` (20_memory.md R73): RSP is held against SB, the value is read, then RSP moves (modulo 2^64). -/
def pop (n : Nat) (s : State) : Res (BitVec (8 * n)) :=
  if (s.reg rsp).toNat < s.sb.toNat then .raised .stackOverflow s
  else (memRead (s.reg rsp).toNat n s).bind fun v s =>
    .done v (s.putReg rsp (s.reg rsp + BitVec.ofNat 64 n))

/-! ### C strings -/

/-- The scan of `ReadCString`: at most `fuel` bytes from an address, up to the first zero byte; none where there is none. -/
def scanCString (m : List Host.Cell) : Nat → Nat → Option (List Byte)
  | 0, _ => none
  | fuel + 1, p =>
    if memByte m p = 0 then some [] else (scanCString m fuel (p + 1)).map (memByte m p :: ·)

/-- `ReadCString(pos)` (20_memory.md R68). -/
def readCString (p : Nat) (s : State) : Res (List Byte) :=
  match scanCString s.mem (s.len.toNat - p) p with
  | some str => .done str s
  | none => .raised .outOfBounds s

/-- `WriteCString(pos, str)` (20_memory.md R69): the string and its terminator, or nothing. -/
def writeCString (p : Nat) (str : List Byte) (s : State) : Res Unit :=
  (checkWrite p (str.length + 1) s).bind fun _ s => .done () (s.putBytes p (str ++ [0]))

/-! ### The instruction bytes -/

/-- The bytes the decoder may fetch at the instruction pointer: from RIP to the end of the buffer, at most the longest
instruction (20_memory.md R67; 30_encoding.md R129). Each byte is read from memory as it stands (R79). -/
def fetchWindow (maxBytes : Nat) (s : State) : List Byte :=
  s.bytes s.rip.toNat (min maxBytes (s.len.toNat - s.rip.toNat))

/-! ### The host's side of a call -/

/-- A host operation (60_exceptions.md R305): the call is recorded, and the host's answer is the next one lined up, or
else a free value of the history of calls (log 5). -/
def askHost (c : HostCall) (s : State) : HostReply × State :=
  let calls := c :: s.hostCalls
  match s.hostReplies with
  | r :: rs => (r, { s with hostCalls := calls, hostReplies := rs })
  | [] => (Config.hostReply calls, { s with hostCalls := calls })

end Sys2Proof.Machine
end

