-- ==== Sys2Proof/Machine/Flags.lean ====
section
/-! DEFINITION. RFLAGS: the layout, the public mask, the flag computations and the conditions (10_state.md R26 to R28;
43_alu.md R190 to R194; 44_control.md R220 to R235). -/

namespace Sys2Proof.Machine

/-- The flags an instruction can write or test, by name (10_state.md R26). -/
inductive Flag
  | cf | pf | af | zf | sf | df | of
  deriving DecidableEq, Repr

/-- The bit of RFLAGS a flag stands in (10_state.md R26). -/
def Flag.bit : Flag → Nat
  | .cf => 0
  | .pf => 2
  | .af => 4
  | .zf => 6
  | .sf => 7
  | .df => 10
  | .of => 11

/-- The flag's bit of a flags word. -/
def flagOf (f : Flag) (w : Word) : Bool := w.getLsbD f.bit

/-- The flag in a state. -/
def State.flag (s : State) (f : Flag) : Bool := flagOf f s.rflags

/-- `PUB_FLAGS` (10_state.md R28): CF, PF, AF, ZF, SF, DF and OF. -/
def pubFlags : Word := 0x0CD5

/-- The flag-restoring write (10_state.md R28; 42_data_movement.md R175): the public bits from `v`, the rest kept. -/
def restoreFlags (old v : Word) : Word := (old &&& ~~~pubFlags) ||| (v &&& pubFlags)

/-- The flag assignments of one operation; a flag with no assignment keeps its value (43_alu.md R190). -/
structure FlagSet where
  cf : Option Bool
  pf : Option Bool
  af : Option Bool
  zf : Option Bool
  sf : Option Bool
  of : Option Bool
  deriving DecidableEq, Repr

/-- A flags word with one bit replaced. -/
def putBit (w : Word) (i : Nat) (b : Bool) : Word :=
  if b then w ||| (1#64 <<< i) else w &&& ~~~(1#64 <<< i)

/-- A flags word with one flag assigned, or kept. -/
def putFlag (f : Flag) (v : Option Bool) (w : Word) : Word :=
  match v with
  | none => w
  | some b => putBit w f.bit b

/-- `merge(RFLAGS, flags)` (40_engine.md R150). -/
def mergeFlags (f : FlagSet) (w : Word) : Word :=
  putFlag .of f.of (putFlag .sf f.sf (putFlag .zf f.zf (putFlag .af f.af (putFlag .pf f.pf (putFlag .cf f.cf w)))))

/-- RFLAGS after an operation's flag assignments. -/
def State.mergeFlags (s : State) (f : FlagSet) : State := { s with rflags := Machine.mergeFlags f s.rflags }

/-- `ZF(r)` (43_alu.md R191). -/
def zfOf {n : Nat} (r : BitVec n) : Bool := decide (r = 0)

/-- `SF(r)` (R191). -/
def sfOf {n : Nat} (r : BitVec n) : Bool := r.msb

/-- The number of one bits of a byte. -/
def onesOf (b : Byte) : Nat := ((List.range 8).filter fun i => b.getLsbD i).length

/-- `PF(r)`: the low byte has an even number of one bits (R191). -/
def pfOf {n : Nat} (r : BitVec n) : Bool := decide (onesOf (r.setWidth 8) % 2 = 0)

/-- The carry out of, or the borrow into, bit 3: bit 4 of `a xor b xor r` (R192, R193). -/
def afOf {n : Nat} (a b r : BitVec n) : Bool := (a ^^^ b ^^^ r).getLsbD 4

/-- `AddF(a, b, N)` (43_alu.md R192). -/
def addF {n : Nat} (a b : BitVec n) : FlagSet :=
  let r := a + b
  { cf := some (decide (2 ^ n ≤ a.toNat + b.toNat))
    of := some (a.msb == b.msb && r.msb != a.msb)
    af := some (afOf a b r)
    zf := some (zfOf r)
    sf := some (sfOf r)
    pf := some (pfOf r) }

/-- `SubF(a, b, N)` (43_alu.md R193). -/
def subF {n : Nat} (a b : BitVec n) : FlagSet :=
  let r := a - b
  { cf := some (decide (a.toNat < b.toNat))
    of := some (a.msb != b.msb && r.msb != a.msb)
    af := some (afOf a b r)
    zf := some (zfOf r)
    sf := some (sfOf r)
    pf := some (pfOf r) }

/-- `LogF(r, N)` (43_alu.md R194), with the draw that AF takes. -/
def logF {n : Nat} (draw : Bool) (r : BitVec n) : FlagSet :=
  { cf := some false
    of := some false
    af := some draw
    zf := some (zfOf r)
    sf := some (sfOf r)
    pf := some (pfOf r) }

/-- "without CF": the assignments of INC and DEC (43_alu.md R207, R208). -/
def FlagSet.keepCf (f : FlagSet) : FlagSet := { f with cf := none }

/-- The draw of AF a logical operation takes, and the state that has taken it (43_alu.md R194; log 4). -/
def drawAf (s : State) : Bool × State := (Config.freeAF s.draws, { s with draws := s.draws + 1 })

/-- `Cond(cc)` over a flags word (44_control.md R220 to R235). -/
def condHolds (c : Cond) (w : Word) : Bool :=
  let cf := flagOf .cf w
  let zf := flagOf .zf w
  let sf := flagOf .sf w
  let of := flagOf .of w
  let pf := flagOf .pf w
  match c with
  | .o => of
  | .no => !of
  | .b => cf
  | .ae => !cf
  | .e => zf
  | .ne => !zf
  | .be => cf || zf
  | .a => !cf && !zf
  | .s => sf
  | .ns => !sf
  | .p => pf
  | .np => !pf
  | .l => sf != of
  | .ge => sf == of
  | .le => zf || sf != of
  | .g => !zf && sf == of

end Sys2Proof.Machine
end

