-- ==== Sys2Proof/Machine/Operands.lean ====
section
/-! DEFINITION. The operand forms: the effective address, and reading and writing an operand (30_encoding.md R110, R111,
R113, R128). -/

namespace Sys2Proof.Machine

/-- `xw(i, n)` as a number, at an address width of `n` bytes (R110). -/
def State.addrReg (s : State) (i : Reg) (n : Nat) : Nat := (s.reg i).toNat % 2 ^ (8 * n)

/-- `EA(Addr)` (30_encoding.md R110): the displacement, the base shifted by its scale and the index, summed modulo the
address width and zero-extended. -/
def effAddr (a : Addr) (s : State) : Word :=
  let n := a.size.bytes
  let disp := match a.disp with | none => 0 | some d => d.toNat
  let base := match a.base with | none => 0 | some b => s.addrReg b n * 2 ^ a.scale.toNat
  let index := match a.index with | none => 0 | some i => s.addrReg i n
  BitVec.ofNat 64 ((disp + base + index) % 2 ^ (8 * n))

/-- A destination with its effective address computed (R128): a register, or an address in memory. -/
inductive Place
  | reg (i : Reg)
  | mem (p : Word)
  deriving DecidableEq, Repr

/-- The place of an operand, from the register values at the start of the perform phase (R128). -/
def placeOf (d : RegMem) (s : State) : Place :=
  match d with
  | .reg r => .reg r
  | .mem a => .mem (effAddr a s)

/-- `ReadOp` of a register or memory operand (R113). -/
def readPlace (w : Width) (p : Place) (s : State) : Res (BitVec w.bits) :=
  match p with
  | .reg i => .done (s.regW i w) s
  | .mem p => memRead p.toNat w.bytes s

/-- `WriteOp` (R113): a register takes the sub-view rule, memory the checked write. -/
def writePlace (w : Width) (p : Place) (v : BitVec w.bits) (s : State) : Res Unit :=
  match p with
  | .reg i => .done () (s.setReg i w v)
  | .mem p => memWrite p.toNat w.bytes v s

/-- `ReadOp` of a value operand (R113): an immediate is truncated to the width (R105). -/
def readOperand (w : Width) (o : Operand) (s : State) : Res (BitVec w.bits) :=
  match o with
  | .reg r => readPlace w (.reg r) s
  | .imm v => .done ((immValue v).setWidth w.bits) s
  | .mem a => readPlace w (.mem (effAddr a s)) s

end Sys2Proof.Machine

namespace Sys2Proof

/-- The destination operand of a BIN form (30_encoding.md R116). -/
def BinForm.dst : BinForm → RegMem
  | .rr r _ => .reg r
  | .ri r _ => .reg r
  | .rm r _ => .reg r
  | .mr a _ => .mem a

/-- The source operand of a BIN form (30_encoding.md R116). -/
def BinForm.src : BinForm → Operand
  | .rr _ s => .reg s
  | .ri _ v => .imm v
  | .rm _ a => .mem a
  | .mr _ r => .reg r

end Sys2Proof
end

