-- ==== Sys2Proof/Machine/Alu.lean ====
section
/-! DEFINITION. The integer ALU: ADD, SUB, CMP, AND, OR, XOR, TEST, INC, DEC, NEG, NOT (43_alu.md R190 to R210), over one
dispatch for two operands and one for a single operand (40_engine.md R150; 43_alu.md R196). -/

namespace Sys2Proof.Machine

/-- The operand reads of a BIN instruction: `dst`, then `src` (R196). The address of a memory operand is the one computed
at the start (30_encoding.md R128). -/
def readBoth (w : Width) (f : BinForm) (s : State) : Res (BitVec w.bits × BitVec w.bits) :=
  (readPlace w (placeOf f.dst s) s).bind fun a s =>
  (readOperand w f.src s).bind fun b s => .done (a, b) s

/-- A BIN instruction that writes its result, then its flags (R196): `op` gives both from the two operands. -/
def binWrite (w : Width) (f : BinForm) (op : BitVec w.bits → BitVec w.bits → BitVec w.bits × FlagSet) (s : State) :
    Res Unit :=
  let d := placeOf f.dst s
  (readBoth w f s).bind fun ab s =>
  (writePlace w d (op ab.1 ab.2).1 s).bind fun _ s => .done () (s.mergeFlags (op ab.1 ab.2).2)

/-- A BIN logical instruction that writes its result: the flags are `LogF`, with a draw for AF (R194). -/
def binLogic (w : Width) (f : BinForm) (op : BitVec w.bits → BitVec w.bits → BitVec w.bits) (s : State) : Res Unit :=
  let d := placeOf f.dst s
  (readBoth w f s).bind fun ab s =>
  (writePlace w d (op ab.1 ab.2) s).bind fun _ s =>
  let (draw, s) := drawAf s
  .done () (s.mergeFlags (logF draw (op ab.1 ab.2)))

/-- A UN instruction: read, compute, write, then the flags (R196). -/
def unWrite (w : Width) (d : RegMem) (op : BitVec w.bits → BitVec w.bits) (fl : BitVec w.bits → FlagSet) (s : State) :
    Res Unit :=
  let p := placeOf d s
  (readPlace w p s).bind fun a s =>
  (writePlace w p (op a) s).bind fun _ s => .done () (s.mergeFlags (fl a))

/-- ADD (R200). -/
def execAdd (w : Width) (f : BinForm) (s : State) : Host.Outcome State Fault Refusal :=
  (binWrite w f (fun a b => (a + b, addF a b)) s).finish

/-- SUB (R201). -/
def execSub (w : Width) (f : BinForm) (s : State) : Host.Outcome State Fault Refusal :=
  (binWrite w f (fun a b => (a - b, subF a b)) s).finish

/-- CMP (R202): the flags of SUB, and nothing is written. -/
def execCmp (w : Width) (f : BinForm) (s : State) : Host.Outcome State Fault Refusal :=
  ((readBoth w f s).bind fun ab s => .done () (s.mergeFlags (subF ab.1 ab.2))).finish

/-- AND (R203). -/
def execAnd (w : Width) (f : BinForm) (s : State) : Host.Outcome State Fault Refusal :=
  (binLogic w f (fun a b => a &&& b) s).finish

/-- OR (R204). -/
def execOr (w : Width) (f : BinForm) (s : State) : Host.Outcome State Fault Refusal :=
  (binLogic w f (fun a b => a ||| b) s).finish

/-- XOR (R205). -/
def execXor (w : Width) (f : BinForm) (s : State) : Host.Outcome State Fault Refusal :=
  (binLogic w f (fun a b => a ^^^ b) s).finish

/-- TEST (R206): the flags of AND, and nothing is written. -/
def execTest (w : Width) (f : BinForm) (s : State) : Host.Outcome State Fault Refusal :=
  ((readBoth w f s).bind fun ab s =>
    let (draw, s) := drawAf s
    .done () (s.mergeFlags (logF draw (ab.1 &&& ab.2)))).finish

/-- INC (R207): the flags of adding 1, without CF. -/
def execInc (w : Width) (d : RegMem) (s : State) : Host.Outcome State Fault Refusal :=
  (unWrite w d (fun a => a + 1) (fun a => (addF a 1).keepCf) s).finish

/-- DEC (R208): the flags of subtracting 1, without CF. -/
def execDec (w : Width) (d : RegMem) (s : State) : Host.Outcome State Fault Refusal :=
  (unWrite w d (fun a => a - 1) (fun a => (subF a 1).keepCf) s).finish

/-- NEG (R209): `0 - a`, with the flags of that subtraction. -/
def execNeg (w : Width) (d : RegMem) (s : State) : Host.Outcome State Fault Refusal :=
  (unWrite w d (fun a => 0 - a) (fun a => subF 0 a) s).finish

/-- NOT (R210): no flag is written. -/
def execNot (w : Width) (d : RegMem) (s : State) : Host.Outcome State Fault Refusal :=
  (unWrite w d (fun a => ~~~a) (fun _ => ⟨none, none, none, none, none, none⟩) s).finish

end Sys2Proof.Machine
end

