-- ==== Sys2Proof/Machine/Control.lean ====
section
/-! DEFINITION. Control transfer: JMP, the sixteen Jcc, LOOP, LOOPE, LOOPNE, CALL, RET (44_control.md R236 to R243). A
target is an absolute address, zero-extended, and is not checked when it is taken (R236). -/

namespace Sys2Proof.Machine

/-- `RIP <- t` (00_scope.md R15). -/
def State.jump (s : State) (t : Word) : State := { s with rip := t }

/-- The target operand's value, zero-extended to 64 bits (R236). -/
def readTarget (w : Width) (t : Operand) (s : State) : Res Word :=
  (readOperand w t s).bind fun v s => .done (v.setWidth 64) s

/-- Jcc (R238): the target is read whether or not the jump is taken. -/
def jumpIf (c : Cond) (w : Width) (t : Operand) (s : State) : Res Unit :=
  (readTarget w t s).bind fun v s => .done () (if condHolds c s.rflags then s.jump v else s)

/-- The LOOP family (R239 to R241): the target is read, RCX is decremented with no flag written, and the jump is taken
when RCX is not 0 and the member's test of the flags holds. -/
def loopIf (test : Word → Bool) (w : Width) (t : Operand) (s : State) : Res Unit :=
  (readTarget w t s).bind fun v s =>
  let s := s.putReg rcx (s.reg rcx - 1)
  .done () (if s.reg rcx ≠ 0 ∧ test s.rflags = true then s.jump v else s)

/-- JMP (R237). -/
def execJmp (w : Width) (t : Operand) (s : State) : Host.Outcome State Fault Refusal :=
  ((readTarget w t s).bind fun v s => .done () (s.jump v)).finish

/-- JO (R238, R220). -/
def execJo (w : Width) (t : Operand) (s : State) : Host.Outcome State Fault Refusal := (jumpIf .o w t s).finish
/-- JNO (R238, R221). -/
def execJno (w : Width) (t : Operand) (s : State) : Host.Outcome State Fault Refusal := (jumpIf .no w t s).finish
/-- JB (R238, R222). -/
def execJb (w : Width) (t : Operand) (s : State) : Host.Outcome State Fault Refusal := (jumpIf .b w t s).finish
/-- JAE (R238, R223). -/
def execJae (w : Width) (t : Operand) (s : State) : Host.Outcome State Fault Refusal := (jumpIf .ae w t s).finish
/-- JE (R238, R224). -/
def execJe (w : Width) (t : Operand) (s : State) : Host.Outcome State Fault Refusal := (jumpIf .e w t s).finish
/-- JNE (R238, R225). -/
def execJne (w : Width) (t : Operand) (s : State) : Host.Outcome State Fault Refusal := (jumpIf .ne w t s).finish
/-- JBE (R238, R226). -/
def execJbe (w : Width) (t : Operand) (s : State) : Host.Outcome State Fault Refusal := (jumpIf .be w t s).finish
/-- JA (R238, R227). -/
def execJa (w : Width) (t : Operand) (s : State) : Host.Outcome State Fault Refusal := (jumpIf .a w t s).finish
/-- JS (R238, R228). -/
def execJs (w : Width) (t : Operand) (s : State) : Host.Outcome State Fault Refusal := (jumpIf .s w t s).finish
/-- JNS (R238, R229). -/
def execJns (w : Width) (t : Operand) (s : State) : Host.Outcome State Fault Refusal := (jumpIf .ns w t s).finish
/-- JP (R238, R230). -/
def execJp (w : Width) (t : Operand) (s : State) : Host.Outcome State Fault Refusal := (jumpIf .p w t s).finish
/-- JNP (R238, R231). -/
def execJnp (w : Width) (t : Operand) (s : State) : Host.Outcome State Fault Refusal := (jumpIf .np w t s).finish
/-- JL (R238, R232). -/
def execJl (w : Width) (t : Operand) (s : State) : Host.Outcome State Fault Refusal := (jumpIf .l w t s).finish
/-- JGE (R238, R233). -/
def execJge (w : Width) (t : Operand) (s : State) : Host.Outcome State Fault Refusal := (jumpIf .ge w t s).finish
/-- JLE (R238, R234). -/
def execJle (w : Width) (t : Operand) (s : State) : Host.Outcome State Fault Refusal := (jumpIf .le w t s).finish
/-- JG (R238, R235). -/
def execJg (w : Width) (t : Operand) (s : State) : Host.Outcome State Fault Refusal := (jumpIf .g w t s).finish

/-- LOOP (R239). -/
def execLoop (w : Width) (t : Operand) (s : State) : Host.Outcome State Fault Refusal :=
  (loopIf (fun _ => true) w t s).finish

/-- LOOPE (R240): also ZF = 1. -/
def execLoope (w : Width) (t : Operand) (s : State) : Host.Outcome State Fault Refusal :=
  (loopIf (flagOf .zf) w t s).finish

/-- LOOPNE (R241): also ZF = 0. -/
def execLoopne (w : Width) (t : Operand) (s : State) : Host.Outcome State Fault Refusal :=
  (loopIf (fun f => !flagOf .zf f) w t s).finish

/-- CALL (R242): the target is read, the address of the next instruction is pushed, then the jump. -/
def execCall (w : Width) (t : Operand) (s : State) : Host.Outcome State Fault Refusal :=
  ((readTarget w t s).bind fun v s =>
   (push 8 s.rip s).bind fun _ s => .done () (s.jump v)).finish

/-- RET (R243). -/
def execRet (s : State) : Host.Outcome State Fault Refusal :=
  ((pop 8 s).bind fun v s => .done () (s.jump v)).finish

end Sys2Proof.Machine
end

