-- ==== Sys2Proof/Machine/DataMove.lean ====
section
/-! DEFINITION. Data movement: MOV, LEA, PUSH, POP, PUSHF, POPF (42_data_movement.md R170 to R175). The state a meaning is
given has RIP past the instruction (40_engine.md R148). -/

namespace Sys2Proof.Machine

/-- MOV (R170). -/
def execMov (w : Width) (f : BinForm) (s : State) : Host.Outcome State Fault Refusal :=
  let d := placeOf f.dst s
  ((readOperand w f.src s).bind fun v s => writePlace w d v s).finish

/-- LEA (R171): the effective address, computed at the address width, is truncated to `w`; memory is not accessed. -/
def execLea (w : Width) (r : Reg) (a : Addr) (s : State) : Host.Outcome State Fault Refusal :=
  .next (s.setReg r w ((effAddr a s).setWidth w.bits))

/-- PUSH (R172): the operand is read before RSP changes. -/
def execPush (w : Width) (v : Operand) (s : State) : Host.Outcome State Fault Refusal :=
  ((readOperand w v s).bind fun v s => push w.bytes v s).finish

/-- POP (R173): the effective address is computed before RSP changes, the write follows the increment. -/
def execPop (w : Width) (d : RegMem) (s : State) : Host.Outcome State Fault Refusal :=
  let p := placeOf d s
  ((pop w.bytes s).bind fun v s => writePlace w p v s).finish

/-- PUSHF (R174). -/
def execPushf (s : State) : Host.Outcome State Fault Refusal :=
  (push 8 s.rflags s).finish

/-- POPF (R175). -/
def execPopf (s : State) : Host.Outcome State Fault Refusal :=
  ((pop 8 s).bind fun v s => .done () { s with rflags := restoreFlags s.rflags v }).finish

end Sys2Proof.Machine
end

