-- ==== Sys2Proof/Machine/Fpu.lean ====
section
/-! DEFINITION. The FPU stack controller and its instructions: FLD, FST, FSTP, FFREE, FINCSTP, FDECSTP, FINIT (45_fpu.md
R260 to R271). Slots hold raw 64-bit patterns (R261). -/

namespace Sys2Proof.Machine

/-- The slot of `ST(i)`: `(TOP + i) mod 8` (R260). -/
def State.slot (s : State) (i : StIndex) : BitVec 3 := s.top + i

/-- `fpr[j]` (10_state.md R30). -/
def State.fprAt (s : State) (j : BitVec 3) : Word := s.fpr[j.toFin]

/-- `inuse[j]` (10_state.md R30). -/
def State.inuseAt (s : State) (j : BitVec 3) : Bool := s.inuse[j.toFin]

/-- `fpr[j] <- v`. -/
def State.putFpr (s : State) (j : BitVec 3) (v : Word) : State := { s with fpr := s.fpr.set j.toFin v }

/-- `inuse[j] <- b`. -/
def State.putInuse (s : State) (j : BitVec 3) (b : Bool) : State := { s with inuse := s.inuse.set j.toFin b }

/-- Reading `ST(i)`, with the check that its slot is in use (R262). -/
def readSt (i : StIndex) (s : State) : Res Word :=
  if s.inuseAt (s.slot i) then .done (s.fprAt (s.slot i)) s else .raised .undefinedBehavior s

/-- `FpuPush(v)` (R263): a push onto a slot in use faults and changes nothing. -/
def fpuPush (v : Word) (s : State) : Res Unit :=
  let j := s.top - 1
  if s.inuseAt j then .raised .undefinedBehavior s
  else .done () (({ s with top := j }.putFpr j v).putInuse j true)

/-- `FpuPop()` (R264): the slot keeps its stale value; popping an empty slot faults and changes nothing. -/
def fpuPop (s : State) : Res Unit :=
  if s.inuseAt s.top then .done () { s.putInuse s.top false with top := s.top + 1 }
  else .raised .undefinedBehavior s

/-- The value FLD loads: `ST(i)` after its check, or 64 bits of memory (R265). -/
def readFpuForm (f : FpuForm) (s : State) : Res Word :=
  match f with
  | .st i => readSt i s
  | .mem a => memRead (effAddr a s).toNat 8 s

/-- The store of FST and FSTP: ST(0) must be in use; a register destination becomes in use (R266). -/
def fpuStore (f : FpuForm) (s : State) : Res Unit :=
  (readSt 0 s).bind fun v s =>
  match f with
  | .st i => .done () ((s.putFpr (s.slot i) v).putInuse (s.slot i) true)
  | .mem a => memWrite (effAddr a s).toNat 8 v s

/-- FLD (R265): the source is read before the push is checked. -/
def execFld (f : FpuForm) (s : State) : Host.Outcome State Fault Refusal :=
  ((readFpuForm f s).bind fun v s => fpuPush v s).finish

/-- FST (R266). -/
def execFst (f : FpuForm) (s : State) : Host.Outcome State Fault Refusal := (fpuStore f s).finish

/-- FSTP (R267): FST, then `FpuPop()`. -/
def execFstp (f : FpuForm) (s : State) : Host.Outcome State Fault Refusal :=
  ((fpuStore f s).bind fun _ s => fpuPop s).finish

/-- FFREE (R268). -/
def execFfree (i : StIndex) (s : State) : Host.Outcome State Fault Refusal := .next (s.putInuse (s.slot i) false)

/-- FINCSTP (R269). -/
def execFincstp (s : State) : Host.Outcome State Fault Refusal := .next { s with top := s.top + 1 }

/-- FDECSTP (R270). -/
def execFdecstp (s : State) : Host.Outcome State Fault Refusal := .next { s with top := s.top - 1 }

/-- FINIT (R271): every slot free, TOP 0; slot values stay. -/
def execFinit (s : State) : Host.Outcome State Fault Refusal :=
  .next { s with inuse := Vector.replicate 8 false, top := 0 }

end Sys2Proof.Machine
end

