-- ==== Sys2Proof/Machine/Syscall.lean ====
section
/-! DEFINITION. The syscall layer and the file-descriptor table behind SYSCALL (60_exceptions.md R296 to R305), with the
handlers of the reference table (R304) and the run of a handler of the host's own; which number names which is SYSCALL_MAP.
Memory is touched only through the checked primitives (20_memory.md R76). -/

namespace Sys2Proof.Machine

/-- The handler a number names, taken from all 64 bits; none for a number that stands in no entry (R304). -/
def serviceOf (m : SyscallMap) (num : Word) : Option Service := m.handlers.lookup num

/-- The service SYSCALL calls: that of the number in the number register (41_system.md R162). -/
def State.service (s : State) : Option Service := serviceOf s.cfg.syscalls (s.reg s.cfg.syscalls.number)

/-- How a handler that does not fail ends (R298); `Fail(e)` is the raised case of Res. -/
inductive SysEnd
  | finished
  | suspend
  | exit (v : Word)
  deriving DecidableEq, Repr

/-- The arguments `a0`, `a1`, `a2` (R303). -/
def State.arg0 (s : State) : Word := s.reg s.cfg.syscalls.arg0
def State.arg1 (s : State) : Word := s.reg s.cfg.syscalls.arg1
def State.arg2 (s : State) : Word := s.reg s.cfg.syscalls.arg2

/-- The result register (R303). -/
def State.resultReg (s : State) : Reg := s.cfg.syscalls.result

/-- `Done` with a result in the result register (R298, R303). -/
def sysResult (v : Word) (s : State) : Res SysEnd := .done .finished (s.putReg s.resultReg v)

/-- NFD, the number of slots of the FD table (00_scope.md R9, R11). -/
def State.nfd (s : State) : Nat := s.fd.length

/-- A slot of the FD table; a free one past the table's end. -/
def State.fdAt (s : State) (k : Nat) : FdSlot := s.fd.getD k .free

/-- A slot of the FD table replaced. -/
def State.putFd (s : State) (k : Nat) (f : FdSlot) : State := { s with fd := s.fd.set k f }

/-- `CheckFD(k)` (R297): the index first, then the slot. -/
def checkFd (k : Word) (s : State) : Res Nat :=
  if k.toNat < s.nfd then
    if (s.fdAt k.toNat).inUse then .done k.toNat s else .raised .fdNotInUse s
  else .raised .outOfBounds s

/-- `CheckBufRead(pos, n)` (R302). -/
def checkBufRead (p n : Nat) (s : State) : Res Unit :=
  if s.inBounds p n then .done () s else .raised .outOfBounds s

/-- `CheckBufWrite(pos, n)` (R302): the checks of one write of the whole range. -/
def checkBufWrite (p n : Nat) (s : State) : Res Unit := checkWrite p n s

/-- The filesystem gate (R300). -/
def fsGate (s : State) : Res Unit := if s.cfg.fsEnabled then .done () s else .raised .fsDisabled s

/-- A host operation whose failure is `IOFailure` (R305). -/
def askOrFail (c : HostCall) (s : State) : Res HostReply :=
  let (r, s) := askHost c s
  if r.failed then .raised .ioFailure s else .done r s

/-- The first free slot (R301). -/
def freeSlot (fd : List FdSlot) : Option Nat := fd.findIdx? fun f => !f.inUse

/-- The origin of a seek: 0 start, 1 current, 2 end, any other value has none (R304). -/
def originOf (v : Word) : Option SeekOrigin :=
  if v = 0 then some .fromStart else if v = 1 then some .fromCurrent else if v = 2 then some .fromEnd else none

/-- read (R304, R299): memory is written only with the bytes the host delivered, at most the count asked for (log 15).
Zero bytes suspend on an interactive slot and are end of file on another. -/
def sysRead (s : State) : Res SysEnd :=
  (checkFd s.arg0 s).bind fun k s =>
  (checkBufWrite s.arg1.toNat s.arg2.toNat s).bind fun _ s =>
  (askOrFail (.read (s.fdAt k).stream s.arg2.toNat) s).bind fun r s =>
  let data := r.data.take s.arg2.toNat
  if data.isEmpty && (s.fdAt k).interactive then .done .suspend s
  else sysResult (BitVec.ofNat 64 data.length) (s.putBytes s.arg1.toNat data)

/-- write (R304). -/
def sysWrite (s : State) : Res SysEnd :=
  (checkFd s.arg0 s).bind fun k s =>
  (checkBufRead s.arg1.toNat s.arg2.toNat s).bind fun _ s =>
  (askOrFail (.write (s.fdAt k).stream (s.bytes s.arg1.toNat s.arg2.toNat)) s).bind fun _ s =>
  sysResult s.arg2 s

/-- open (R304, R300, R301): the gate, the path, a free slot, then the host. -/
def sysOpen (s : State) : Res SysEnd :=
  (fsGate s).bind fun _ s =>
  (readCString s.arg0.toNat s).bind fun path s =>
  match freeSlot s.fd with
  | none => .raised .insufficientFds s
  | some k =>
    (askOrFail (.openFile path s.arg1) s).bind fun r s =>
    sysResult (BitVec.ofNat 64 k) (s.putFd k ⟨true, r.stream, false⟩)

/-- close (R304): the slot is freed whether or not the host's close fails. -/
def sysClose (s : State) : Res SysEnd :=
  (checkFd s.arg0 s).bind fun k s =>
  let (r, s) := askHost (.close (s.fdAt k).stream) s
  let s := s.putFd k (closedSlot (s.fdAt k))
  if r.failed then .raised .ioFailure s else sysResult 0 s

/-- flush (R304). -/
def sysFlush (s : State) : Res SysEnd :=
  (checkFd s.arg0 s).bind fun k s =>
  (askOrFail (.flush (s.fdAt k).stream) s).bind fun _ s => sysResult 0 s

/-- seek (R304): the offset is signed; an origin that is none fails without a host call (log 12). -/
def sysSeek (s : State) : Res SysEnd :=
  (checkFd s.arg0 s).bind fun k s =>
  match originOf s.arg2 with
  | none => .raised .ioFailure s
  | some origin =>
    (askOrFail (.seek (s.fdAt k).stream s.arg1.toInt origin) s).bind fun r s => sysResult r.position s

/-- tell (R304). -/
def sysTell (s : State) : Res SysEnd :=
  (checkFd s.arg0 s).bind fun k s =>
  (askOrFail (.tell (s.fdAt k).stream) s).bind fun r s => sysResult r.position s

/-- move (R304). -/
def sysMove (s : State) : Res SysEnd :=
  (fsGate s).bind fun _ s =>
  (readCString s.arg0.toNat s).bind fun source s =>
  (readCString s.arg1.toNat s).bind fun target s =>
  (askOrFail (.move source target) s).bind fun _ s => sysResult 0 s

/-- remove, mkdir, rmdir (R304): the gate, the path, then the host operation. -/
def sysPath (call : List Byte → HostCall) (s : State) : Res SysEnd :=
  (fsGate s).bind fun _ s =>
  (readCString s.arg0.toNat s).bind fun path s =>
  (askOrFail (call path) s).bind fun _ s => sysResult 0 s

/-- The run of a handler (R298): each operation in turn, a raised error ending it. -/
def runHandler : Handler → State → Res SysEnd
  | .finish, s => .done .finished s
  | .suspend, s => .done .suspend s
  | .exit v, s => .done (.exit v) s
  | .fail e, s => .raised e s
  | .readReg r k, s => runHandler (k (s.reg r)) s
  | .writeResult v k, s => runHandler k (s.putReg s.resultReg v)
  | .readMem p w k, s => (memRead p w.bytes s).bind fun v s => runHandler (k v) s
  | .writeMem p w v k, s => (memWrite p w.bytes v s).bind fun _ s => runHandler k s
  | .readString p k, s => (readCString p s).bind fun str s => runHandler (k str) s
  | .writeString p str k, s => (writeCString p str s).bind fun _ s => runHandler k s
  | .checkBufRead p n k, s => (checkBufRead p n s).bind fun _ s => runHandler k s
  | .checkBufWrite p n k, s => (checkBufWrite p n s).bind fun _ s => runHandler k s
  | .readFsEnabled k, s => runHandler (k s.cfg.fsEnabled) s
  | .readFds k, s => runHandler (k s.fd) s
  | .writeFd n f k, s => runHandler k (s.putFd n f)
  | .askHost c k, s => runHandler (k (askHost c s).1) (askHost c s).2

/-- The handler of a service (R304), with the host's own handlers (R298). -/
def handler (H : HandlerTable) (v : Service) (s : State) : Res SysEnd :=
  match v with
  | .exit => .done (.exit s.arg0) s
  | .read => sysRead s
  | .write => sysWrite s
  | .openFile => sysOpen s
  | .close => sysClose s
  | .flush => sysFlush s
  | .seek => sysSeek s
  | .tell => sysTell s
  | .move => sysMove s
  | .remove => sysPath .remove s
  | .mkdir => sysPath .mkdir s
  | .rmdir => sysPath .rmdir s
  | .own n => runHandler (H n) s

end Sys2Proof.Machine
end

