-- ==== Sys2Proof/Machine/System.lean ====
section
/-! DEFINITION. The system instructions: NOP, HLT, SYSCALL (41_system.md R160 to R162). -/

namespace Sys2Proof.Machine

/-- NOP (R160). -/
def execNop (s : State) : Host.Outcome State Fault Refusal := .next s

/-- HLT (R161): `raise Abort`, the instruction's own effect. -/
def execHlt (s : State) : Host.Outcome State Fault Refusal := (Res.raised (α := Unit) .abort s).finish

/-- What SYSCALL does with its handler's outcome (R162): a suspension puts RIP back on this one-byte instruction. -/
def applySysEnd (v : SysEnd) (s : State) : State :=
  match v with
  | .finished => s
  | .suspend => { s with rip := s.rip - 1, suspendedRead := true }
  | .exit v => exitWith v s

/-- SYSCALL (R162) on an engine with these handlers of the host's own. -/
def execSyscallWith (H : HandlerTable) (s : State) : Host.Outcome State Fault Refusal :=
  match s.service with
  | none => (Res.raised (α := Unit) .unhandledSyscall s).finish
  | some v => ((handler H v s).bind fun e s => .done () (applySysEnd e s)).finish

/-- SYSCALL (R162); the handlers of the host's own are a free value (log 19). -/
def execSyscall (s : State) : Host.Outcome State Fault Refusal := execSyscallWith Config.ownHandlers s

end Sys2Proof.Machine
end

