-- ==== Sys2Proof/Machine/Dispatch.lean ====
section
/-! DEFINITION. The dispatch: one arm per instruction, each one call of its meaning (40_engine.md R144, R150). The state has RIP
past the instruction's bytes (R148). -/

namespace Sys2Proof.Machine

def exec (i : Instr) (s : State) : Host.Outcome State Fault Refusal :=
  match i with
  | .nop => Sys2Proof.Machine.execNop s
  | .hlt => Sys2Proof.Machine.execHlt s
  | .syscall => Sys2Proof.Machine.execSyscall s
  | .pushf => Sys2Proof.Machine.execPushf s
  | .popf => Sys2Proof.Machine.execPopf s
  | .mov w f => Sys2Proof.Machine.execMov w f s
  | .lea w r a => Sys2Proof.Machine.execLea w r a s
  | .push w v => Sys2Proof.Machine.execPush w v s
  | .pop w d => Sys2Proof.Machine.execPop w d s
  | .jmp w t => Sys2Proof.Machine.execJmp w t s
  | .jo w t => Sys2Proof.Machine.execJo w t s
  | .jno w t => Sys2Proof.Machine.execJno w t s
  | .jb w t => Sys2Proof.Machine.execJb w t s
  | .jae w t => Sys2Proof.Machine.execJae w t s
  | .je w t => Sys2Proof.Machine.execJe w t s
  | .jne w t => Sys2Proof.Machine.execJne w t s
  | .jbe w t => Sys2Proof.Machine.execJbe w t s
  | .ja w t => Sys2Proof.Machine.execJa w t s
  | .js w t => Sys2Proof.Machine.execJs w t s
  | .jns w t => Sys2Proof.Machine.execJns w t s
  | .jp w t => Sys2Proof.Machine.execJp w t s
  | .jnp w t => Sys2Proof.Machine.execJnp w t s
  | .jl w t => Sys2Proof.Machine.execJl w t s
  | .jge w t => Sys2Proof.Machine.execJge w t s
  | .jle w t => Sys2Proof.Machine.execJle w t s
  | .jg w t => Sys2Proof.Machine.execJg w t s
  | .loop w t => Sys2Proof.Machine.execLoop w t s
  | .loope w t => Sys2Proof.Machine.execLoope w t s
  | .loopne w t => Sys2Proof.Machine.execLoopne w t s
  | .call w t => Sys2Proof.Machine.execCall w t s
  | .ret => Sys2Proof.Machine.execRet s
  | .add w f => Sys2Proof.Machine.execAdd w f s
  | .sub w f => Sys2Proof.Machine.execSub w f s
  | .cmp w f => Sys2Proof.Machine.execCmp w f s
  | .and w f => Sys2Proof.Machine.execAnd w f s
  | .or w f => Sys2Proof.Machine.execOr w f s
  | .xor w f => Sys2Proof.Machine.execXor w f s
  | .test w f => Sys2Proof.Machine.execTest w f s
  | .inc w d => Sys2Proof.Machine.execInc w d s
  | .dec w d => Sys2Proof.Machine.execDec w d s
  | .neg w d => Sys2Proof.Machine.execNeg w d s
  | .not w d => Sys2Proof.Machine.execNot w d s
  | .fld f => Sys2Proof.Machine.execFld f s
  | .fst f => Sys2Proof.Machine.execFst f s
  | .fstp f => Sys2Proof.Machine.execFstp f s
  | .ffree k => Sys2Proof.Machine.execFfree k s
  | .fincstp => Sys2Proof.Machine.execFincstp s
  | .fdecstp => Sys2Proof.Machine.execFdecstp s
  | .finit => Sys2Proof.Machine.execFinit s

end Sys2Proof.Machine
end

