-- ==== Sys2Proof/WellFormed.lean ====
section
/-! DEFINITION. Which terms of the syntax stand for an encoding: the bodies that fit their width, and the widths each
format admits (30_encoding.md R103, R108, R117 to R119; 42_data_movement.md R173). -/

namespace Sys2Proof

/-- The body fits `2^s` bytes (R103). -/
def Imm.wf (i : Imm) : Bool := decide (i.body.toNat < 2 ^ i.size.bits)

/-- The displacement, where present, fits the address width (R108). -/
def Addr.wf (a : Addr) : Bool :=
  match a.disp with
  | none => true
  | some d => decide (d.toNat < 2 ^ (8 * a.size.bytes))

def RegMem.wf : RegMem → Bool
  | .reg _ => true
  | .mem a => a.wf

def Operand.wf : Operand → Bool
  | .reg _ => true
  | .imm v => v.wf
  | .mem a => a.wf

def BinForm.wf : BinForm → Bool
  | .rr _ _ => true
  | .ri _ v => v.wf
  | .rm _ a => a.wf
  | .mr a _ => a.wf

def FpuForm.wf : FpuForm → Bool
  | .st _ => true
  | .mem a => a.wf

/-- The widths of a value operand, of LEA and of POP: a size code of 0 is illegal (R118, R119, R173). -/
def Width.notByte (w : Width) : Bool := w != .w1

/-- A value operand of a width its format admits (R118). -/
def valWf (w : Width) (t : Operand) : Bool := w.notByte && t.wf

/-- A well-formed instruction is one that some byte sequence decodes to (30_encoding.md R132). -/
def Instr.wf : Instr → Bool
  | .nop | .hlt | .syscall | .pushf | .popf | .ret | .fincstp | .fdecstp | .finit => true
  | .mov _ f | .add _ f | .sub _ f | .cmp _ f | .and _ f | .or _ f | .xor _ f | .test _ f => f.wf
  | .lea w _ a => w.notByte && a.wf
  | .pop w d => w.notByte && d.wf
  | .push w t | .jmp w t | .call w t | .loop w t | .loope w t | .loopne w t => valWf w t
  | .jo w t | .jno w t | .jb w t | .jae w t | .je w t | .jne w t | .jbe w t | .ja w t => valWf w t
  | .js w t | .jns w t | .jp w t | .jnp w t | .jl w t | .jge w t | .jle w t | .jg w t => valWf w t
  | .inc _ d | .dec _ d | .neg _ d | .not _ d => d.wf
  | .fld f | .fst f | .fstp f => f.wf
  | .ffree _ => true

end Sys2Proof
end

