-- ==== Sys2Proof/Decode.lean ====
section
/-! DEFINITION. The decoder and the encoder (30_encoding.md). The decoder reads a list of bytes, one field at a time and in
the spec's order (R101, R124), and is total: it gives an instruction and the bytes after it, or the name of the first
check that fails and the bytes not yet fetched at that moment. -/

namespace Sys2Proof

/-- Why a byte sequence is no instruction (30_encoding.md R132), one name per check. `truncated` is a missing byte, which
raises OutOfBounds; each of the others raises UndefinedBehavior. -/
inductive DecodeFault
  | truncated          -- a field's bytes are missing (R101)
  | unassignedOpcode   -- R131
  | immReserved        -- P[6:2] is not 0 (R104)
  | addrReserved       -- A[6] is not 0 (R109)
  | addrByteSize       -- A[3:2] is 0: 8-bit addressing (R109, R112)
  | unusedBaseNibble   -- B = 0 and RR[7:4] is not 0 (R109)
  | unusedIndexNibble  -- X = 0 and RR[3:0] is not 0 (R109)
  | r2Reserved         -- R2[7:4] is not 0 (R116)
  | unMode             -- UN modes 2 and 3 (R117)
  | unRegister         -- UN mode 1 with r not 0 (R117)
  | valByteSize        -- a VAL size code of 0 (R118)
  | valMode            -- VAL mode 3 (R118)
  | valRegister        -- VAL modes 1 and 2 with r not 0 (R118)
  | leaForm            -- a LEA size code of 0 or a nonzero mode (R119)
  | popByteSize        -- a POP size code of 0 (42_data_movement.md R173)
  | condReserved       -- C[7:4] is not 0 (R120)
  | loopReserved       -- K[7:2] is not 0 (R121)
  | loopKind           -- kind 3 (R121)
  | frmReserved        -- F[7:4] is not 0 (R122)
  | frmIndex           -- FRM mode 1 with i not 0 (R122)
  | fiReserved         -- F[7:3] is not 0 (R123)
  deriving DecidableEq, Repr

/-- What a parser answers: a value and the bytes after it, or the failed check and the bytes not yet fetched. -/
inductive Parsed (α : Type)
  | ok (v : α) (rest : List Byte)
  | bad (why : DecodeFault) (rest : List Byte)
  deriving DecidableEq, Repr

/-- A parser over the bytes at the instruction pointer. -/
abbrev Parser (α : Type) := List Byte → Parsed α

/-- Go on with the value and the bytes after it; the first failed check ends the decoding (R124). -/
def Parsed.andThen {α β : Type} (p : Parsed α) (k : α → Parser β) : Parsed β :=
  match p with
  | .ok v rest => k v rest
  | .bad why rest => .bad why rest

/-- `Fetch(n)` over the bytes at the instruction pointer (20_memory.md R67): a missing byte fetches nothing. -/
def fetch (n : Nat) : Parser Nat := fun bs =>
  if bs.length < n then .bad .truncated bs else .ok (leNat (bs.take n)) (bs.drop n)

/-- `Fetch(1)`. -/
def fetchByte : Parser Byte := fun bs =>
  match bs with
  | [] => .bad .truncated []
  | b :: rest => .ok b rest

/-- `DecodeImm()` (R103, R104). -/
def decodeImm : Parser Imm := fun bs =>
  (fetchByte bs).andThen fun p bs =>
  if p.extractLsb' 2 5 ≠ 0#5 then .bad .immReserved bs else
  let size := widthOf (p.extractLsb' 0 2)
  (fetch size.bytes bs).andThen fun b bs =>
  .ok ⟨p.getLsbD 7, size, BitVec.ofNat 64 b⟩ bs

/-- The displacement of an address of size `n`, where the flag `D` says one follows (R108). -/
def decodeDisp (d : Bool) (size : AddrSize) : Parser (Option Word) := fun bs =>
  if d then (fetch size.bytes bs).andThen fun v bs => .ok (some (BitVec.ofNat 64 v)) bs
  else .ok none bs

/-- The register byte `RR`, where `B` or `X` says one follows (R107): the base and the index. -/
def decodeRegs (b x : Bool) : Parser (Option Reg × Option Reg) := fun bs =>
  if b || x then
    (fetchByte bs).andThen fun rr bs =>
    if !b && decide (hiNibble rr ≠ 0#4) then .bad .unusedBaseNibble bs else
    if !x && decide (loNibble rr ≠ 0#4) then .bad .unusedIndexNibble bs else
    .ok (if b then some (regOf (hiNibble rr)) else none, if x then some (regOf (loNibble rr)) else none) bs
  else .ok (none, none) bs

/-- `DecodeAddr()` (R109): the whole operand is fetched and no register is read. -/
def decodeAddr : Parser Addr := fun bs =>
  (fetchByte bs).andThen fun a bs =>
  if a.getLsbD 6 then .bad .addrReserved bs else
  match addrSizeOf (a.extractLsb' 2 2) with
  | none => .bad .addrByteSize bs
  | some size =>
    (decodeRegs (a.getLsbD 1) (a.getLsbD 0) bs).andThen fun regs bs =>
    (decodeDisp (a.getLsbD 7) size bs).andThen fun disp bs =>
    .ok ⟨size, a.extractLsb' 4 2, regs.1, regs.2, disp⟩ bs

/-- `DecodeBin()` (R116), handing the width and the form to a constructor. -/
def decodeBin (mk : Width → BinForm → Instr) : Parser Instr := fun bs =>
  (fetchByte bs).andThen fun s bs =>
  let r := regOf (hiNibble s)
  let w := widthOf (sizeField s)
  if modeField s = 0#2 then
    (fetchByte bs).andThen fun r2 bs =>
    if hiNibble r2 ≠ 0#4 then .bad .r2Reserved bs else .ok (mk w (.rr r (regOf (loNibble r2)))) bs
  else if modeField s = 1#2 then (decodeImm bs).andThen fun v bs => .ok (mk w (.ri r v)) bs
  else if modeField s = 2#2 then (decodeAddr bs).andThen fun a bs => .ok (mk w (.rm r a)) bs
  else (decodeAddr bs).andThen fun a bs => .ok (mk w (.mr a r)) bs

/-- The operand of a UN settings byte `s` that has been fetched (R117). -/
def decodeUnTail (s : Byte) (mk : Width → RegMem → Instr) : Parser Instr := fun bs =>
  let w := widthOf (sizeField s)
  if modeField s = 0#2 then .ok (mk w (.reg (regOf (hiNibble s)))) bs
  else if modeField s = 1#2 then
    if hiNibble s ≠ 0#4 then .bad .unRegister bs
    else (decodeAddr bs).andThen fun a bs => .ok (mk w (.mem a)) bs
  else .bad .unMode bs

/-- `DecodeUn()` (R117). -/
def decodeUn (mk : Width → RegMem → Instr) : Parser Instr := fun bs =>
  (fetchByte bs).andThen fun s bs => decodeUnTail s mk bs

/-- POP's `DecodeUn()`, with the check of the size code right after the settings byte (42_data_movement.md R173). -/
def decodePop : Parser Instr := fun bs =>
  (fetchByte bs).andThen fun s bs =>
  if sizeField s = 0#2 then .bad .popByteSize bs else decodeUnTail s .pop bs

/-- `DecodeVal()` (R118). -/
def decodeVal (mk : Width → Operand → Instr) : Parser Instr := fun bs =>
  (fetchByte bs).andThen fun s bs =>
  let w := widthOf (sizeField s)
  if sizeField s = 0#2 then .bad .valByteSize bs else
  if modeField s = 0#2 then .ok (mk w (.reg (regOf (hiNibble s)))) bs
  else if modeField s = 1#2 then
    if hiNibble s ≠ 0#4 then .bad .valRegister bs
    else (decodeImm bs).andThen fun v bs => .ok (mk w (.imm v)) bs
  else if modeField s = 2#2 then
    if hiNibble s ≠ 0#4 then .bad .valRegister bs
    else (decodeAddr bs).andThen fun a bs => .ok (mk w (.mem a)) bs
  else .bad .valMode bs

/-- `DecodeLea()` (R119). -/
def decodeLea : Parser Instr := fun bs =>
  (fetchByte bs).andThen fun s bs =>
  if sizeField s = 0#2 ∨ modeField s ≠ 0#2 then .bad .leaForm bs
  else (decodeAddr bs).andThen fun a bs => .ok (.lea (widthOf (sizeField s)) (regOf (hiNibble s)) a) bs

/-- The Jcc row of a condition number (opcode_table.json, rows JO to JG; 44_control.md R220 to R235). -/
def jccOf (cc : BitVec 4) : Width → Operand → Instr :=
  if cc = 0#4 then .jo else if cc = 1#4 then .jno else if cc = 2#4 then .jb else if cc = 3#4 then .jae
  else if cc = 4#4 then .je else if cc = 5#4 then .jne else if cc = 6#4 then .jbe else if cc = 7#4 then .ja
  else if cc = 8#4 then .js else if cc = 9#4 then .jns else if cc = 10#4 then .jp else if cc = 11#4 then .jnp
  else if cc = 12#4 then .jl else if cc = 13#4 then .jge else if cc = 14#4 then .jle else .jg

/-- The CC format: the condition byte, then a value operand (R120). -/
def decodeCond : Parser Instr := fun bs =>
  (fetchByte bs).andThen fun c bs =>
  if hiNibble c ≠ 0#4 then .bad .condReserved bs else decodeVal (jccOf (loNibble c)) bs

/-- The LP format: the loop byte, then a value operand (R121). -/
def decodeLoop : Parser Instr := fun bs =>
  (fetchByte bs).andThen fun k bs =>
  if k.extractLsb' 2 6 ≠ 0#6 then .bad .loopReserved bs else
  let kind := k.extractLsb' 0 2
  if kind = 0#2 then decodeVal .loop bs
  else if kind = 1#2 then decodeVal .loope bs
  else if kind = 2#2 then decodeVal .loopne bs
  else .bad .loopKind bs

/-- `DecodeFrm()` (R122). -/
def decodeFrm (mk : FpuForm → Instr) : Parser Instr := fun bs =>
  (fetchByte bs).andThen fun f bs =>
  if hiNibble f ≠ 0#4 then .bad .frmReserved bs else
  if f.getLsbD 3 then
    if f.extractLsb' 0 3 ≠ 0#3 then .bad .frmIndex bs
    else (decodeAddr bs).andThen fun a bs => .ok (mk (.mem a)) bs
  else .ok (mk (.st (f.extractLsb' 0 3))) bs

/-- The FI format (R123). -/
def decodeFi : Parser Instr := fun bs =>
  (fetchByte bs).andThen fun f bs =>
  if f.extractLsb' 3 5 ≠ 0#5 then .bad .fiReserved bs else .ok (.ffree (f.extractLsb' 0 3)) bs

/-- The N format: no operand byte. -/
def decodeNone (i : Instr) : Parser Instr := fun bs => .ok i bs

/-- OPCODE_MAP (R130): the operand parser of each assigned opcode; every other opcode is unassigned (R131). -/
def operandsOf (op : Byte) : Option (Parser Instr) :=
  match op.toNat with
  | 0x00 => some (decodeNone .nop)
  | 0x01 => some (decodeNone .hlt)
  | 0x02 => some (decodeNone .syscall)
  | 0x03 => some (decodeNone .pushf)
  | 0x04 => some (decodeNone .popf)
  | 0x05 => some (decodeBin .mov)
  | 0x06 => some decodeLea
  | 0x07 => some (decodeVal .push)
  | 0x08 => some decodePop
  | 0x09 => some (decodeVal .jmp)
  | 0x0A => some decodeCond
  | 0x0B => some decodeLoop
  | 0x0C => some (decodeVal .call)
  | 0x0D => some (decodeNone .ret)
  | 0x10 => some (decodeBin .add)
  | 0x11 => some (decodeBin .sub)
  | 0x12 => some (decodeBin .cmp)
  | 0x13 => some (decodeBin .and)
  | 0x14 => some (decodeBin .or)
  | 0x15 => some (decodeBin .xor)
  | 0x16 => some (decodeBin .test)
  | 0x18 => some (decodeUn .inc)
  | 0x19 => some (decodeUn .dec)
  | 0x1A => some (decodeUn .neg)
  | 0x1B => some (decodeUn .not)
  | 0x20 => some (decodeFrm .fld)
  | 0x21 => some (decodeFrm .fst)
  | 0x22 => some (decodeFrm .fstp)
  | 0x23 => some decodeFi
  | 0x24 => some (decodeNone .fincstp)
  | 0x25 => some (decodeNone .fdecstp)
  | 0x26 => some (decodeNone .finit)
  | _ => none

/-- The decoder: the opcode byte selects the operand parser (40_engine.md R143, R144; 30_encoding.md R100). -/
def decode : Parser Instr := fun bs =>
  (fetchByte bs).andThen fun op bs =>
  match operandsOf op with
  | none => .bad .unassignedOpcode bs
  | some p => p bs

/-! ### The encoder -/

/-- The bytes of a compact immediate (R103). -/
def encodeImm (i : Imm) : List Byte :=
  ((BitVec.ofBool i.sx ++ 0#5 ++ widthCode i.size : BitVec 8)) :: leBytes i.size.bytes i.body.toNat

/-- The bytes of a displacement, where one is present (R108). -/
def encodeDisp (size : AddrSize) : Option Word → List Byte
  | none => []
  | some d => leBytes size.bytes d.toNat

/-- The bytes of an address operand (R106 to R108). -/
def encodeAddr (a : Addr) : List Byte :=
  ((BitVec.ofBool a.disp.isSome ++ 0#1 ++ a.scale ++ addrSizeCode a.size ++ BitVec.ofBool a.base.isSome
      ++ BitVec.ofBool a.index.isSome : BitVec 8))
  :: ((if a.base.isSome || a.index.isSome then
        [nibbles ((a.base.map regCode).getD 0#4) ((a.index.map regCode).getD 0#4)] else [])
      ++ encodeDisp a.size a.disp)

/-- The operand bytes of the BIN format (R114 to R116). -/
def encodeBin (w : Width) : BinForm → List Byte
  | .rr r s => [settings (regCode r) (widthCode w) 0#2, nibbles 0#4 (regCode s)]
  | .ri r v => settings (regCode r) (widthCode w) 1#2 :: encodeImm v
  | .rm r a => settings (regCode r) (widthCode w) 2#2 :: encodeAddr a
  | .mr a r => settings (regCode r) (widthCode w) 3#2 :: encodeAddr a

/-- The operand bytes of the UN format (R117). -/
def encodeUn (w : Width) : RegMem → List Byte
  | .reg r => [settings (regCode r) (widthCode w) 0#2]
  | .mem a => settings 0#4 (widthCode w) 1#2 :: encodeAddr a

/-- The bytes of a value operand (R118). -/
def encodeVal (w : Width) : Operand → List Byte
  | .reg r => [settings (regCode r) (widthCode w) 0#2]
  | .imm v => settings 0#4 (widthCode w) 1#2 :: encodeImm v
  | .mem a => settings 0#4 (widthCode w) 2#2 :: encodeAddr a

/-- The operand bytes of the FRM format (R122). -/
def encodeFrm : FpuForm → List Byte
  | .st i => [(0#5 ++ i : BitVec 8)]
  | .mem a => 0x08#8 :: encodeAddr a

/-- The bytes of an instruction, lowest address first (R130 and the formats above). -/
def encode : Instr → List Byte
  | .nop => [0x00]
  | .hlt => [0x01]
  | .syscall => [0x02]
  | .pushf => [0x03]
  | .popf => [0x04]
  | .mov w f => 0x05 :: encodeBin w f
  | .lea w r a => 0x06 :: settings (regCode r) (widthCode w) 0#2 :: encodeAddr a
  | .push w v => 0x07 :: encodeVal w v
  | .pop w d => 0x08 :: encodeUn w d
  | .jmp w t => 0x09 :: encodeVal w t
  | .jo w t => 0x0A :: 0x00 :: encodeVal w t
  | .jno w t => 0x0A :: 0x01 :: encodeVal w t
  | .jb w t => 0x0A :: 0x02 :: encodeVal w t
  | .jae w t => 0x0A :: 0x03 :: encodeVal w t
  | .je w t => 0x0A :: 0x04 :: encodeVal w t
  | .jne w t => 0x0A :: 0x05 :: encodeVal w t
  | .jbe w t => 0x0A :: 0x06 :: encodeVal w t
  | .ja w t => 0x0A :: 0x07 :: encodeVal w t
  | .js w t => 0x0A :: 0x08 :: encodeVal w t
  | .jns w t => 0x0A :: 0x09 :: encodeVal w t
  | .jp w t => 0x0A :: 0x0A :: encodeVal w t
  | .jnp w t => 0x0A :: 0x0B :: encodeVal w t
  | .jl w t => 0x0A :: 0x0C :: encodeVal w t
  | .jge w t => 0x0A :: 0x0D :: encodeVal w t
  | .jle w t => 0x0A :: 0x0E :: encodeVal w t
  | .jg w t => 0x0A :: 0x0F :: encodeVal w t
  | .loop w t => 0x0B :: 0x00 :: encodeVal w t
  | .loope w t => 0x0B :: 0x01 :: encodeVal w t
  | .loopne w t => 0x0B :: 0x02 :: encodeVal w t
  | .call w t => 0x0C :: encodeVal w t
  | .ret => [0x0D]
  | .add w f => 0x10 :: encodeBin w f
  | .sub w f => 0x11 :: encodeBin w f
  | .cmp w f => 0x12 :: encodeBin w f
  | .and w f => 0x13 :: encodeBin w f
  | .or w f => 0x14 :: encodeBin w f
  | .xor w f => 0x15 :: encodeBin w f
  | .test w f => 0x16 :: encodeBin w f
  | .inc w d => 0x18 :: encodeUn w d
  | .dec w d => 0x19 :: encodeUn w d
  | .neg w d => 0x1A :: encodeUn w d
  | .not w d => 0x1B :: encodeUn w d
  | .fld f => 0x20 :: encodeFrm f
  | .fst f => 0x21 :: encodeFrm f
  | .fstp f => 0x22 :: encodeFrm f
  | .ffree i => [0x23, (0#5 ++ i : BitVec 8)]
  | .fincstp => [0x24]
  | .fdecstp => [0x25]
  | .finit => [0x26]

/-! ### The words of spec/opcode_table.json -/

/-- The longest instruction has 13 bytes (R129). -/
def maxInstrBytes : Nat := 13

/-- The bytes of a word that is numbered as spec/opcode_table.json numbers its rows, lowest address first, followed by
zeros up to the longest instruction. The table writes a row of two bytes as ONE number with the opcode, the byte fetched
first, in its high half (JO is 0x0A00 and FFREE 0x2300), so the first byte is the word's most significant one.
DEDUCED, log 10. -/
def tableBytes (nbits w : Nat) : List Byte :=
  (leBytes (nbits / 8) w).reverse ++ List.replicate (maxInstrBytes - nbits / 8) 0#8

/-- The instruction the decoder reads from a word of spec/opcode_table.json, none where it refuses it. -/
def decodeTableWord (nbits w : Nat) : Option Instr :=
  match decode (tableBytes nbits w) with
  | .ok i _ => some i
  | .bad _ _ => none

end Sys2Proof
end

