-- ==== Sys2Proof/Machine/Fetch.lean ====
section
/-! DEFINITION. What the step adds around an instruction's meaning: the gate, the execute check, the decode with its faults;
and a program's placement for a single step (40_engine.md R141 to R146). -/

namespace Sys2Proof.Machine

/-- The Ready state (40_engine.md R140, R141): a tick runs an instruction only in it. -/
def State.ready (s : State) : Bool := s.running && !s.suspendedRead

/-- The execute check of the opcode address (R142). -/
def State.mayFetch (s : State) : Bool := decide (s.rip.toNat < s.eb.toNat)

/-- The decoder's reading of the bytes at RIP (R143, R144). -/
def decodeAt (s : State) : Parsed Instr := decode (fetchWindow maxInstrBytes s)

/-- RIP after the fetches that leave `rest` of the window unfetched (20_memory.md R67). -/
def State.advanceTo (s : State) (rest : List Byte) : State :=
  { s with rip := s.rip + BitVec.ofNat 64 ((fetchWindow maxInstrBytes s).length - rest.length) }

/-- The error a failed decode raises (30_encoding.md R101, R132). -/
def decodeError : DecodeFault → ErrorCode
  | .truncated => .outOfBounds
  | _ => .undefinedBehavior

/-- `Tick` (R146) over the instructions' meanings: the gate (R141), the execute check (R142), the decode (R143, R144), then
the instruction (R145). A failed check terminates the process, which is a next state. -/
def tickWith (run : Instr → State → Host.Outcome State Fault Refusal) (s : State) : Host.Outcome State Fault Refusal :=
  if s.ready then
    if s.mayFetch then
      match decodeAt s with
      | .ok i rest => run i (s.advanceTo rest)
      | .bad why rest => .next (terminate (decodeError why) (s.advanceTo rest))
    else .next (terminate .accessViolation s)
  else .next s

/-- Where a lone instruction is placed: at RIP, or at 0 where the longest instruction would not fit above RIP. -/
def probeAt (s : State) : Nat := if s.rip.toNat + maxInstrBytes < 2 ^ 64 then s.rip.toNat else 0

/-- The state with the bytes of one instruction, at most the longest, stored where the next step fetches (log 11). The
engine is made ready, and each barrier and the buffer's end are raised, where they must be, so that the bytes lie in text
and the barriers stay in order. -/
def placeInstr (bs : List Byte) (s : State) : State :=
  let p := probeAt s
  let top := BitVec.ofNat 64 (p + maxInstrBytes)
  let up (a b : Word) : Word := if a.toNat < b.toNat then b else a
  let eb := up s.eb top
  let rb := up s.rb eb
  let sb := up s.sb rb
  { s.putBytes p (bs.take maxInstrBytes) with
    rip := BitVec.ofNat 64 p
    eb := eb
    rb := rb
    sb := sb
    len := up s.len sb
    running := true
    suspendedRead := false }

end Sys2Proof.Machine
end

