-- ==== Sys2Proof/Machine/Step.lean ====
section
/-! DEFINITION. The step is one `Tick` (40_engine.md R146). -/

namespace Sys2Proof.Machine

/-- `Tick` (R146). The Boolean it returns is `tickReturns` of Machine/HostInterface.lean. -/
def step (s : State) : Host.Outcome State Fault Refusal := tickWith exec s

/-- The state whose next step runs the instruction of a word of spec/opcode_table.json (log 11). -/
def State.withFetchWord (s : State) (nbits w : Nat) : State := placeInstr (tableBytes nbits w) s

end Sys2Proof.Machine
end

