-- ==== Sys2Proof/Machine/Params.lean ====
section
/-! DEFINITION. The parameters of one engine (00_scope.md R11), which the host gives. -/

namespace Sys2Proof.Machine

/-- ARG_LAYOUT (00_scope.md R11; 70_reset_and_hazards.md R343): the stack bytes an argument list takes, and its placement.
The reference layout is `referenceLayout` of Machine/Bootstrap.lean. Its form is the model's (log 19). -/
structure ArgLayout where
  bytes : List (List Byte) → Nat
  place : List (List Byte) → State → Res Unit

/-- The parameters of one engine (00_scope.md R11, 10_state.md R21): the host fixes them, no instruction changes them.
`maxMemSize` is a 64-bit word, so it is at most `2^64 - 1` (70_reset_and_hazards.md R340). FILL is an argument of
`Initialize` (R346). -/
structure EngineParams where
  /-- MAX_MEM_SIZE. -/
  maxMemSize   : Word
  /-- IMAGE_MAGIC. -/
  imageMagic   : Word
  /-- IMAGE_VERSION. -/
  imageVersion : Word
  /-- FS_ENABLED. -/
  fsEnabled    : Bool
  /-- NFD, the size of the FD table. -/
  nfd          : Nat
  /-- INITIAL_FDS: the slots from slot 0 upward; the slots after them are free. -/
  initialFds   : List FdSlot
  /-- SYSCALL_MAP. -/
  syscallMap   : SyscallMap
  /-- The handlers of the host's own that SYSCALL_MAP names (R11; 93_implementation_defined.md). -/
  ownHandlers  : HandlerTable
  /-- ARG_LAYOUT. -/
  argLayout    : ArgLayout

end Sys2Proof.Machine
end

