-- ==== Sys2Proof/Machine/Image.lean ====
section
/-! DEFINITION. The executable image: its layout, its check, loading and saving (70_reset_and_hazards.md R330 to R332;
60_exceptions.md R281). -/

namespace Sys2Proof.Machine

/-- The result of loading an image (60_exceptions.md R281); none of these is an `Error` value of the engine. -/
inductive LoadResult
  | ok | wrongMagic | wrongVersion | formatCorrupt | ioError
  deriving DecidableEq, Repr

/-- An executable image: its three stored segments and the bss length, an unsigned 64-bit value (R330). -/
structure Image where
  text   : List Byte
  rodata : List Byte
  data   : List Byte
  bss    : Word
  deriving DecidableEq, Repr

/-- The empty image (R331): all four lengths 0 and no content. -/
def Image.empty : Image := ⟨[], [], [], 0⟩

/-- The lengths fit their 8-byte header words (R330). -/
def Image.wf (i : Image) : Bool :=
  decide (i.text.length < 2 ^ 64) && decide (i.rodata.length < 2 ^ 64) && decide (i.data.length < 2 ^ 64)

/-- The k-th 8-byte word of the header, little-endian (R330). -/
def headerWord (file : List Byte) (k : Nat) : Nat := leNat ((file.drop (8 * k)).take 8)

/-- The check of an image, in the order of R330: magic, version, length. The length sum is unbounded. -/
def checkImage (P : EngineParams) (file : List Byte) : LoadResult :=
  if file.length < 8 then .formatCorrupt
  else if headerWord file 0 ≠ P.imageMagic.toNat then .wrongMagic
  else if file.length < 16 then .formatCorrupt
  else if headerWord file 1 ≠ P.imageVersion.toNat then .wrongVersion
  else if file.length < 48 ∨ file.length ≠ 48 + headerWord file 2 + headerWord file 3 + headerWord file 4 then
    .formatCorrupt
  else .ok

/-- The segments of an image that passed its check (R330): text, then rodata, then data. -/
def parseImage (file : List Byte) : Image :=
  let t := headerWord file 2
  let r := headerWord file 3
  let d := headerWord file 4
  let content := file.drop 48
  ⟨content.take t, (content.drop t).take r, (content.drop (t + r)).take d, BitVec.ofNat 64 (headerWord file 5)⟩

/-- Loading (R330, R331): all or nothing; a failure leaves the target empty. `none` is a file the host failed to read. -/
def loadImage (P : EngineParams) (file : Option (List Byte)) : LoadResult × Image :=
  match file with
  | none => (.ioError, Image.empty)
  | some f => if checkImage P f = .ok then (.ok, parseImage f) else (checkImage P f, Image.empty)

/-- Saving (R332): the header words and the content; the empty image is not saved. -/
def saveImage (P : EngineParams) (i : Image) : Option (List Byte) :=
  if i = Image.empty then none
  else some (leBytes 8 P.imageMagic.toNat ++ leBytes 8 P.imageVersion.toNat ++ leBytes 8 i.text.length
    ++ leBytes 8 i.rodata.length ++ leBytes 8 i.data.length ++ leBytes 8 i.bss.toNat ++ i.text ++ i.rodata ++ i.data)

end Sys2Proof.Machine
end

