-- ==== Sys2Proof/Machine/Bootstrap.lean ====
section
/-! DEFINITION. `Initialize`, the reset sequence (70_reset_and_hazards.md R340 to R346). -/

namespace Sys2Proof.Machine

/-- A valid argument list: no string holds a zero byte (R343). -/
def argsValid (args : List (List Byte)) : Bool := args.all fun a => !a.contains 0

/-- `ArgBytes(args)` (R343). -/
def argBytes (args : List (List Byte)) : Nat :=
  if args.isEmpty then 0 else (args.map fun a => a.length + 1).sum + 8 * args.length + 16

/-- The strings of `PlaceArgs`, the last argument highest (R343), given last argument first: the addresses come out in
argument order. -/
def placeStrings : List (List Byte) → List Word → State → Res (List Word)
  | [], ptrs, s => .done ptrs s
  | a :: rest, ptrs, s =>
    let s := s.putReg rsp (s.reg rsp - BitVec.ofNat 64 (a.length + 1))
    (writeCString (s.reg rsp).toNat a s).bind fun _ s => placeStrings rest (s.reg rsp :: ptrs) s

/-- The pointer array (R343). -/
def placePointers : List Word → Nat → State → Res Unit
  | [], _, s => .done () s
  | p :: rest, pos, s => (memWrite pos 8 p s).bind fun _ s => placePointers rest (pos + 8) s

/-- `PlaceArgs` (R343), for a list that is not empty: the strings, the pointer array, RDI and RSI, and the two pushes. -/
def placeArgs (args : List (List Byte)) (s : State) : Res Unit :=
  (placeStrings args.reverse [] s).bind fun ptrs s =>
  let s := s.putReg rsp (s.reg rsp - BitVec.ofNat 64 (8 * args.length))
  (placePointers ptrs (s.reg rsp).toNat s).bind fun _ s =>
  let argv := s.reg rsp
  let s := (s.putReg rdi (BitVec.ofNat 64 args.length)).putReg rsi argv
  (push 8 argv s).bind fun _ s => push 8 (BitVec.ofNat 64 args.length) s

/-- The reference ARG_LAYOUT (R343, 92_eei_decisions.md D29). -/
def referenceLayout : ArgLayout := ⟨argBytes, placeArgs⟩

/-- `L` (R340): an unbounded sum. -/
def addressSpace (i : Image) (reserve : Word) : Nat :=
  i.text.length + i.rodata.length + i.data.length + i.bss.toNat + reserve.toNat

/-- The checks of `Initialize`, made before any state changes (R341). -/
def initChecks (P : EngineParams) (file : List Byte) (args : List (List Byte)) (reserve : Word) : Bool :=
  decide (checkImage P file = .ok) && decide (addressSpace (parseImage file) reserve ≤ P.maxMemSize.toNat)
    && argsValid args && decide (P.argLayout.bytes args ≤ reserve.toNat)

/-- The commit of `Initialize` without the arguments: steps 1 to 7 of R341. ReturnValue, the FD table and the
configuration are not touched. -/
def commitImage (fill : Fill) (i : Image) (reserve : Word) (s : State) : State :=
  let content := i.text ++ i.rodata ++ i.data
  let t := i.text.length
  let r := i.rodata.length
  let sb := t + r + i.data.length + i.bss.toNat
  let len := addressSpace i reserve
  { s with
    mem := memSetBytes (memSetBytes [] 0 content) sb (fill.heap.take reserve.toNat)
    len := BitVec.ofNat 64 len
    eb := BitVec.ofNat 64 t
    rb := BitVec.ofNat 64 (t + r)
    sb := BitVec.ofNat 64 sb
    x := fill.regs.set rsp (BitVec.ofNat 64 len)
    rip := 0
    rflags := 0x2
    fpr := fill.fpr
    inuse := Vector.replicate 8 false
    top := 0
    running := true
    suspendedRead := false
    error := .none }

/-- `Initialize(image, args, stack_reserve)` (R341, R342), with the draws as an input (R346): `some` the new state, or
`none` where it returns false and the state stays as it was. -/
def bootstrap (P : EngineParams) (fill : Fill) (file : List Byte) (args : List (List Byte)) (reserve : Word) (s : State) :
    Option State :=
  if initChecks P file args reserve then
    let s := commitImage fill (parseImage file) reserve s
    if args.isEmpty then some s
    else
      match P.argLayout.place args s with
      | .done _ s => some s
      | .raised _ _ => none
  else none

end Sys2Proof.Machine
end

