-- ==== Sys2Proof/Machine/HostInterface.lean ====
section
/-! DEFINITION. The host interface (60_exceptions.md R310 to R315): the operations of the driver, which act between ticks. -/

namespace Sys2Proof.Machine

/-- The FD table at construction (00_scope.md R11): NFD slots, the first ones INITIAL_FDS, the rest free. -/
def initialTable (P : EngineParams) : List FdSlot := (P.initialFds ++ List.replicate P.nfd FdSlot.free).take P.nfd

/-- construct(INITIAL_FDS, FS_ENABLED) (10_state.md R41; 60_exceptions.md R310): not running, no error, the FD table as
the host gives it. Every other component is unspecified and unobservable; it is taken from the reset state. -/
def construct (P : EngineParams) : State :=
  { State.reset with
    running := false
    suspendedRead := false
    error := .none
    fd := initialTable P
    cfg := ⟨P.fsEnabled, P.syscallMap⟩ }

/-- `Initialize` as the host sees it (70_reset_and_hazards.md R341, R342): the Boolean, and the state, unchanged where it
is false. -/
def hostInitialize (P : EngineParams) (fill : Fill) (file : List Byte) (args : List (List Byte)) (reserve : Word)
    (s : State) : Bool × State :=
  match bootstrap P fill file args reserve s with
  | some t => (true, t)
  | none => (false, s)

/-- An instruction on an engine with these handlers of the host's own: only SYSCALL runs them. -/
def execWith (H : HandlerTable) (i : Instr) (s : State) : Host.Outcome State Fault Refusal :=
  if i = .syscall then execSyscallWith H s else exec i s

/-- `Tick` on an engine with these handlers of the host's own (00_scope.md R11); `step` is the case of the free table
Config.ownHandlers. -/
def stepWith (H : HandlerTable) (s : State) : Host.Outcome State Fault Refusal := tickWith (execWith H) s

/-- `Tick` on the engine constructed with these parameters. -/
def tick (P : EngineParams) (s : State) : Host.Outcome State Fault Refusal := stepWith P.ownHandlers s

/-- The Boolean `Tick` returns for the step from `s` to `t` (40_engine.md R141, R145): false at the gate, else Running. -/
def tickReturns (s t : State) : Bool := s.ready && t.running

/-- `ResumeSuspendedRead()` (60_exceptions.md R312). -/
def resumeSuspendedRead (s : State) : State :=
  if s.running && s.suspendedRead then { s with suspendedRead := false } else s

/-- The host's `Terminate(err)` (R313): the procedure of R284 with the host's code. -/
def hostTerminate (e : ErrorCode) (s : State) : State := terminate e s

/-- dispose (R314): every FD is closed; the status fields are not changed. -/
def dispose (s : State) : State := closeAllFds s

/-- What the host can read (10_state.md R34; 60_exceptions.md R310). -/
structure HostView where
  running       : Bool
  suspendedRead : Bool
  error         : ErrorCode
  returnValue   : Word
  deriving DecidableEq, Repr

/-- The four observable fields of a state (R310). -/
def hostView (s : State) : HostView := ⟨s.running, s.suspendedRead, s.error, s.returnValue⟩

/-- The three states of the engine (40_engine.md R140). -/
inductive EngineState
  | readyToStep | suspended | stopped
  deriving DecidableEq, Repr

/-- The engine state, read off the status fields (R140). -/
def engineState (s : State) : EngineState :=
  if s.running then (if s.suspendedRead then .suspended else .readyToStep) else .stopped

/-- The outcomes of a `Tick` (R151): HLT and the exit syscall are told from a fault by the recorded error. -/
inductive TickOutcome
  | noOp
  | completed
  | halted
  | exited
  | faulted (e : ErrorCode)
  deriving DecidableEq, Repr

/-- The outcome of the tick from `s` to `t` (R151). -/
def tickOutcome (s t : State) : TickOutcome :=
  if !s.ready then .noOp
  else if t.running then .completed
  else if t.error = .none then .exited
  else if t.error = .abort then .halted
  else .faulted t.error

end Sys2Proof.Machine
end

