-- ==== Sys2Proof/Safety.lean ====
section
/-! DEFINITION. The terms the claims are written in: the invariant of a run, when an operand may be accessed and what it
holds, what a part of the machine that stays the same means (frames), and what a termination leaves. -/

namespace Sys2Proof.Machine

/-! ### The invariant -/

/-- What every state of a run meets: memory in canonical form and inside the buffer (20_memory.md R60), the barriers in
order (10_state.md R32), SuspendedRead only while Running (R34), the flag bits outside the public mask as reset leaves
them (R28), and no error while running (93_implementation_defined.md). -/
structure State.Inv (s : State) : Prop where
  memCanonical : Memory.wf s.mem = true
  memInBuffer : ∀ c ∈ s.mem, c.1 < s.len.toNat
  ebLeRb : s.eb.toNat ≤ s.rb.toNat
  rbLeSb : s.rb.toNat ≤ s.sb.toNat
  sbLeLen : s.sb.toNat ≤ s.len.toNat
  suspendedRuns : s.suspendedRead = true → s.running = true
  privateFlags : s.rflags &&& ~~~pubFlags = 0x2#64
  noErrorWhileRunning : s.running = true → s.error = .none

/-! ### Operands: may they be accessed, and what do they hold -/

/-- A read of the place stays inside the buffer (20_memory.md R63); a register is always readable. -/
def Place.readable (w : Width) (p : Place) (s : State) : Bool :=
  match p with
  | .reg _ => true
  | .mem a => decide (a.toNat + w.bytes ≤ s.len.toNat)

/-- A write of the place starts at or above RB and stays inside the buffer (20_memory.md R64); a register is always
writable. -/
def Place.writable (w : Width) (p : Place) (s : State) : Bool :=
  match p with
  | .reg _ => true
  | .mem a => decide (s.rb.toNat ≤ a.toNat) && decide (a.toNat + w.bytes ≤ s.len.toNat)

/-- What the place holds, at a width (30_encoding.md R113). -/
def Place.holds (w : Width) (p : Place) (s : State) : BitVec w.bits :=
  match p with
  | .reg i => s.regW i w
  | .mem a => s.value a.toNat w.bytes

/-- A value operand may be read: only a memory operand can be out of bounds. -/
def operandReadable (w : Width) (o : Operand) (s : State) : Bool :=
  match o with
  | .reg _ => true
  | .imm _ => true
  | .mem a => decide ((effAddr a s).toNat + w.bytes ≤ s.len.toNat)

/-- What a value operand holds, at a width (30_encoding.md R105, R113). -/
def operandHolds (w : Width) (o : Operand) (s : State) : BitVec w.bits :=
  match o with
  | .reg r => s.regW r w
  | .imm v => (immValue v).setWidth w.bits
  | .mem a => s.value (effAddr a s).toNat w.bytes

/-- The source of an FLD may be read: `ST(i)` is in use, or the 8 bytes lie in the buffer (45_fpu.md R262, R265). -/
def fpuReadable (f : FpuForm) (s : State) : Bool :=
  match f with
  | .st i => s.inuseAt (s.top + i)
  | .mem a => decide ((effAddr a s).toNat + 8 ≤ s.len.toNat)

/-- What the source of an FLD holds (45_fpu.md R265). -/
def fpuHolds (f : FpuForm) (s : State) : Word :=
  match f with
  | .st i => s.fprAt (s.top + i)
  | .mem a => s.value (effAddr a s).toNat 8

/-! ### Frames -/

/-- Every general register is as before. -/
def keepsRegs (s t : State) : Prop := ∀ j, t.reg j = s.reg j

/-- Every general register but one is as before. -/
def keepsRegsBut (i : Reg) (s t : State) : Prop := ∀ j, j ≠ i → t.reg j = s.reg j

/-- Every byte of memory reads as before. -/
def keepsMem (s t : State) : Prop := ∀ a, t.byte a = s.byte a

/-- Every byte of memory outside `n` bytes at `p` reads as before. -/
def keepsMemBut (p n : Nat) (s t : State) : Prop := ∀ a, a < p ∨ p + n ≤ a → t.byte a = s.byte a

/-- Every bit of RFLAGS but the listed ones is as before. -/
def keepsFlagsBut (bits : List Nat) (s t : State) : Prop :=
  ∀ b, b ∉ bits → t.rflags.getLsbD b = s.rflags.getLsbD b

/-- The bits of CF, PF, AF, ZF, SF and OF (10_state.md R26). -/
def arithmeticBits : List Nat := [0, 2, 4, 6, 7, 11]

/-- The arithmetic flags without CF. -/
def incDecBits : List Nat := [2, 4, 6, 7, 11]

/-- The FPU stack is as before. -/
def keepsFpu (s t : State) : Prop := t.fpr = s.fpr ∧ t.inuse = s.inuse ∧ t.top = s.top

/-- The buffer's length, the barriers and the configuration (FS_ENABLED, SYSCALL_MAP and NFD) are as before. -/
def keepsBarriers (s t : State) : Prop :=
  t.len = s.len ∧ t.eb = s.eb ∧ t.rb = s.rb ∧ t.sb = s.sb ∧ t.cfg = s.cfg ∧ t.nfd = s.nfd

/-- The engine runs as before, with the same recorded cause and ReturnValue: the frame of a syscall that completes. -/
def keepsRun (s t : State) : Prop := t.running = s.running ∧ t.error = s.error ∧ t.returnValue = s.returnValue

/-- The status fields and the FD table are as before, and the host was not called. -/
def keepsStatus (s t : State) : Prop :=
  t.running = s.running ∧ t.suspendedRead = s.suspendedRead ∧ t.error = s.error ∧ t.returnValue = s.returnValue ∧
  t.fd = s.fd ∧ t.hostCalls = s.hostCalls ∧ t.hostReplies = s.hostReplies

/-- Everything but the general registers, RIP, RFLAGS and memory is as before: the frame of the integer instructions. -/
def keepsEngine (s t : State) : Prop := keepsFpu s t ∧ keepsBarriers s t ∧ keepsStatus s t

/-- The write of one register and nothing else of registers and memory. -/
def regGets (i : Reg) (v : Word) (s t : State) : Prop := t.reg i = v ∧ keepsRegsBut i s t ∧ keepsMem s t

/-- The write of `n` bytes of memory at `p` and nothing else of registers and memory. -/
def memGets (p n : Nat) (v : BitVec (8 * n)) (s t : State) : Prop :=
  keepsRegs s t ∧ t.value p n = v ∧ keepsMemBut p n s t

/-- The write of a place: a register takes the sub-view rule (10_state.md R23), memory the bytes of the value. -/
def placeGets (w : Width) (p : Place) (v : BitVec w.bits) (s t : State) : Prop :=
  match p with
  | .reg i => regGets i (subView (s.reg i) w v) s t
  | .mem a => memGets a.toNat w.bytes v s t

/-! ### Flags -/

/-- An even number of one bits (43_alu.md R191), spelled out bit by bit. -/
def evenParity (b : Byte) : Bool :=
  !(b.getLsbD 0 ^^ b.getLsbD 1 ^^ b.getLsbD 2 ^^ b.getLsbD 3 ^^ b.getLsbD 4 ^^ b.getLsbD 5 ^^ b.getLsbD 6 ^^ b.getLsbD 7)

/-- ZF, SF and PF of a result (43_alu.md R191), at their bits of RFLAGS. -/
def showsResult {n : Nat} (r : BitVec n) (t : State) : Prop :=
  t.rflags.getLsbD 6 = decide (r.toNat = 0) ∧
  t.rflags.getLsbD 7 = r.getLsbD (n - 1) ∧
  t.rflags.getLsbD 2 = evenParity (r.setWidth 8)

/-! ### Termination -/

/-- `t` is `s` terminated with a code (60_exceptions.md R284): not running, not suspended, the code recorded, ReturnValue
kept, every FD slot free, and every byte of memory, the flags, the FPU stack and the barriers as before. -/
def stopsWith (e : ErrorCode) (s t : State) : Prop :=
  t.running = false ∧ t.suspendedRead = false ∧ t.error = e ∧ t.returnValue = s.returnValue ∧
  (∀ k, (t.fdAt k).inUse = false) ∧ keepsMem s t ∧ t.rflags = s.rflags ∧ keepsFpu s t ∧ keepsBarriers s t

/-! ### Runs -/

/-- Instructions run one after the other, each completing with the engine still running. -/
def runAll : List Instr → State → Option State
  | [], s => some s
  | i :: is, s =>
    match exec i s with
    | .next t => if t.running then runAll is t else none
    | .fault _ => none
    | .refused _ => none

/-- The Jcc row of a condition (spec/opcode_table.json, rows JO to JG). -/
def jcc : Cond → Width → Operand → Instr
  | .o => .jo
  | .no => .jno
  | .b => .jb
  | .ae => .jae
  | .e => .je
  | .ne => .jne
  | .be => .jbe
  | .a => .ja
  | .s => .js
  | .ns => .jns
  | .p => .jp
  | .np => .jnp
  | .l => .jl
  | .ge => .jge
  | .le => .jle
  | .g => .jg

end Sys2Proof.Machine
end

