-- ==== Sys2Proof/Certificates/Slice0/Obligations.lean ====
section
/-! DEFINITION. The statements for the provers. Each docstring names the rule of spec/ it formalises. States given to `exec`
have RIP past the instruction, as `step` hands them over (40_engine.md R148). No statement says what AF is after a logical
operation: it is a free value (log 4), and each holds whatever it is. -/

open Sys2Proof Sys2Proof.Machine

/-! ### Encoding -/

/-- 30_encoding.md R100 to R132: no bit of an encoding is dropped; whatever bytes follow. -/
def Obligations.DecodeAfterEncodeIsIdentity : Prop :=
  ∀ (i : Instr) (tail : List Byte), i.wf = true → decode (encode i ++ tail) = .ok i tail

/-- 30_encoding.md R132: what decodes is exactly the well-formed encodings; each byte sequence has one reading. -/
def Obligations.DecodedBytesAreTheEncoding : Prop :=
  ∀ (bs : List Byte) (i : Instr) (rest : List Byte), decode bs = .ok i rest → i.wf = true ∧ bs = encode i ++ rest

/-- 30_encoding.md R129: instructions have 1 to 13 bytes; format N has 1; a CC or LP instruction with a memory operand of
address size 3, both registers and a displacement has 13. -/
def Obligations.InstructionsHaveOneToThirteenBytes : Prop :=
  (∀ (bs : List Byte) (i : Instr) (rest : List Byte), decode bs = .ok i rest →
    1 ≤ bs.length - rest.length ∧ bs.length - rest.length ≤ 13) ∧
  (∀ i ∈ [Instr.nop, .hlt, .syscall, .pushf, .popf, .ret, .fincstp, .fdecstp, .finit], (encode i).length = 1) ∧
  (∀ (w : Width) (k : BitVec 2) (b x : Reg) (d : Word),
    (∀ c : Cond, (encode (jcc c w (.mem ⟨.a64, k, some b, some x, some d⟩))).length = 13) ∧
    (encode (.loop w (.mem ⟨.a64, k, some b, some x, some d⟩))).length = 13 ∧
    (encode (.loope w (.mem ⟨.a64, k, some b, some x, some d⟩))).length = 13 ∧
    (encode (.loopne w (.mem ⟨.a64, k, some b, some x, some d⟩))).length = 13)

/-- 20_memory.md R67, 30_encoding.md R101, R129: decoding at most 13 bytes from RIP gives what decoding all of them gives,
the bytes fetched and the failed check included. -/
def Obligations.ThirteenBytesDecideTheDecoding : Prop :=
  ∀ bs : List Byte,
    (∀ i rest, decode bs = .ok i rest →
      decode (bs.take 13) = .ok i (rest.take (13 - (bs.length - rest.length)))) ∧
    (∀ why rest, decode bs = .bad why rest →
      decode (bs.take 13) = .bad why (rest.take (13 - (bs.length - rest.length))))

/-- 95_test_vectors.md V-MOV, V-CTL, V-FPU and the examples of the instruction rules: one word of each family. -/
def Obligations.SpecExampleWordsDecode : Prop :=
  decode [0x00] = .ok .nop [] ∧
  decode [0x05, 0x0D, 0x00, 0x05] = .ok (.mov .w8 (.ri 0 ⟨false, .w1, 5⟩)) [] ∧
  decode [0x06, 0x0C, 0xAF, 0x31, 0x10, 0, 0, 0, 0, 0, 0, 0] = .ok (.lea .w8 0 ⟨.a64, 2, some 3, some 1, some 0x10⟩) [] ∧
  decode [0x08, 0x3C] = .ok (.pop .w8 (.reg 3)) [] ∧
  decode [0x10, 0x00, 0x03] = .ok (.add .w1 (.rr 0 3)) [] ∧
  decode [0x1B, 0x08] = .ok (.not .w4 (.reg 0)) [] ∧
  decode [0x0A, 0x05, 0x09, 0x00, 0x04] = .ok (.jne .w4 (.imm ⟨false, .w1, 4⟩)) [] ∧
  decode [0x0B, 0x02, 0x0D, 0x00, 0x20] = .ok (.loopne .w8 (.imm ⟨false, .w1, 0x20⟩)) [] ∧
  decode [0x20, 0x08, 0x88, 0x15, 0, 0, 0] = .ok (.fld (.mem ⟨.a32, 0, none, none, some 0x15⟩)) [] ∧
  decode [0x23, 0x01] = .ok (.ffree 1) [] ∧
  decode [0x08, 0x30] = .bad .popByteSize []

/-- 30_encoding.md R104, `DecodeImm()`: the reserved bits, the body and its extension. -/
def Obligations.CompactImmediateDecodesAndExtends : Prop :=
  decodeImm [] = .bad .truncated [] ∧
  decodeError .truncated = .outOfBounds ∧ decodeError .immReserved = .undefinedBehavior ∧
  ∀ (p : Byte) (bs : List Byte),
    let n := 2 ^ (p.toNat % 4)
    let b := leNat (bs.take n)
    (p.toNat / 4 % 32 ≠ 0 → decodeImm (p :: bs) = .bad .immReserved bs) ∧
    (p.toNat / 4 % 32 = 0 → bs.length < n → decodeImm (p :: bs) = .bad .truncated bs) ∧
    (p.toNat / 4 % 32 = 0 → n ≤ bs.length → ∃ v, decodeImm (p :: bs) = .ok v (bs.drop n) ∧
      (immValue v).toNat = if 128 ≤ p.toNat ∧ n < 8 ∧ b / 2 ^ (8 * n - 1) % 2 = 1 then b ||| (2 ^ 64 - 2 ^ (8 * n)) else b)

/-- 30_encoding.md R110, R111: the address is summed modulo the address width, each register read at that width, and
zero-extended; with base and index the same register it is `xw(i, n) * (2^k + 1)`, truncated. -/
def Obligations.EffectiveAddressWrapsAtAddressWidth : Prop :=
  ∀ (a : Addr) (s : State),
    (effAddr a s =
      ((match a.disp with | none => 0 | some d => d.setWidth (8 * a.size.bytes))
        + (match a.base with | none => 0 | some b => (s.reg b).setWidth (8 * a.size.bytes) <<< a.scale.toNat)
        + (match a.index with | none => 0 | some x => (s.reg x).setWidth (8 * a.size.bytes)) :
        BitVec (8 * a.size.bytes)).setWidth 64) ∧
    (∀ i, a.disp = none → a.base = some i → a.index = some i →
      (effAddr a s).toNat =
        (s.reg i).toNat % 2 ^ (8 * a.size.bytes) * (2 ^ a.scale.toNat + 1) % 2 ^ (8 * a.size.bytes))

/-! ### The step -/

/-- 40_engine.md R146: where the bytes at RIP decode to `i`, the step is `exec i` with RIP past the fetched bytes. The same for
a table of the host's own handlers given as an argument (00_scope.md R11): only SYSCALL depends on it, and `step` is the case
of the free table (log 19). -/
def Obligations.StepRunsTheDecodedInstruction : Prop :=
  (∀ (s : State) (i : Instr) (rest : List Byte),
    s.running = true → s.suspendedRead = false → s.rip.toNat < s.eb.toNat →
    decode (fetchWindow maxInstrBytes s) = .ok i rest →
    let t := { s with rip := s.rip + BitVec.ofNat 64 ((fetchWindow maxInstrBytes s).length - rest.length) }
    step s = exec i t ∧
    ∀ H : HandlerTable,
      (i ≠ .syscall → stepWith H s = exec i t) ∧ (i = .syscall → stepWith H s = execSyscallWith H t)) ∧
  ∀ s : State, step s = stepWith Config.ownHandlers s

/-- 40_engine.md R146, 30_encoding.md R101: where memory at RIP holds the encoding of a well-formed `i` inside the buffer,
the step is `exec i` with RIP just past it. -/
def Obligations.StepRunsTheEncodedInstruction : Prop :=
  ∀ (s : State) (i : Instr),
    s.running = true → s.suspendedRead = false → s.rip.toNat < s.eb.toNat → i.wf = true →
    s.rip.toNat + (encode i).length ≤ s.len.toNat →
    (∀ k (h : k < (encode i).length), s.byte (s.rip.toNat + k) = (encode i)[k]) →
    step s = exec i { s with rip := s.rip + BitVec.ofNat 64 (encode i).length }

/-- 40_engine.md R141 and R142: the gate changes no state and `Tick` returns false; RIP at or above EB terminates the process
with AccessViolation, and `Tick` returns false. -/
def Obligations.GateAndExecuteCheckComeFirst : Prop :=
  (∀ s : State, s.running = false ∨ s.suspendedRead = true → step s = .next s ∧ tickReturns s s = false) ∧
  (∀ s : State, s.running = true → s.suspendedRead = false → s.eb.toNat ≤ s.rip.toNat →
    ∃ t, step s = .next t ∧ stopsWith .accessViolation s t ∧ keepsRegs s t ∧ t.rip = s.rip ∧ tickReturns s t = false)

/-- 30_encoding.md R131: every unassigned opcode byte raises UndefinedBehavior after the opcode fetch. R101, R132; 60_exceptions.md
R288: every failed decode terminates the process, with OutOfBounds for a missing byte and UndefinedBehavior for any other
check, and RIP past the bytes fetched (that clause about RIP is the model's reading, log 9). -/
def Obligations.UndecodableBytesTerminate : Prop :=
  (∀ (s : State) (op : Byte),
    op.toNat ∈ [0x0E, 0x0F, 0x17, 0x1C, 0x1D, 0x1E, 0x1F] ∨ 0x27 ≤ op.toNat →
    s.running = true → s.suspendedRead = false → s.rip.toNat < s.eb.toNat → s.rip.toNat < s.len.toNat →
    s.byte s.rip.toNat = op →
    ∃ t, step s = .next t ∧ stopsWith .undefinedBehavior s t ∧ keepsRegs s t ∧ t.rip = s.rip + 1 ∧
      tickReturns s t = false) ∧
  (∀ (s : State) (why : DecodeFault) (rest : List Byte),
    s.running = true → s.suspendedRead = false → s.rip.toNat < s.eb.toNat →
    decode (fetchWindow maxInstrBytes s) = .bad why rest →
    ∃ t, step s = .next t ∧ keepsRegs s t ∧
      (why = .truncated → stopsWith .outOfBounds s t) ∧ (why ≠ .truncated → stopsWith .undefinedBehavior s t) ∧
      t.rip = s.rip + BitVec.ofNat 64 ((fetchWindow maxInstrBytes s).length - rest.length))

/-- 40_engine.md R145, R151: from every state, the step answers a next state, whatever the host's own handlers are: nothing of
this machine is left out by a fault or a refusal of the model. -/
def Obligations.EveryStepAnswersNext : Prop :=
  (∀ s : State, ∃ t, step s = .next t) ∧ ∀ (H : HandlerTable) (s : State), ∃ t, stepWith H s = .next t

/-- 70_reset_and_hazards.md R341; 10_state.md R40: the reset state, and every state a successful `Initialize` gives, whatever the
image and the state before, meet the invariant. The barriers and the length of 0 of the reset state are the model's choice
(log 1); arguments, where there are any, are placed by the reference layout. -/
def Obligations.ResetMeetsInvariant : Prop :=
  State.Inv State.reset ∧
  ∀ (P : EngineParams) (fill : Fill) (file : List Byte) (args : List (List Byte)) (reserve : Word) (s t : State),
    (args ≠ [] → P.argLayout = referenceLayout) → bootstrap P fill file args reserve s = some t → t.Inv

/-- The invariant of every run (10_state.md R28, R32, R34; 20_memory.md R60): each step keeps it, from every state that
meets it, and so it does whatever the host's own handlers are. -/
def Obligations.StepKeepsInvariant : Prop :=
  (∀ s t : State, s.Inv → step s = .next t → t.Inv) ∧
  ∀ (H : HandlerTable) (s t : State), s.Inv → stepWith H s = .next t → t.Inv

/-- 10_state.md R21, R32, R33, R36; 70_reset_and_hazards.md R352; 20_memory.md R64, R79: from every state, no step changes the
buffer's length, a barrier, FS_ENABLED, SYSCALL_MAP or NFD, nor a byte below the readonly barrier, whatever the host's own
handlers are; so no program changes an opcode byte. -/
def Obligations.StepKeepsBarriersAndReadonlyMemory : Prop :=
  (∀ s t : State, step s = .next t → keepsBarriers s t ∧ ∀ a, a < s.rb.toNat → t.byte a = s.byte a) ∧
  ∀ (H : HandlerTable) (s t : State), stepWith H s = .next t →
    keepsBarriers s t ∧ ∀ a, a < s.rb.toNat → t.byte a = s.byte a

/-- 10_state.md R27: of all instructions only ADD, SUB, CMP, NEG, INC, DEC, AND, OR, XOR, TEST and POPF write RFLAGS. -/
def Obligations.OtherInstructionsKeepRflags : Prop :=
  ∀ (i : Instr) (s t : State), exec i s = .next t →
    (∀ w f, i ≠ .add w f ∧ i ≠ .sub w f ∧ i ≠ .cmp w f ∧ i ≠ .and w f ∧ i ≠ .or w f ∧ i ≠ .xor w f ∧ i ≠ .test w f) →
    (∀ w d, i ≠ .inc w d ∧ i ≠ .dec w d ∧ i ≠ .neg w d) → i ≠ .popf → t.rflags = s.rflags

/-- 40_engine.md R140; 60_exceptions.md R284, R285, R287: a tick that stops the engine leaves it not suspended and every FD
slot free. -/
def Obligations.StoppingClosesEveryDescriptor : Prop :=
  ∀ s t : State, s.running = true → step s = .next t → t.running = false →
    t.suspendedRead = false ∧ ∀ k, (t.fdAt k).inUse = false

/-! ### Termination -/

/-- 60_exceptions.md R284, R285, R286, R287: `Terminate(err)` and `Exit(v)` on a running engine; each in-use slot is closed
exactly once, in index order (the history of calls is newest first), and nothing else changes. On a stopped engine both
are no-ops, so the first termination's cause stands. -/
def Obligations.FirstTerminationStands : Prop :=
  (∀ (e : ErrorCode) (s : State),
    (s.running = false → terminate e s = s) ∧
    (s.running = true →
      stopsWith e s (terminate e s) ∧ keepsRegs s (terminate e s) ∧ (terminate e s).rip = s.rip ∧
      (terminate e s).hostCalls =
        ((List.range s.nfd).reverse.filter (fun k => (s.fdAt k).inUse)).map (fun k => HostCall.close (s.fdAt k).stream)
          ++ s.hostCalls ∧
      ∀ e' v, terminate e' (terminate e s) = terminate e s ∧ exitWith v (terminate e s) = terminate e s)) ∧
  (∀ (v : Word) (s : State),
    (s.running = false → exitWith v s = s) ∧
    (s.running = true →
      let t := exitWith v s
      t.running = false ∧ t.suspendedRead = false ∧ t.error = .none ∧ t.returnValue = v ∧
      (∀ k, (t.fdAt k).inUse = false) ∧ keepsRegs s t ∧ keepsMem s t ∧ t.rip = s.rip ∧ t.rflags = s.rflags ∧
      keepsFpu s t ∧ keepsBarriers s t ∧
      t.hostCalls =
        ((List.range s.nfd).reverse.filter (fun k => (s.fdAt k).inUse)).map (fun k => HostCall.close (s.fdAt k).stream)
          ++ s.hostCalls ∧
      ∀ e, terminate e t = t))

/-- 60_exceptions.md R312, R299: `ResumeSuspendedRead()` clears SuspendedRead and changes nothing else; after a tick that
suspended, RIP is as before that tick, and the tick after the resume runs the SYSCALL there again (with EB at most RB, 10_state.md
R32: a handler of the host's own may have written memory before it suspended, but no opcode byte). -/
def Obligations.ResumeClearsTheSuspension : Prop :=
  (∀ s : State,
    (s.running = true → s.suspendedRead = true → resumeSuspendedRead s = { s with suspendedRead := false }) ∧
    (s.running = false ∨ s.suspendedRead = false → resumeSuspendedRead s = s)) ∧
  (∀ s t : State, s.running = true → s.suspendedRead = false → s.eb.toNat ≤ s.rb.toNat → step s = .next t →
    t.suspendedRead = true →
    t.rip = s.rip ∧ step (resumeSuspendedRead t) = exec .syscall { resumeSuspendedRead t with rip := t.rip + 1 })

/-! ### Memory -/

/-- 20_memory.md R63 and R62: a read past the buffer's end raises OutOfBounds; else it gives the little-endian sum. -/
def Obligations.MemReadChecksBounds : Prop :=
  ∀ (p n : Nat) (s : State), n ∈ [1, 2, 4, 8] →
    (s.len.toNat < p + n → memRead p n s = .raised .outOfBounds s) ∧
    (p + n ≤ s.len.toNat → ∃ v, memRead p n s = .done v s ∧
      v.toNat = ((List.range n).map fun k => (s.byte (p + k)).toNat * 2 ^ (8 * k)).sum)

/-- 20_memory.md R64: readonly first, then bounds, then the bytes; a failed write changes nothing. R81: what
was written reads back. -/
def Obligations.MemWriteChecksReadonlyThenBounds : Prop :=
  ∀ (p n : Nat) (v : BitVec (8 * n)) (s : State), n ∈ [1, 2, 4, 8] →
    (p < s.rb.toNat → memWrite p n v s = .raised .accessViolation s) ∧
    (s.rb.toNat ≤ p → s.len.toNat < p + n → memWrite p n v s = .raised .outOfBounds s) ∧
    (s.rb.toNat ≤ p → p + n ≤ s.len.toNat → ∃ t, memWrite p n v s = .done () t ∧ memRead p n t = .done v t ∧
      (∀ k, k < n → t.byte (p + k) = v.extractLsb' (8 * k) 8) ∧ keepsMemBut p n s t ∧ keepsRegs s t ∧
      t.rip = s.rip ∧ t.rflags = s.rflags ∧ keepsEngine s t)

/-- 20_memory.md R72 and R73: `Push(n, v)` moves RSP, checks it, then writes (with `RB <= SB`, 10_state.md R32, it raises no
AccessViolation); `Pop(n)` checks RSP, reads, then moves it. -/
def Obligations.StackPrimitivesCheckTheBarrier : Prop :=
  (∀ (n : Nat) (v : BitVec (8 * n)) (s : State), n ∈ [1, 2, 4, 8] → s.rb.toNat ≤ s.sb.toNat →
    let p := s.reg rsp - BitVec.ofNat 64 n
    (p.toNat < s.sb.toNat → push n v s = .raised .stackOverflow (s.putReg rsp p)) ∧
    (s.sb.toNat ≤ p.toNat → s.len.toNat < p.toNat + n → push n v s = .raised .outOfBounds (s.putReg rsp p)) ∧
    (s.sb.toNat ≤ p.toNat → p.toNat + n ≤ s.len.toNat → ∃ t, push n v s = .done () t ∧
      t.reg rsp = p ∧ keepsRegsBut rsp s t ∧ t.value p.toNat n = v ∧ keepsMemBut p.toNat n s t ∧
      t.rip = s.rip ∧ t.rflags = s.rflags ∧ keepsEngine s t)) ∧
  (∀ (n : Nat) (s : State), n ∈ [1, 2, 4, 8] →
    let p := s.reg rsp
    (p.toNat < s.sb.toNat → pop n s = .raised .stackOverflow s) ∧
    (s.sb.toNat ≤ p.toNat → s.len.toNat < p.toNat + n → pop n s = .raised .outOfBounds s) ∧
    (s.sb.toNat ≤ p.toNat → p.toNat + n ≤ s.len.toNat →
      pop n s = .done (s.value p.toNat n) (s.putReg rsp (p + BitVec.ofNat 64 n))))

/-- 20_memory.md R68 and R69: `ReadCString` gives the bytes up to the first zero byte below `L`, and raises OutOfBounds where
there is none; `WriteCString` checks readonly, then bounds, and writes the string and its terminator or nothing. -/
def Obligations.CStringPrimitives : Prop :=
  (∀ (p : Nat) (str : List Byte) (s : State), p + str.length < s.len.toNat →
    (∀ k (h : k < str.length), s.byte (p + k) = str[k] ∧ str[k] ≠ 0) → s.byte (p + str.length) = 0 →
    readCString p s = .done str s) ∧
  (∀ (p : Nat) (s : State), (∀ a, p ≤ a → a < s.len.toNat → s.byte a ≠ 0) → readCString p s = .raised .outOfBounds s) ∧
  (∀ (p : Nat) (str : List Byte) (s : State),
    (p < s.rb.toNat → writeCString p str s = .raised .accessViolation s) ∧
    (s.rb.toNat ≤ p → s.len.toNat < p + str.length + 1 → writeCString p str s = .raised .outOfBounds s) ∧
    (s.rb.toNat ≤ p → p + str.length + 1 ≤ s.len.toNat → ∃ t, writeCString p str s = .done () t ∧
      (∀ k (h : k < str.length), t.byte (p + k) = str[k]) ∧ t.byte (p + str.length) = 0 ∧
      keepsMemBut p (str.length + 1) s t ∧ keepsRegs s t ∧ t.rip = s.rip ∧ t.rflags = s.rflags ∧ keepsEngine s t))

/-- 10_state.md R23: the sub-view rule, in numbers, and that no other register changes. -/
def Obligations.SubViewWritesKeepOrClearUpperBits : Prop :=
  ∀ (i : Reg) (s : State),
    (∀ v : BitVec 64, (s.setReg i .w8 v).reg i = v) ∧
    (∀ v : BitVec 32, ((s.setReg i .w4 v).reg i).toNat = v.toNat) ∧
    (∀ v : BitVec 16, ((s.setReg i .w2 v).reg i).toNat = (s.reg i).toNat / 2 ^ 16 * 2 ^ 16 + v.toNat) ∧
    (∀ v : BitVec 8, ((s.setReg i .w1 v).reg i).toNat = (s.reg i).toNat / 2 ^ 8 * 2 ^ 8 + v.toNat) ∧
    (∀ w v, keepsRegsBut i s (s.setReg i w v)) ∧
    (∀ w, (s.regW i w).toNat = (s.reg i).toNat % 2 ^ w.bits)

/-! ### Data movement -/

/-- 42_data_movement.md R170: MOV in each of its forms; no flag changes. -/
def Obligations.MovCopiesTheSource : Prop :=
  ∀ (w : Width) (f : BinForm) (s : State),
    operandReadable w f.src s = true → (placeOf f.dst s).writable w s = true →
    ∃ t, exec (.mov w f) s = .next t ∧ placeGets w (placeOf f.dst s) (operandHolds w f.src s) s t ∧
      t.rip = s.rip ∧ t.rflags = s.rflags ∧ keepsEngine s t

/-- 42_data_movement.md R171: LEA always completes, and accesses no memory. -/
def Obligations.LeaLoadsTheAddress : Prop :=
  ∀ (w : Width) (r : Reg) (a : Addr) (s : State),
    ∃ t, exec (.lea w r a) s = .next t ∧ regGets r (subView (s.reg r) w ((effAddr a s).setWidth w.bits)) s t ∧
      t.rip = s.rip ∧ t.rflags = s.rflags ∧ keepsEngine s t

/-- 42_data_movement.md R172 and R174: PUSH pushes the operand as it was before RSP moved; PUSHF pushes all of RFLAGS. -/
def Obligations.PushAndPushfStoreBelowTheStackTop : Prop :=
  (∀ (w : Width) (v : Operand) (s : State),
    let p := s.reg rsp - BitVec.ofNat 64 w.bytes
    operandReadable w v s = true → s.rb.toNat ≤ s.sb.toNat → s.sb.toNat ≤ p.toNat → p.toNat + w.bytes ≤ s.len.toNat →
    ∃ t, exec (.push w v) s = .next t ∧ t.reg rsp = p ∧ keepsRegsBut rsp s t ∧
      t.value p.toNat w.bytes = operandHolds w v s ∧ keepsMemBut p.toNat w.bytes s t ∧
      t.rip = s.rip ∧ t.rflags = s.rflags ∧ keepsEngine s t) ∧
  (∀ s : State,
    let p := s.reg rsp - 8
    s.rb.toNat ≤ s.sb.toNat → s.sb.toNat ≤ p.toNat → p.toNat + 8 ≤ s.len.toNat →
    ∃ t, exec .pushf s = .next t ∧ t.reg rsp = p ∧ keepsRegsBut rsp s t ∧ t.value p.toNat 8 = s.rflags ∧
      keepsMemBut p.toNat 8 s t ∧ t.rip = s.rip ∧ t.rflags = s.rflags ∧ keepsEngine s t)

/-- 42_data_movement.md R173: POP to a register follows the increment of RSP (so POP RSP takes the popped value by the
sub-view rule over the incremented RSP); POP to memory uses the address computed before RSP moves. -/
def Obligations.PopLoadsTheStackTop : Prop :=
  ∀ (w : Width) (s : State),
    let p := s.reg rsp
    let up := p + BitVec.ofNat 64 w.bytes
    s.sb.toNat ≤ p.toNat → p.toNat + w.bytes ≤ s.len.toNat →
    (∀ r : Reg, ∃ t, exec (.pop w (.reg r)) s = .next t ∧
      t.reg r = subView (if r = rsp then up else s.reg r) w (s.value p.toNat w.bytes) ∧
      (r ≠ rsp → t.reg rsp = up) ∧ (∀ j, j ≠ r → j ≠ rsp → t.reg j = s.reg j) ∧ keepsMem s t ∧
      t.rip = s.rip ∧ t.rflags = s.rflags ∧ keepsEngine s t) ∧
    (∀ a : Addr, (Place.mem (effAddr a s)).writable w s = true →
      ∃ t, exec (.pop w (.mem a)) s = .next t ∧ t.reg rsp = up ∧ keepsRegsBut rsp s t ∧
        t.value (effAddr a s).toNat w.bytes = s.value p.toNat w.bytes ∧
        keepsMemBut (effAddr a s).toNat w.bytes s t ∧ t.rip = s.rip ∧ t.rflags = s.rflags ∧ keepsEngine s t)

/-- 42_data_movement.md R175, 10_state.md R28: POPF takes CF, PF, AF, ZF, SF, DF and OF from the popped word and keeps every
other bit. -/
def Obligations.PopfRestoresThePublicFlags : Prop :=
  ∀ s : State,
    let p := s.reg rsp
    s.sb.toNat ≤ p.toNat → p.toNat + 8 ≤ s.len.toNat →
    ∃ t, exec .popf s = .next t ∧
      (∀ b ∈ [0, 2, 4, 6, 7, 10, 11], t.rflags.getLsbD b = (s.value p.toNat 8).getLsbD b) ∧
      keepsFlagsBut [0, 2, 4, 6, 7, 10, 11] s t ∧
      t.reg rsp = p + 8 ∧ keepsRegsBut rsp s t ∧ keepsMem s t ∧ t.rip = s.rip ∧ keepsEngine s t

/-! ### The ALU -/

/-- 43_alu.md R200, R201, R191, R192, R193: ADD and SUB, with every flag they write. -/
def Obligations.AddAndSubWriteResultAndFlags : Prop :=
  ∀ (w : Width) (f : BinForm) (s : State),
    let d := placeOf f.dst s
    let a := d.holds w s
    let b := operandHolds w f.src s
    d.readable w s = true → d.writable w s = true → operandReadable w f.src s = true →
    (∃ t, exec (.add w f) s = .next t ∧ placeGets w d (a + b) s t ∧ showsResult (a + b) t ∧
      t.rflags.getLsbD 0 = decide (2 ^ w.bits ≤ a.toNat + b.toNat) ∧
      t.rflags.getLsbD 11 = decide (a.msb = b.msb ∧ (a + b).msb ≠ a.msb) ∧
      t.rflags.getLsbD 4 = ((a ^^^ b ^^^ (a + b)) >>> 4).getLsbD 0 ∧
      keepsFlagsBut arithmeticBits s t ∧ t.rip = s.rip ∧ keepsEngine s t) ∧
    (∃ t, exec (.sub w f) s = .next t ∧ placeGets w d (a - b) s t ∧ showsResult (a - b) t ∧
      t.rflags.getLsbD 0 = decide (a.toNat < b.toNat) ∧
      t.rflags.getLsbD 11 = decide (a.msb ≠ b.msb ∧ (a - b).msb ≠ a.msb) ∧
      t.rflags.getLsbD 4 = ((a ^^^ b ^^^ (a - b)) >>> 4).getLsbD 0 ∧
      keepsFlagsBut arithmeticBits s t ∧ t.rip = s.rip ∧ keepsEngine s t)

/-- 43_alu.md R202, R206, R191, R193, R194: CMP sets the flags of SUB and TEST those of AND (AF is free); neither writes
anything else, so both complete below RB too. -/
def Obligations.CmpAndTestSetFlagsOnly : Prop :=
  ∀ (w : Width) (f : BinForm) (s : State),
    let d := placeOf f.dst s
    let a := d.holds w s
    let b := operandHolds w f.src s
    d.readable w s = true → operandReadable w f.src s = true →
    (∃ t, exec (.cmp w f) s = .next t ∧ keepsRegs s t ∧ keepsMem s t ∧ showsResult (a - b) t ∧
      t.rflags.getLsbD 0 = decide (a.toNat < b.toNat) ∧
      t.rflags.getLsbD 11 = decide (a.msb ≠ b.msb ∧ (a - b).msb ≠ a.msb) ∧
      t.rflags.getLsbD 4 = ((a ^^^ b ^^^ (a - b)) >>> 4).getLsbD 0 ∧
      keepsFlagsBut arithmeticBits s t ∧ t.rip = s.rip ∧ keepsEngine s t) ∧
    (∃ t, exec (.test w f) s = .next t ∧ keepsRegs s t ∧ keepsMem s t ∧ showsResult (a &&& b) t ∧
      t.rflags.getLsbD 0 = false ∧ t.rflags.getLsbD 11 = false ∧
      keepsFlagsBut arithmeticBits s t ∧ t.rip = s.rip ∧ keepsEngine s t)

/-- 43_alu.md R203, R204, R205, R194, R191: AND, OR and XOR write their result, clear CF and OF; AF is free. -/
def Obligations.LogicalOperationsWriteResultAndFlags : Prop :=
  ∀ (w : Width) (f : BinForm) (s : State),
    let d := placeOf f.dst s
    let a := d.holds w s
    let b := operandHolds w f.src s
    d.readable w s = true → d.writable w s = true → operandReadable w f.src s = true →
    ∀ ir ∈ [(Instr.and w f, a &&& b), (Instr.or w f, a ||| b), (Instr.xor w f, a ^^^ b)],
      ∃ t, exec ir.1 s = .next t ∧ placeGets w d ir.2 s t ∧ showsResult ir.2 t ∧
        t.rflags.getLsbD 0 = false ∧ t.rflags.getLsbD 11 = false ∧
        keepsFlagsBut arithmeticBits s t ∧ t.rip = s.rip ∧ keepsEngine s t

/-- 43_alu.md R207 to R210: INC and DEC have the flags of adding and subtracting 1, CF unchanged; NEG is `0 - a` with CF = 1
exactly when `a` is not 0; NOT inverts every bit and writes no flag. -/
def Obligations.UnaryAluWritesResultAndFlags : Prop :=
  ∀ (w : Width) (o : RegMem) (s : State),
    let d := placeOf o s
    let a := d.holds w s
    d.readable w s = true → d.writable w s = true →
    (∃ t, exec (.inc w o) s = .next t ∧ placeGets w d (a + 1) s t ∧ showsResult (a + 1) t ∧
      t.rflags.getLsbD 11 = decide (a.toNat + 1 = 2 ^ (w.bits - 1)) ∧
      t.rflags.getLsbD 4 = decide (a.toNat % 16 = 15) ∧
      keepsFlagsBut incDecBits s t ∧ t.rip = s.rip ∧ keepsEngine s t) ∧
    (∃ t, exec (.dec w o) s = .next t ∧ placeGets w d (a - 1) s t ∧ showsResult (a - 1) t ∧
      t.rflags.getLsbD 11 = decide (a.toNat = 2 ^ (w.bits - 1)) ∧
      t.rflags.getLsbD 4 = decide (a.toNat % 16 = 0) ∧
      keepsFlagsBut incDecBits s t ∧ t.rip = s.rip ∧ keepsEngine s t) ∧
    (∃ t, exec (.neg w o) s = .next t ∧ placeGets w d (-a) s t ∧ showsResult (-a) t ∧
      t.rflags.getLsbD 0 = decide (a.toNat ≠ 0) ∧
      t.rflags.getLsbD 11 = decide (a.toNat = 2 ^ (w.bits - 1)) ∧
      t.rflags.getLsbD 4 = decide (a.toNat % 16 ≠ 0) ∧
      keepsFlagsBut arithmeticBits s t ∧ t.rip = s.rip ∧ keepsEngine s t) ∧
    (∃ t, exec (.not w o) s = .next t ∧ placeGets w d (a ^^^ BitVec.ofNat w.bits (2 ^ w.bits - 1)) s t ∧
      t.rflags = s.rflags ∧ t.rip = s.rip ∧ keepsEngine s t)

/-! ### Control transfer -/

/-- 44_control.md R236, R237: JMP sets RIP to the zero-extended target, checked against nothing. -/
def Obligations.JmpSetsRip : Prop :=
  ∀ (w : Width) (o : Operand) (s : State), operandReadable w o s = true →
    ∃ t, exec (.jmp w o) s = .next t ∧ t.rip = (operandHolds w o s).setWidth 64 ∧
      keepsRegs s t ∧ keepsMem s t ∧ t.rflags = s.rflags ∧ keepsEngine s t

/-- 44_control.md R238 with the conditions R220 to R227, each with its number `cc` in the condition byte: JO, JNO, JB, JAE, JE, JNE, JBE, JA. -/
def Obligations.UnsignedConditionalJumps : Prop :=
  ∀ (w : Width) (o : Operand) (s : State), operandReadable w o s = true →
    let cf := s.rflags.getLsbD 0
    let zf := s.rflags.getLsbD 6
    let of := s.rflags.getLsbD 11
    ∀ ic ∈ [(Instr.jo w o, (0 : Byte), of), (Instr.jno w o, 1, !of), (Instr.jb w o, 2, cf), (Instr.jae w o, 3, !cf),
        (Instr.je w o, 4, zf), (Instr.jne w o, 5, !zf), (Instr.jbe w o, 6, cf || zf), (Instr.ja w o, 7, !cf && !zf)],
      (encode ic.1)[1]? = some ic.2.1 ∧
      ∃ t, exec ic.1 s = .next t ∧ t.rip = (if ic.2.2 then (operandHolds w o s).setWidth 64 else s.rip) ∧
        keepsRegs s t ∧ keepsMem s t ∧ t.rflags = s.rflags ∧ keepsEngine s t

/-- 44_control.md R238 with the conditions R228 to R235, each with its number `cc` in the condition byte: JS, JNS, JP, JNP, JL, JGE, JLE, JG. -/
def Obligations.SignedConditionalJumps : Prop :=
  ∀ (w : Width) (o : Operand) (s : State), operandReadable w o s = true →
    let pf := s.rflags.getLsbD 2
    let zf := s.rflags.getLsbD 6
    let sf := s.rflags.getLsbD 7
    let of := s.rflags.getLsbD 11
    ∀ ic ∈ [(Instr.js w o, (8 : Byte), sf), (Instr.jns w o, 9, !sf), (Instr.jp w o, 10, pf), (Instr.jnp w o, 11, !pf),
        (Instr.jl w o, 12, sf != of), (Instr.jge w o, 13, sf == of), (Instr.jle w o, 14, zf || sf != of),
        (Instr.jg w o, 15, !zf && sf == of)],
      (encode ic.1)[1]? = some ic.2.1 ∧
      ∃ t, exec ic.1 s = .next t ∧ t.rip = (if ic.2.2 then (operandHolds w o s).setWidth 64 else s.rip) ∧
        keepsRegs s t ∧ keepsMem s t ∧ t.rflags = s.rflags ∧ keepsEngine s t

/-- 43_alu.md R202 with 44_control.md R222, R226, R232, R234: after CMP, JB and JBE compare the operands as unsigned numbers,
JL and JLE as signed ones, and JE tests equality. -/
def Obligations.CompareThenConditionOrdersOperands : Prop :=
  ∀ (w : Width) (f : BinForm) (s t : State),
    let d := placeOf f.dst s
    let a := d.holds w s
    let b := operandHolds w f.src s
    d.readable w s = true → operandReadable w f.src s = true → exec (.cmp w f) s = .next t →
    (condHolds .b t.rflags = true ↔ a.toNat < b.toNat) ∧ (condHolds .be t.rflags = true ↔ a.toNat ≤ b.toNat) ∧
    (condHolds .l t.rflags = true ↔ a.toInt < b.toInt) ∧ (condHolds .le t.rflags = true ↔ a.toInt ≤ b.toInt) ∧
    (condHolds .e t.rflags = true ↔ a = b)

/-- 44_control.md R239, R240, R241: LOOP, LOOPE and LOOPNE decrement RCX modulo 2^64, write no flag, and jump where RCX is not
0 and their test of ZF holds. -/
def Obligations.LoopFamilyCountsDownRcx : Prop :=
  ∀ (w : Width) (o : Operand) (s : State), operandReadable w o s = true →
    let zf := s.rflags.getLsbD 6
    let left := s.reg rcx - 1
    ∀ ic ∈ [(Instr.loop w o, true), (Instr.loope w o, zf), (Instr.loopne w o, !zf)],
      ∃ t, exec ic.1 s = .next t ∧ t.reg rcx = left ∧ keepsRegsBut rcx s t ∧
        t.rip = (if left.toNat ≠ 0 ∧ ic.2 = true then (operandHolds w o s).setWidth 64 else s.rip) ∧
        keepsMem s t ∧ t.rflags = s.rflags ∧ keepsEngine s t

/-- 44_control.md R242, R243: CALL pushes the address of the next instruction and jumps to the target read before the push;
RET pops RIP. -/
def Obligations.CallAndRetUseTheStack : Prop :=
  (∀ (w : Width) (o : Operand) (s : State),
    let p := s.reg rsp - 8
    operandReadable w o s = true → s.rb.toNat ≤ s.sb.toNat → s.sb.toNat ≤ p.toNat → p.toNat + 8 ≤ s.len.toNat →
    ∃ t, exec (.call w o) s = .next t ∧ t.rip = (operandHolds w o s).setWidth 64 ∧ t.value p.toNat 8 = s.rip ∧
      t.reg rsp = p ∧ keepsRegsBut rsp s t ∧ keepsMemBut p.toNat 8 s t ∧ t.rflags = s.rflags ∧ keepsEngine s t) ∧
  (∀ s : State,
    let p := s.reg rsp
    s.sb.toNat ≤ p.toNat → p.toNat + 8 ≤ s.len.toNat →
    ∃ t, exec .ret s = .next t ∧ t.rip = s.value p.toNat 8 ∧ t.reg rsp = p + 8 ∧ keepsRegsBut rsp s t ∧
      keepsMem s t ∧ t.rflags = s.rflags ∧ keepsEngine s t)

/-! ### The FPU stack -/

/-- 45_fpu.md R265, R260, R262, R263: FLD from a slot in use, or from memory, onto a free slot. -/
def Obligations.FldPushesTheSource : Prop :=
  ∀ (f : FpuForm) (s : State),
    fpuReadable f s = true → s.inuseAt (s.top - 1) = false →
    ∃ t, exec (.fld f) s = .next t ∧ t.top = s.top - 1 ∧ t.fprAt (s.top - 1) = fpuHolds f s ∧
      (∀ j, j ≠ s.top - 1 → t.fprAt j = s.fprAt j) ∧
      (∀ j, t.inuseAt j = if j = s.top - 1 then true else s.inuseAt j) ∧
      keepsRegs s t ∧ keepsMem s t ∧ t.rip = s.rip ∧ t.rflags = s.rflags ∧ keepsBarriers s t ∧ keepsStatus s t

/-- 45_fpu.md R266, R267, R264: FST stores the top, FSTP stores it and pops; a register destination becomes in use. -/
def Obligations.FstAndFstpStoreTheTop : Prop :=
  ∀ s : State, s.inuseAt s.top = true →
    (∀ i : StIndex, ∃ t, exec (.fst (.st i)) s = .next t ∧ t.top = s.top ∧
      (∀ j, t.fprAt j = if j = s.top + i then s.fprAt s.top else s.fprAt j) ∧
      (∀ j, t.inuseAt j = if j = s.top + i then true else s.inuseAt j) ∧
      keepsRegs s t ∧ keepsMem s t ∧ t.rip = s.rip ∧ t.rflags = s.rflags ∧ keepsBarriers s t ∧ keepsStatus s t) ∧
    (∀ i : StIndex, ∃ t, exec (.fstp (.st i)) s = .next t ∧ t.top = s.top + 1 ∧
      (∀ j, t.fprAt j = if j = s.top + i then s.fprAt s.top else s.fprAt j) ∧
      (∀ j, t.inuseAt j = if j = s.top then false else if j = s.top + i then true else s.inuseAt j) ∧
      keepsRegs s t ∧ keepsMem s t ∧ t.rip = s.rip ∧ t.rflags = s.rflags ∧ keepsBarriers s t ∧ keepsStatus s t) ∧
    (∀ a : Addr, (Place.mem (effAddr a s)).writable .w8 s = true →
      (∃ t, exec (.fst (.mem a)) s = .next t ∧ memGets (effAddr a s).toNat 8 (s.fprAt s.top) s t ∧ keepsFpu s t ∧
        t.rip = s.rip ∧ t.rflags = s.rflags ∧ keepsBarriers s t ∧ keepsStatus s t) ∧
      (∃ t, exec (.fstp (.mem a)) s = .next t ∧ memGets (effAddr a s).toNat 8 (s.fprAt s.top) s t ∧
        t.top = s.top + 1 ∧ t.fpr = s.fpr ∧ (∀ j, t.inuseAt j = if j = s.top then false else s.inuseAt j) ∧
        t.rip = s.rip ∧ t.rflags = s.rflags ∧ keepsBarriers s t ∧ keepsStatus s t))

/-- 45_fpu.md R268 to R271: FFREE, FINCSTP, FDECSTP and FINIT always complete; no slot value changes. -/
def Obligations.FpuManagementNeverFaults : Prop :=
  ∀ s : State,
    (∀ i : StIndex, ∃ t, exec (.ffree i) s = .next t ∧ t.top = s.top ∧ t.fpr = s.fpr ∧
      (∀ j, t.inuseAt j = if j = s.top + i then false else s.inuseAt j) ∧
      keepsRegs s t ∧ keepsMem s t ∧ t.rip = s.rip ∧ t.rflags = s.rflags ∧ keepsBarriers s t ∧ keepsStatus s t) ∧
    (∃ t, exec .fincstp s = .next t ∧ t.top.toNat = (s.top.toNat + 1) % 8 ∧ t.fpr = s.fpr ∧ t.inuse = s.inuse ∧
      keepsRegs s t ∧ keepsMem s t ∧ t.rip = s.rip ∧ t.rflags = s.rflags ∧ keepsBarriers s t ∧ keepsStatus s t) ∧
    (∃ t, exec .fdecstp s = .next t ∧ t.top.toNat = (s.top.toNat + 7) % 8 ∧ t.fpr = s.fpr ∧ t.inuse = s.inuse ∧
      keepsRegs s t ∧ keepsMem s t ∧ t.rip = s.rip ∧ t.rflags = s.rflags ∧ keepsBarriers s t ∧ keepsStatus s t) ∧
    (∃ t, exec .finit s = .next t ∧ t.top = 0 ∧ t.fpr = s.fpr ∧ (∀ j, t.inuseAt j = false) ∧
      keepsRegs s t ∧ keepsMem s t ∧ t.rip = s.rip ∧ t.rflags = s.rflags ∧ keepsBarriers s t ∧ keepsStatus s t)

/-- 45_fpu.md R272: eight loads and eight pops that complete restore TOP and free every slot; from the all-free state eight
loads of readable sources complete; a ninth load after eight terminates with UndefinedBehavior. -/
def Obligations.EightPushesFillTheFpuStack : Prop :=
  (∀ (fs : List FpuForm) (s t : State), fs.length = 8 →
    runAll (fs.map Instr.fld ++ List.replicate 8 (Instr.fstp (.st 0))) s = some t →
    t.top = s.top ∧ ∀ j, t.inuseAt j = false) ∧
  (∀ (as : List Addr) (s : State), as.length = 8 → s.running = true → (∀ j, s.inuseAt j = false) →
    (∀ a ∈ as, (effAddr a s).toNat + 8 ≤ s.len.toNat) →
    ∃ t, runAll (as.map (fun a => Instr.fld (.mem a)) ++ List.replicate 8 (Instr.fstp (.st 0))) s = some t) ∧
  (∀ (fs : List FpuForm) (f : FpuForm) (s u : State), fs.length = 8 → s.running = true →
    runAll (fs.map Instr.fld) s = some u →
    (∀ a, f = .mem a → (effAddr a u).toNat + 8 ≤ u.len.toNat) →
    ∃ t, exec (.fld f) u = .next t ∧ stopsWith .undefinedBehavior u t)

/-! ### System instructions and the syscall layer -/

/-- 41_system.md R160, R161: NOP changes nothing; HLT terminates with Abort. -/
def Obligations.NopAndHlt : Prop :=
  (∀ s : State, exec .nop s = .next s) ∧
  (∀ s : State, s.running = true →
    ∃ t, exec .hlt s = .next t ∧ stopsWith .abort s t ∧ keepsRegs s t ∧ t.rip = s.rip)

/-- 41_system.md R162; 60_exceptions.md R285, R298, R303, R304: SYSCALL runs the handler its number names. Exit ends the process
with `a0` as its value; a handler of the host's own that ends with a result, in `Suspend`, in `Exit(v)` or in `Fail(e)` has
that outcome applied, and a store it makes below RB terminates; a number without a handler terminates with UnhandledSyscall. Under
the reference SYSCALL_MAP the number is all 64 bits of RAX, the arguments are RDI, RSI and RDX, the result goes to RAX, and the
numbers 0 to 11 name the twelve services in the order of the table, no other number naming any. -/
def Obligations.SyscallRunsTheHandlerOfItsNumber : Prop :=
  (∀ s : State, s.running = true →
    (s.service = some .exit → ∃ t, exec .syscall s = .next t ∧ t.running = false ∧ t.suspendedRead = false ∧
      t.error = .none ∧ t.returnValue = s.arg0 ∧ (∀ k, (t.fdAt k).inUse = false) ∧ keepsRegs s t ∧ keepsMem s t ∧
      t.rip = s.rip ∧ t.rflags = s.rflags ∧ keepsFpu s t ∧ keepsBarriers s t) ∧
    (s.service = none →
      ∃ t, exec .syscall s = .next t ∧ stopsWith .unhandledSyscall s t ∧ keepsRegs s t ∧ t.rip = s.rip)) ∧
  (∀ (H : HandlerTable) (n : Nat) (s : State), s.running = true → s.service = some (.own n) →
    (∀ v, H n = .writeResult v .finish → ∃ t, execSyscallWith H s = .next t ∧ regGets s.resultReg v s t ∧
      t.rip = s.rip ∧ t.rflags = s.rflags ∧ keepsEngine s t) ∧
    (H n = .suspend → ∃ t, execSyscallWith H s = .next t ∧ t.rip = s.rip - 1 ∧ t.suspendedRead = true ∧
      keepsRun s t ∧ keepsRegs s t ∧ keepsMem s t ∧ t.rflags = s.rflags ∧ keepsFpu s t ∧ keepsBarriers s t ∧
      t.fd = s.fd ∧ t.hostCalls = s.hostCalls) ∧
    (∀ v, H n = .exit v → execSyscallWith H s = .next (exitWith v s)) ∧
    (∀ e, H n = .fail e → ∃ t, execSyscallWith H s = .next t ∧ stopsWith e s t ∧ keepsRegs s t ∧ t.rip = s.rip) ∧
    (∀ p w v next, H n = .writeMem p w v next → p < s.rb.toNat →
      ∃ t, execSyscallWith H s = .next t ∧ stopsWith .accessViolation s t ∧ keepsRegs s t ∧ t.rip = s.rip)) ∧
  (∀ s : State, s.cfg.syscalls = referenceSyscalls →
    s.arg0 = s.reg rdi ∧ s.arg1 = s.reg rsi ∧ s.arg2 = s.reg rdx ∧ s.resultReg = rax ∧
    s.service = [Service.exit, .read, .write, .openFile, .close, .flush, .seek, .tell, .move, .remove, .mkdir,
      .rmdir][(s.reg rax).toNat]?)

/-- 60_exceptions.md R299, R302, R304 (read): a read stores the bytes the host delivers and their number in the result register
(RAX by R303); zero bytes on an interactive slot suspend: RIP back by one, SuspendedRead set, memory and registers as before; a
host failure terminates with IOFailure (R297 (d)). That a reply longer than the count is cut is the model's reading (log 15). -/
def Obligations.SyscallReadStoresOrSuspends : Prop :=
  ∀ (s : State) (k : Nat),
    s.service = some .read → s.arg0.toNat = k → k < s.nfd → (s.fdAt k).inUse = true →
    s.rb.toNat ≤ s.arg1.toNat → s.arg1.toNat + s.arg2.toNat ≤ s.len.toNat →
    let call := HostCall.read (s.fdAt k).stream s.arg2.toNat
    let reply := (askHost call s).1
    let data := reply.data.take s.arg2.toNat
    (s.running = true → reply.failed = true →
        ∃ t, exec .syscall s = .next t ∧ stopsWith .ioFailure s t ∧ keepsRegs s t) ∧
    (reply.failed = false → ¬ (data = [] ∧ (s.fdAt k).interactive = true) →
      ∃ t, exec .syscall s = .next t ∧ t.reg s.resultReg = BitVec.ofNat 64 data.length ∧ keepsRegsBut s.resultReg s t ∧
        (∀ j (h : j < data.length), t.byte (s.arg1.toNat + j) = data[j]) ∧
        keepsMemBut s.arg1.toNat data.length s t ∧ t.rip = s.rip ∧ t.rflags = s.rflags ∧ keepsFpu s t ∧
        keepsBarriers s t ∧ keepsRun s t ∧ t.suspendedRead = s.suspendedRead ∧ t.fd = s.fd ∧
        t.hostCalls = call :: s.hostCalls) ∧
    (reply.failed = false → data = [] → (s.fdAt k).interactive = true →
      ∃ t, exec .syscall s = .next t ∧ t.rip = s.rip - 1 ∧ t.suspendedRead = true ∧ keepsRun s t ∧
        keepsRegs s t ∧ keepsMem s t ∧ t.rflags = s.rflags ∧ keepsFpu s t ∧ keepsBarriers s t ∧ t.fd = s.fd ∧
        t.hostCalls = call :: s.hostCalls)

/-- 60_exceptions.md R302, R304 (write, flush, seek, tell): each hands the host what the table says, and puts its result in the
result register (RAX by R303); a host failure terminates with IOFailure (R297 (d)). -/
def Obligations.SyscallStreamServicesReportTheirResult : Prop :=
  ∀ (s : State) (k : Nat), s.arg0.toNat = k → k < s.nfd → (s.fdAt k).inUse = true →
    ∀ cr : HostCall × Word,
      ((s.service = some .write ∧ s.arg1.toNat + s.arg2.toNat ≤ s.len.toNat ∧
          cr.1 = .write (s.fdAt k).stream (s.bytes s.arg1.toNat s.arg2.toNat) ∧ cr.2 = s.arg2) ∨
        (s.service = some .flush ∧ cr.1 = .flush (s.fdAt k).stream ∧ cr.2 = 0) ∨
        (s.service = some .seek ∧ cr.2 = (askHost cr.1 s).1.position ∧
          ((s.arg2 = 0 ∧ cr.1 = .seek (s.fdAt k).stream s.arg1.toInt .fromStart) ∨
            (s.arg2 = 1 ∧ cr.1 = .seek (s.fdAt k).stream s.arg1.toInt .fromCurrent) ∨
            (s.arg2 = 2 ∧ cr.1 = .seek (s.fdAt k).stream s.arg1.toInt .fromEnd))) ∨
        (s.service = some .tell ∧ cr.1 = .tell (s.fdAt k).stream ∧ cr.2 = (askHost cr.1 s).1.position)) →
      (s.running = true → (askHost cr.1 s).1.failed = true →
        ∃ t, exec .syscall s = .next t ∧ stopsWith .ioFailure s t ∧ keepsRegs s t) ∧
      ((askHost cr.1 s).1.failed = false →
      ∃ t, exec .syscall s = .next t ∧ t.reg s.resultReg = cr.2 ∧ keepsRegsBut s.resultReg s t ∧ keepsMem s t ∧
        t.rip = s.rip ∧ t.rflags = s.rflags ∧ keepsFpu s t ∧ keepsBarriers s t ∧ keepsRun s t ∧
        t.suspendedRead = s.suspendedRead ∧ t.fd = s.fd ∧ t.hostCalls = cr.1 :: s.hostCalls)

/-- 60_exceptions.md R301, R304 (open, close): open takes the lowest free slot, not interactive, and returns its index; close
frees its slot and returns 0; a host failure terminates with IOFailure (R297 (d)), and the stream whose close failed is not
closed a second time by that termination (R306). -/
def Obligations.SyscallOpenAndCloseManageSlots : Prop :=
  (∀ (s : State) (path : List Byte) (k : Nat),
    s.service = some .openFile → s.cfg.fsEnabled = true → readCString s.arg0.toNat s = .done path s →
    k < s.nfd → (s.fdAt k).inUse = false → (∀ j, j < k → (s.fdAt j).inUse = true) →
    let call := HostCall.openFile path s.arg1
    (s.running = true → (askHost call s).1.failed = true →
        ∃ t, exec .syscall s = .next t ∧ stopsWith .ioFailure s t ∧ keepsRegs s t) ∧
    ((askHost call s).1.failed = false →
    ∃ t, exec .syscall s = .next t ∧ t.reg s.resultReg = BitVec.ofNat 64 k ∧ keepsRegsBut s.resultReg s t ∧
      keepsMem s t ∧ t.fdAt k = ⟨true, (askHost call s).1.stream, false⟩ ∧ (∀ j, j ≠ k → t.fdAt j = s.fdAt j) ∧
      t.hostCalls = call :: s.hostCalls ∧ t.rip = s.rip ∧ t.rflags = s.rflags ∧ keepsFpu s t ∧ keepsBarriers s t ∧
      keepsRun s t ∧ t.suspendedRead = s.suspendedRead)) ∧
  (∀ (s : State) (k : Nat),
    s.service = some .close → s.arg0.toNat = k → k < s.nfd → (s.fdAt k).inUse = true →
    let call := HostCall.close (s.fdAt k).stream
    (s.running = true → (askHost call s).1.failed = true →
        ∃ t, exec .syscall s = .next t ∧ stopsWith .ioFailure s t ∧ keepsRegs s t ∧
          t.hostCalls =
            ((List.range s.nfd).reverse.filter (fun j => j != k && (s.fdAt j).inUse)).map
              (fun j => HostCall.close (s.fdAt j).stream) ++ call :: s.hostCalls) ∧
    ((askHost call s).1.failed = false →
    ∃ t, exec .syscall s = .next t ∧ t.reg s.resultReg = 0 ∧ keepsRegsBut s.resultReg s t ∧ keepsMem s t ∧
      (t.fdAt k).inUse = false ∧ (∀ j, j ≠ k → t.fdAt j = s.fdAt j) ∧ t.hostCalls = call :: s.hostCalls ∧
      t.rip = s.rip ∧ t.rflags = s.rflags ∧ keepsFpu s t ∧ keepsBarriers s t ∧ keepsRun s t ∧
      t.suspendedRead = s.suspendedRead))

/-- 60_exceptions.md R304 (move, remove, mkdir, rmdir): each hands the host its paths and returns 0; a host failure terminates
with IOFailure (R297 (d)). -/
def Obligations.SyscallPathServicesCallTheHost : Prop :=
  ∀ (s : State) (p q : List Byte), s.cfg.fsEnabled = true → readCString s.arg0.toNat s = .done p s →
    ∀ call : HostCall,
      ((s.service = some .move ∧ readCString s.arg1.toNat s = .done q s ∧ call = .move p q) ∨
        (s.service = some .remove ∧ call = .remove p) ∨ (s.service = some .mkdir ∧ call = .mkdir p) ∨
        (s.service = some .rmdir ∧ call = .rmdir p)) →
      (s.running = true → (askHost call s).1.failed = true →
        ∃ t, exec .syscall s = .next t ∧ stopsWith .ioFailure s t ∧ keepsRegs s t) ∧
      ((askHost call s).1.failed = false →
      ∃ t, exec .syscall s = .next t ∧ t.reg s.resultReg = 0 ∧ keepsRegsBut s.resultReg s t ∧ keepsMem s t ∧
        t.rip = s.rip ∧ t.rflags = s.rflags ∧ keepsFpu s t ∧ keepsBarriers s t ∧ keepsRun s t ∧
        t.suspendedRead = s.suspendedRead ∧ t.fd = s.fd ∧ t.hostCalls = call :: s.hostCalls)

/-- 60_exceptions.md R297, R300, R301, R302, R304; 20_memory.md R68: the FD check, the buffer checks of read and write, the
filesystem gate, an unterminated path and the full table; the host is asked for nothing but the closes of the termination. A seek
whose origin is none of 0, 1 and 2 terminates with IOFailure. -/
def Obligations.SyscallChecksComeBeforeTheHost : Prop :=
  ∀ s : State, s.running = true →
    let stops := fun (e : ErrorCode) => ∃ t, exec .syscall s = .next t ∧ stopsWith e s t ∧ keepsRegs s t ∧
      t.hostCalls = (closeCalls s.fd).reverse ++ s.hostCalls
    (∀ v ∈ [Service.read, .write, .close, .flush, .seek, .tell], s.service = some v →
      (s.nfd ≤ s.arg0.toNat → stops .outOfBounds) ∧
      (s.arg0.toNat < s.nfd → (s.fdAt s.arg0.toNat).inUse = false → stops .fdNotInUse)) ∧
    (s.arg0.toNat < s.nfd → (s.fdAt s.arg0.toNat).inUse = true →
      (s.service = some .read → s.arg1.toNat < s.rb.toNat → stops .accessViolation) ∧
      (s.service = some .read → s.rb.toNat ≤ s.arg1.toNat → s.len.toNat < s.arg1.toNat + s.arg2.toNat →
        stops .outOfBounds) ∧
      (s.service = some .write → s.len.toNat < s.arg1.toNat + s.arg2.toNat → stops .outOfBounds) ∧
      (s.service = some .seek → s.arg2 ≠ 0 → s.arg2 ≠ 1 → s.arg2 ≠ 2 →
        ∃ t, exec .syscall s = .next t ∧ stopsWith .ioFailure s t ∧ keepsRegs s t)) ∧
    (∀ v ∈ [Service.openFile, .move, .remove, .mkdir, .rmdir], s.service = some v →
      (s.cfg.fsEnabled = false → stops .fsDisabled) ∧
      (s.cfg.fsEnabled = true → (∀ a, s.arg0.toNat ≤ a → a < s.len.toNat → s.byte a ≠ 0) → stops .outOfBounds)) ∧
    (∀ path, s.cfg.fsEnabled = true → readCString s.arg0.toNat s = .done path s →
      (s.service = some .openFile → (∀ k, k < s.nfd → (s.fdAt k).inUse = true) → stops .insufficientFds) ∧
      (s.service = some .move → (∀ a, s.arg1.toNat ≤ a → a < s.len.toNat → s.byte a ≠ 0) → stops .outOfBounds))

/-- 60_exceptions.md R298, R303; 41_system.md R162; 20_memory.md R76: whatever the handlers are, the host's own included, and
whatever the outcome, SYSCALL leaves every general register but the result register (RAX by R303), RFLAGS, the FPU stack, the
barriers, the configuration and the bytes below RB as they were, and RIP as it was or, where it suspends, one byte back. -/
def Obligations.SyscallKeepsRegistersFlagsAndFpu : Prop :=
  (∀ s : State, exec .syscall s = execSyscallWith Config.ownHandlers s) ∧
  ∀ (H : HandlerTable) (s t : State), execSyscallWith H s = .next t →
    keepsRegsBut s.resultReg s t ∧ t.rflags = s.rflags ∧ keepsFpu s t ∧ keepsBarriers s t ∧
    (∀ a, a < s.rb.toNat → t.byte a = s.byte a) ∧
    (t.rip = s.rip ∨ (t.rip = s.rip - 1 ∧ t.suspendedRead = true))

/-! ### Where the forms terminate -/

/-- 20_memory.md R64, R65; 43_alu.md R198; 42_data_movement.md R173; 45_fpu.md R266, R267: a store below RB terminates with
AccessViolation, one past the buffer's end with OutOfBounds, and no byte changes. For an instruction that reads its
destination first the read must pass; POP has moved RSP; FSTP has not popped. -/
def Obligations.StoresOutsideWritableMemoryTerminate : Prop :=
  ∀ (w : Width) (a : Addr) (r : Reg) (s : State), s.running = true →
    let p := (effAddr a s).toNat
    (p < s.rb.toNat → ∃ t, exec (.mov w (.mr a r)) s = .next t ∧ stopsWith .accessViolation s t ∧ keepsRegs s t) ∧
    (s.rb.toNat ≤ p → s.len.toNat < p + w.bytes →
      ∃ t, exec (.mov w (.mr a r)) s = .next t ∧ stopsWith .outOfBounds s t ∧ keepsRegs s t) ∧
    (∀ i ∈ [Instr.add w (.mr a r), .sub w (.mr a r), .and w (.mr a r), .or w (.mr a r), .xor w (.mr a r),
        .inc w (.mem a), .dec w (.mem a), .neg w (.mem a), .not w (.mem a)],
      (p + w.bytes ≤ s.len.toNat → p < s.rb.toNat →
        ∃ t, exec i s = .next t ∧ stopsWith .accessViolation s t ∧ keepsRegs s t) ∧
      (s.len.toNat < p + w.bytes → ∃ t, exec i s = .next t ∧ stopsWith .outOfBounds s t ∧ keepsRegs s t)) ∧
    (s.sb.toNat ≤ (s.reg rsp).toNat → (s.reg rsp).toNat + w.bytes ≤ s.len.toNat →
      let popStops := fun (e : ErrorCode) => ∃ t, exec (.pop w (.mem a)) s = .next t ∧ stopsWith e s t ∧
        t.reg rsp = s.reg rsp + BitVec.ofNat 64 w.bytes ∧ keepsRegsBut rsp s t
      (p < s.rb.toNat → popStops .accessViolation) ∧
      (s.rb.toNat ≤ p → s.len.toNat < p + w.bytes → popStops .outOfBounds)) ∧
    (s.inuseAt s.top = true → ∀ i ∈ [Instr.fst (.mem a), .fstp (.mem a)],
      (p < s.rb.toNat → ∃ t, exec i s = .next t ∧ stopsWith .accessViolation s t ∧ keepsRegs s t) ∧
      (s.rb.toNat ≤ p → s.len.toNat < p + 8 →
        ∃ t, exec i s = .next t ∧ stopsWith .outOfBounds s t ∧ keepsRegs s t))

/-- 20_memory.md R63, R73; 44_control.md R238, R243; 45_fpu.md R265; 42_data_movement.md R173, R175: a memory source outside the
buffer terminates with OutOfBounds, a conditional jump that is not taken and a pop past the buffer's end included. -/
def Obligations.LoadsOutsideTheBufferTerminate : Prop :=
  ∀ (w : Width) (a : Addr) (r : Reg) (s : State), s.running = true →
    let stops := fun (i : Instr) =>
      ∃ t, exec i s = .next t ∧ stopsWith .outOfBounds s t ∧ keepsRegs s t ∧ t.rip = s.rip
    (s.len.toNat < (effAddr a s).toNat + w.bytes →
      (∀ i ∈ [Instr.mov w (.rm r a), .add w (.rm r a), .sub w (.rm r a), .cmp w (.rm r a), .and w (.rm r a),
          .or w (.rm r a), .xor w (.rm r a), .test w (.rm r a), .cmp w (.mr a r), .test w (.mr a r), .push w (.mem a),
          .jmp w (.mem a), .call w (.mem a), .loop w (.mem a), .loope w (.mem a), .loopne w (.mem a)], stops i) ∧
      ∀ c : Cond, stops (jcc c w (.mem a))) ∧
    (s.len.toNat < (effAddr a s).toNat + 8 → stops (.fld (.mem a))) ∧
    (s.sb.toNat ≤ (s.reg rsp).toNat →
      (s.len.toNat < (s.reg rsp).toNat + w.bytes → ∀ d : RegMem, stops (.pop w d)) ∧
      (s.len.toNat < (s.reg rsp).toNat + 8 → stops .popf ∧ stops .ret))

/-- 20_memory.md R72, R73: a push whose new RSP is below SB, and a pop whose RSP is, terminate with StackOverflow; a push whose
new RSP is not below SB but too high for the value (RSP has wrapped), with OutOfBounds where RB is at most SB (10_state.md R32).
The push has moved RSP, the pop has not; PUSH, PUSHF and CALL push, POP, POPF and RET pop. -/
def Obligations.StackBarrierTerminates : Prop :=
  ∀ s : State, s.running = true →
    let pushStops := fun (i : Instr) (n : Nat) =>
      let p := s.reg rsp - BitVec.ofNat 64 n
      let stops := fun (e : ErrorCode) => ∃ t, exec i s = .next t ∧ stopsWith e s t ∧ t.reg rsp = p ∧
        keepsRegsBut rsp s t ∧ t.rip = s.rip
      (p.toNat < s.sb.toNat → stops .stackOverflow) ∧
      (s.rb.toNat ≤ s.sb.toNat → s.sb.toNat ≤ p.toNat → s.len.toNat < p.toNat + n → stops .outOfBounds)
    (∀ (w : Width) (v : Operand), operandReadable w v s = true → pushStops (.push w v) w.bytes) ∧
    pushStops .pushf 8 ∧
    (∀ (w : Width) (o : Operand), operandReadable w o s = true → pushStops (.call w o) 8) ∧
    ((s.reg rsp).toNat < s.sb.toNat →
      (∀ (w : Width) (d : RegMem), ∃ t, exec (.pop w d) s = .next t ∧ stopsWith .stackOverflow s t ∧ keepsRegs s t) ∧
      (∃ t, exec .popf s = .next t ∧ stopsWith .stackOverflow s t ∧ keepsRegs s t) ∧
      (∃ t, exec .ret s = .next t ∧ stopsWith .stackOverflow s t ∧ keepsRegs s t ∧ t.rip = s.rip))

/-- 45_fpu.md R262, R263, R264: reading an empty slot, and pushing onto a slot in use, terminate with UndefinedBehavior; memory
and the FPU stack are as before. -/
def Obligations.InvalidFpuTransitionsTerminate : Prop :=
  ∀ s : State, s.running = true →
    (∀ i : StIndex, s.inuseAt (s.top + i) = false →
      ∃ t, exec (.fld (.st i)) s = .next t ∧ stopsWith .undefinedBehavior s t) ∧
    (∀ i : StIndex, s.inuseAt (s.top + i) = true → s.inuseAt (s.top - 1) = true →
      ∃ t, exec (.fld (.st i)) s = .next t ∧ stopsWith .undefinedBehavior s t) ∧
    (∀ a : Addr, (effAddr a s).toNat + 8 ≤ s.len.toNat → s.inuseAt (s.top - 1) = true →
      ∃ t, exec (.fld (.mem a)) s = .next t ∧ stopsWith .undefinedBehavior s t) ∧
    (s.inuseAt s.top = false → ∀ f : FpuForm,
      (∃ t, exec (.fst f) s = .next t ∧ stopsWith .undefinedBehavior s t) ∧
      (∃ t, exec (.fstp f) s = .next t ∧ stopsWith .undefinedBehavior s t))

/-! ### Reset and the image -/

/-- 10_state.md R40: every component after a successful `Initialize`; arguments are placed by the reference layout. -/
def Obligations.InitializeLeavesTheResetTable : Prop :=
  ∀ (P : EngineParams) (fill : Fill) (file : List Byte) (args : List (List Byte)) (reserve : Word) (s t : State),
    (args ≠ [] → P.argLayout = referenceLayout) → bootstrap P fill file args reserve s = some t →
    let i := parseImage file
    let content := i.text ++ i.rodata ++ i.data
    let sb := content.length + i.bss.toNat
    let len := sb + reserve.toNat
    (∀ a (h : a < content.length), t.byte a = content[a]) ∧
    (∀ a, content.length ≤ a → a < sb → t.byte a = 0) ∧
    (∀ a, sb ≤ a → a < len - argBytes args → ∀ h : a - sb < fill.heap.length, t.byte a = fill.heap[a - sb]) ∧
    t.len.toNat = len ∧ t.eb.toNat = i.text.length ∧ t.rb.toNat = i.text.length + i.rodata.length ∧ t.sb.toNat = sb ∧
    (t.reg rsp).toNat = len - argBytes args ∧
    (∀ j : Reg, j ≠ rsp → (args ≠ [] → j ≠ rdi ∧ j ≠ rsi) → t.reg j = fill.regs[j]) ∧
    (args ≠ [] → (t.reg rdi).toNat = args.length ∧ t.reg rsi = t.reg rsp + 16) ∧
    t.rip = 0 ∧ t.rflags = 0x2 ∧ (∀ j, t.inuseAt j = false) ∧ t.top = 0 ∧ t.fpr = fill.fpr ∧
    t.running = true ∧ t.suspendedRead = false ∧ t.error = .none ∧ t.returnValue = s.returnValue ∧ t.fd = s.fd

/-- 70_reset_and_hazards.md R340, R341, R342: `Initialize` succeeds only where its four checks pass, and, with the reference
layout where there are arguments, wherever they pass; a failed one leaves the state as it was. -/
def Obligations.InitializeFailsOnlyByItsChecks : Prop :=
  ∀ (P : EngineParams) (fill : Fill) (file : List Byte) (args : List (List Byte)) (reserve : Word) (s : State),
    let result := hostInitialize P fill file args reserve s
    let checks := checkImage P file = .ok ∧ addressSpace (parseImage file) reserve ≤ P.maxMemSize.toNat ∧
      (∀ a ∈ args, (0 : Byte) ∉ a) ∧ P.argLayout.bytes args ≤ reserve.toNat
    (result.1 = true → checks) ∧
    ((args ≠ [] → P.argLayout = referenceLayout) → checks → result.1 = true) ∧
    (result.1 = false → result.2 = s)

/-- 70_reset_and_hazards.md R343: after `Initialize` with arguments, the two pushed words and the pointer array stand where the
rule says, and each pointer's C string is its argument. -/
def Obligations.ArgumentsReadBackAsCStrings : Prop :=
  ∀ (P : EngineParams) (fill : Fill) (file : List Byte) (args : List (List Byte)) (reserve : Word) (s t : State),
    args ≠ [] → P.argLayout = referenceLayout → bootstrap P fill file args reserve s = some t →
    let argv := t.reg rsi
    t.value (t.reg rsp).toNat 8 = BitVec.ofNat 64 args.length ∧
    t.value ((t.reg rsp).toNat + 8) 8 = argv ∧
    ∀ k (h : k < args.length), readCString (t.value (argv.toNat + 8 * k) 8).toNat t = .done args[k] t

/-- 70_reset_and_hazards.md R332, R331: a saved image loads back; the empty image is not saved; a failed load gives the empty
image. -/
def Obligations.SavedImageLoadsBack : Prop :=
  ∀ (P : EngineParams),
    saveImage P Image.empty = none ∧
    (∀ i : Image, i.wf = true → i ≠ Image.empty → ∃ f, saveImage P i = some f ∧ loadImage P (some f) = (.ok, i)) ∧
    (∀ f, (loadImage P f).1 ≠ .ok → (loadImage P f).2 = Image.empty)

/-- 70_reset_and_hazards.md R330: the checks of an image in their order, over its little-endian words. -/
def Obligations.ImageChecksRunInOrder : Prop :=
  ∀ (P : EngineParams) (f : List Byte),
    let word := fun k => leNat ((f.drop (8 * k)).take 8)
    (loadImage P none).1 = .ioError ∧
    (f.length < 8 → checkImage P f = .formatCorrupt) ∧
    (8 ≤ f.length → word 0 ≠ P.imageMagic.toNat → checkImage P f = .wrongMagic) ∧
    (8 ≤ f.length → word 0 = P.imageMagic.toNat → f.length < 16 → checkImage P f = .formatCorrupt) ∧
    (16 ≤ f.length → word 0 = P.imageMagic.toNat → word 1 ≠ P.imageVersion.toNat → checkImage P f = .wrongVersion) ∧
    (16 ≤ f.length → word 0 = P.imageMagic.toNat → word 1 = P.imageVersion.toNat →
      (f.length < 48 ∨ f.length ≠ 48 + word 2 + word 3 + word 4) → checkImage P f = .formatCorrupt) ∧
    (48 ≤ f.length → word 0 = P.imageMagic.toNat → word 1 = P.imageVersion.toNat →
      f.length = 48 + word 2 + word 3 + word 4 → checkImage P f = .ok)
end

