-- ==== Sys2Proof/Laws/Flags.lean ====
section
/-! SUPPORT. RFLAGS: which bits a flag assignment writes and which it keeps, and the flag computations in the claims' terms. -/

namespace Sys2Proof.Machine

/-- A bit of a flags word after one bit was replaced. -/
theorem putBit_getLsbD (w : Word) (i j : Nat) (b : Bool) (hi : i < 64) :
    (putBit w i b).getLsbD j = if j = i then b else w.getLsbD j := by
  unfold putBit
  by_cases hj : j < 64
  · have hb : (1#64).getLsbD (j - i) = decide (j - i = 0) := by
      rw [BitVec.getLsbD_one]; simp
    cases b
    · simp only [Bool.false_eq_true, if_false, BitVec.getLsbD_and, BitVec.getLsbD_not, hj, decide_true,
        Bool.true_and, BitVec.getLsbD_shiftLeft, hb]
      by_cases e : j = i
      · subst e; simp
      · by_cases l : j < i
        · simp [l, e]
        · simp [l, e, show ¬ j - i = 0 by omega]
    · simp only [if_true, BitVec.getLsbD_or, BitVec.getLsbD_shiftLeft, hj, decide_true, Bool.true_and, hb]
      by_cases e : j = i
      · subst e; simp
      · by_cases l : j < i
        · simp [l, e]
        · simp [l, e, show ¬ j - i = 0 by omega]
  · have e : j ≠ i := by omega
    rw [if_neg e, BitVec.getLsbD_of_ge w j (by omega), BitVec.getLsbD_of_ge _ j (by omega)]

/-- The bit of a flag. -/
theorem Flag.bit_lt (f : Flag) : f.bit < 64 := by cases f <;> decide

/-- A bit after one flag was assigned or kept. -/
theorem putFlag_getLsbD (f : Flag) (v : Option Bool) (w : Word) (j : Nat) :
    (putFlag f v w).getLsbD j = if j = f.bit then v.getD (w.getLsbD j) else w.getLsbD j := by
  cases v with
  | none => simp [putFlag]
  | some b => simp [putFlag, putBit_getLsbD _ _ _ _ f.bit_lt]

/-- The merge of flag assignments, bit by bit (40_engine.md R150). -/
theorem mergeFlags_getLsbD (f : FlagSet) (w : Word) (j : Nat) :
    (mergeFlags f w).getLsbD j =
      if j = 0 then f.cf.getD (w.getLsbD j) else if j = 2 then f.pf.getD (w.getLsbD j)
      else if j = 4 then f.af.getD (w.getLsbD j) else if j = 6 then f.zf.getD (w.getLsbD j)
      else if j = 7 then f.sf.getD (w.getLsbD j) else if j = 11 then f.of.getD (w.getLsbD j)
      else w.getLsbD j := by
  simp only [mergeFlags, putFlag_getLsbD, Flag.bit]
  by_cases h0 : j = 0
  · subst h0; simp
  by_cases h2 : j = 2
  · subst h2; simp
  by_cases h4 : j = 4
  · subst h4; simp
  by_cases h6 : j = 6
  · subst h6; simp
  by_cases h7 : j = 7
  · subst h7; simp
  by_cases h11 : j = 11
  · subst h11; simp
  simp [h0, h2, h4, h6, h7, h11]

/-- A bit that no flag stands in is kept. -/
theorem mergeFlags_keeps (f : FlagSet) (w : Word) (j : Nat) (h : j ∉ arithmeticBits) :
    (mergeFlags f w).getLsbD j = w.getLsbD j := by
  simp only [arithmeticBits, List.mem_cons, List.not_mem_nil, or_false, not_or] at h
  rw [mergeFlags_getLsbD]
  simp [h]

/-- No assignment, no change. -/
theorem mergeFlags_none (w : Word) : mergeFlags ⟨none, none, none, none, none, none⟩ w = w := rfl

/-- The bits outside the public mask are kept. -/
theorem mergeFlags_private (f : FlagSet) (w : Word) :
    mergeFlags f w &&& ~~~pubFlags = w &&& ~~~pubFlags := by
  apply BitVec.eq_of_getLsbD_eq
  intro j hj
  simp only [BitVec.getLsbD_and, mergeFlags_getLsbD]
  have hp : ∀ k ∈ [0, 2, 4, 6, 7, 11], (~~~pubFlags).getLsbD k = false := by decide
  by_cases h : j ∈ [0, 2, 4, 6, 7, 11]
  · rw [hp j h]; simp
  · simp only [List.mem_cons, List.not_mem_nil, or_false, not_or] at h
    simp [h]

/-- The flag-restoring write, bit by bit (10_state.md R28). -/
theorem restoreFlags_getLsbD (old v : Word) (j : Nat) :
    (restoreFlags old v).getLsbD j =
      if j ∈ [0, 2, 4, 6, 7, 10, 11] then v.getLsbD j else old.getLsbD j := by
  by_cases hj : j < 64
  · have hp : ∀ k : Fin 64, pubFlags.getLsbD k = decide (k.val ∈ [0, 2, 4, 6, 7, 10, 11]) := by decide
    have hk : pubFlags.getLsbD j = decide (j ∈ [0, 2, 4, 6, 7, 10, 11]) := hp ⟨j, hj⟩
    simp only [restoreFlags, BitVec.getLsbD_or, BitVec.getLsbD_and, BitVec.getLsbD_not, hj, hk, decide_true, Bool.true_and]
    by_cases h : j ∈ [0, 2, 4, 6, 7, 10, 11]
    · simp [h]
    · simp [h]
  · simp [BitVec.getLsbD_of_ge _ j (by omega : 64 ≤ j)]

theorem restoreFlags_private (old v : Word) : restoreFlags old v &&& ~~~pubFlags = old &&& ~~~pubFlags := by
  apply BitVec.eq_of_getLsbD_eq
  intro j hj
  simp only [restoreFlags, BitVec.getLsbD_and, BitVec.getLsbD_or, BitVec.getLsbD_not, hj, decide_true, Bool.true_and]
  cases pubFlags.getLsbD j <;> simp

/-- PF is even parity of the low byte (43_alu.md R191). -/
theorem pfOf_eq {n : Nat} (r : BitVec n) : pfOf r = evenParity (r.setWidth 8) := by
  have h : ∀ b : Byte, decide (onesOf b % 2 = 0) = evenParity b := by decide
  exact h _

theorem zfOf_eq {n : Nat} (r : BitVec n) : zfOf r = decide (r.toNat = 0) := by
  unfold zfOf
  rw [decide_eq_decide]
  constructor
  · rintro rfl; simp
  · intro h; exact BitVec.eq_of_toNat_eq (by simpa using h)

theorem sfOf_eq {n : Nat} (r : BitVec n) : sfOf r = r.getLsbD (n - 1) := BitVec.msb_eq_getLsbD_last r

/-- Assigning ZF, SF and PF of a result shows that result. -/
theorem showsResult_of {n : Nat} (r : BitVec n) (f : FlagSet) (w : Word) (t : State)
    (ht : t.rflags = mergeFlags f w) (hz : f.zf = some (zfOf r)) (hs : f.sf = some (sfOf r)) (hp : f.pf = some (pfOf r)) :
    showsResult r t := by
  refine ⟨?_, ?_, ?_⟩ <;> rw [ht, mergeFlags_getLsbD]
  · simp [hz, zfOf_eq]
  · simp [hs, sfOf_eq]
  · simp [hp, pfOf_eq]

end Sys2Proof.Machine
end

