-- ==== Sys2Proof/Laws/Bytes.lean ====
section
/-! SUPPORT. Byte order, fields and size codes: each helper's own lemmas. -/

namespace Sys2Proof

@[simp] theorem leBytes_length (n v : Nat) : (leBytes n v).length = n := by
  induction n generalizing v with
  | zero => rfl
  | succ n ih => simp [leBytes, ih]

/-- Reading back the little-endian bytes of a number gives the number modulo their range. -/
theorem leNat_leBytes (n v : Nat) : leNat (leBytes n v) = v % 2 ^ (8 * n) := by
  induction n generalizing v with
  | zero => simp [leBytes, leNat, Nat.mod_one]
  | succ n ih =>
    simp only [leBytes, leNat, ih, BitVec.toNat_ofNat]
    rw [show 8 * (n + 1) = 8 + 8 * n by ring, pow_add, Nat.mod_mul]
    norm_num

theorem leNat_lt (bs : List Byte) : leNat bs < 2 ^ (8 * bs.length) := by
  induction bs with
  | nil => simp [leNat]
  | cons b bs ih =>
    have hb := b.isLt
    rw [List.length_cons, show 8 * (bs.length + 1) = 8 + 8 * bs.length by ring, pow_add]
    simp only [leNat]
    omega

/-- The bytes of a little-endian value are the bytes it was made of. -/
theorem leBytes_leNat (bs : List Byte) : leBytes bs.length (leNat bs) = bs := by
  induction bs with
  | nil => rfl
  | cons b bs ih =>
    have hb := b.isLt
    simp only [List.length_cons, leBytes, leNat]
    congr 1
    · apply BitVec.eq_of_toNat_eq; simp; omega
    · rw [show (b.toNat + 256 * leNat bs) / 256 = leNat bs by omega, ih]

/-- The k-th little-endian byte of a number. -/
theorem leBytes_getElem (n v k : Nat) (h : k < (leBytes n v).length) :
    (leBytes n v)[k] = BitVec.ofNat 8 (v / 2 ^ (8 * k)) := by
  induction n generalizing v k with
  | zero => simp [leBytes] at h
  | succ n ih =>
    cases k with
    | zero => simp [leBytes]
    | succ k =>
      simp only [leBytes, List.getElem_cons_succ]
      rw [ih (v / 256) k (by simpa using h), Nat.div_div_eq_div_mul, show 8 * (k + 1) = 8 + 8 * k by ring, pow_add]
      norm_num

/-! ### Fields -/

@[simp] theorem hiNibble_nibbles (h l : BitVec 4) : hiNibble (nibbles h l) = h := by revert h l; decide
@[simp] theorem loNibble_nibbles (h l : BitVec 4) : loNibble (nibbles h l) = l := by revert h l; decide
@[simp] theorem hiNibble_settings (r : BitVec 4) (sz m : BitVec 2) : hiNibble (settings r sz m) = r := by
  revert r sz m; decide
@[simp] theorem sizeField_settings (r : BitVec 4) (sz m : BitVec 2) : sizeField (settings r sz m) = sz := by
  revert r sz m; decide
@[simp] theorem modeField_settings (r : BitVec 4) (sz m : BitVec 2) : modeField (settings r sz m) = m := by
  revert r sz m; decide
@[simp] theorem settings_fields (b : Byte) : settings (hiNibble b) (sizeField b) (modeField b) = b := by
  revert b; decide
@[simp] theorem nibbles_fields (b : Byte) : nibbles (hiNibble b) (loNibble b) = b := by revert b; decide

@[simp] theorem regOf_regCode (r : Reg) : regOf (regCode r) = r := rfl
@[simp] theorem regCode_regOf (c : BitVec 4) : regCode (regOf c) = c := rfl
@[simp] theorem widthOf_widthCode (w : Width) : widthOf (widthCode w) = w := by cases w <;> rfl
@[simp] theorem widthCode_widthOf (c : BitVec 2) : widthCode (widthOf c) = c := by revert c; decide
@[simp] theorem addrSizeOf_addrSizeCode (a : AddrSize) : addrSizeOf (addrSizeCode a) = some a := by cases a <;> rfl
theorem addrSizeCode_of_some (c : BitVec 2) (a : AddrSize) (h : addrSizeOf c = some a) : addrSizeCode a = c := by
  revert c a; decide
theorem widthCode_eq_zero (w : Width) : widthCode w = 0#2 ↔ w = .w1 := by cases w <;> decide

end Sys2Proof
end

