-- ==== Sys2Proof/Laws/Memory.lean ====
section
/-! SUPPORT. Memory as data: what a byte reads as after a write, the canonical form and that every write keeps it, and that
canonical memories with equal bytes are equal. -/

namespace Sys2Proof.Machine

/-! ### One byte -/

theorem memByte_filter_ne (m : List Host.Cell) (p q : Nat) (h : q ≠ p) :
    memByte (m.filter fun c => c.1 != p) q = memByte m q := by
  induction m with
  | nil => rfl
  | cons c m ih =>
    obtain ⟨a, b⟩ := c
    by_cases ha : a = p
    · subst ha; simp [memByte, h, ih]
    · simp [ha, memByte, ih]

theorem memByte_filter_self (m : List Host.Cell) (p : Nat) :
    memByte (m.filter fun c => c.1 != p) p = unlistedByte := by
  induction m with
  | nil => rfl
  | cons c m ih =>
    obtain ⟨a, b⟩ := c
    by_cases ha : a = p
    · simp [ha, ih]
    · simp [ha, memByte, ih, Ne.symm ha]

theorem memByte_memInsert_ne (m : List Host.Cell) (p q : Nat) (v : Byte) (h : q ≠ p) :
    memByte (memInsert m p v) q = memByte m q := by
  induction m with
  | nil => simp [memInsert, memByte, h]
  | cons c m ih =>
    obtain ⟨a, b⟩ := c
    by_cases hp : p < a
    · simp [memInsert, hp, memByte, h]
    · simp [memInsert, hp, memByte, ih]

theorem memByte_memInsert_self (m : List Host.Cell) (p : Nat) (v : Byte) (h : ∀ c ∈ m, c.1 ≠ p) :
    memByte (memInsert m p v) p = v := by
  induction m with
  | nil => simp [memInsert, memByte]
  | cons c m ih =>
    obtain ⟨a, b⟩ := c
    by_cases hp : p < a
    · simp [memInsert, hp, memByte]
    · have ha : a ≠ p := h (a, b) (by simp)
      simp [memInsert, hp, memByte, Ne.symm ha, ih fun c hc => h c (by simp [hc])]

/-- A byte after a write of one byte: the written value there, the old byte anywhere else. -/
theorem memByte_memSet (m : List Host.Cell) (p q : Nat) (v : Byte) :
    memByte (memSet m p v) q = if q = p then v else memByte m q := by
  by_cases hq : q = p
  · subst hq
    by_cases hv : v = unlistedByte
    · simp [memSet, hv, memByte_filter_self]
    · simp only [memSet, hv, if_false, if_true]
      exact memByte_memInsert_self _ _ _ fun c hc => by simpa using (List.mem_filter.mp hc).2
  · by_cases hv : v = unlistedByte
    · simp [memSet, hv, hq, memByte_filter_ne _ _ _ hq]
    · simp [memSet, hv, hq, memByte_memInsert_ne _ _ _ _ hq, memByte_filter_ne _ _ _ hq]

/-- A byte after a write of consecutive bytes: the written byte inside the range, the old byte outside. -/
theorem memByte_memSetBytes (m : List Host.Cell) (p q : Nat) (bs : List Byte) :
    memByte (memSetBytes m p bs) q =
      if h : p ≤ q ∧ q < p + bs.length then bs[q - p]'(by omega) else memByte m q := by
  induction bs generalizing m p with
  | nil => simp [memSetBytes]
  | cons b bs ih =>
    simp only [memSetBytes, ih, memByte_memSet, List.length_cons]
    by_cases hq : q = p
    · subst hq; simp
    · by_cases h : p + 1 ≤ q ∧ q < p + 1 + bs.length
      · rw [dif_pos h, dif_pos (by omega)]
        obtain ⟨k, rfl⟩ : ∃ k, q = p + 1 + k := ⟨q - (p + 1), by omega⟩
        simp [show p + 1 + k - p = k + 1 by omega]
      · rw [dif_neg h, dif_neg (by omega), if_neg hq]

theorem memByte_memSetBytes_outside (m : List Host.Cell) (p q : Nat) (bs : List Byte)
    (h : q < p ∨ p + bs.length ≤ q) : memByte (memSetBytes m p bs) q = memByte m q := by
  rw [memByte_memSetBytes, dif_neg (by omega)]

/-! ### The canonical form -/

theorem memWf_cons (a : Nat) (b : Byte) (m : List Host.Cell) :
    Memory.wf ((a, b) :: m) = true ↔ b ≠ unlistedByte ∧ (∀ c ∈ m, a < c.1) ∧ Memory.wf m = true := by
  simp [Memory.wf, and_assoc]

theorem memWf_filter (m : List Host.Cell) (f : Host.Cell → Bool) (h : Memory.wf m = true) : Memory.wf (m.filter f) = true := by
  induction m with
  | nil => rfl
  | cons c m ih =>
    obtain ⟨a, b⟩ := c
    rw [memWf_cons] at h
    by_cases hf : f (a, b)
    · rw [List.filter_cons_of_pos hf, memWf_cons]
      exact ⟨h.1, fun c hc => h.2.1 c (List.mem_filter.mp hc).1, ih h.2.2⟩
    · rw [List.filter_cons_of_neg hf]; exact ih h.2.2

theorem mem_memInsert (m : List Host.Cell) (p : Nat) (v : Byte) (c : Host.Cell) :
    c ∈ memInsert m p v ↔ c = (p, v) ∨ c ∈ m := by
  induction m with
  | nil => simp [memInsert]
  | cons d m ih =>
    obtain ⟨a, b⟩ := d
    by_cases hp : p < a
    · simp [memInsert, hp]
    · simp [memInsert, hp, ih]; tauto

theorem memWf_memInsert (m : List Host.Cell) (p : Nat) (v : Byte) (hv : v ≠ unlistedByte)
    (hp : ∀ c ∈ m, c.1 ≠ p) (h : Memory.wf m = true) : Memory.wf (memInsert m p v) = true := by
  induction m with
  | nil => simp [memInsert, Memory.wf, hv]
  | cons c m ih =>
    obtain ⟨a, b⟩ := c
    have h' := (memWf_cons a b m).mp h
    have ha : a ≠ p := hp (a, b) (by simp)
    by_cases hlt : p < a
    · simp only [memInsert, hlt, if_true]
      rw [memWf_cons]
      refine ⟨hv, fun c hc => ?_, h⟩
      rcases List.mem_cons.mp hc with rfl | hc
      · exact hlt
      · exact lt_trans hlt (h'.2.1 c hc)
    · simp only [memInsert, hlt, if_false]
      rw [memWf_cons]
      refine ⟨h'.1, fun c hc => ?_, ih (fun c hc => hp c (by simp [hc])) h'.2.2⟩
      rcases (mem_memInsert m p v c).mp hc with rfl | hc
      · exact lt_of_le_of_ne (not_lt.mp hlt) ha
      · exact h'.2.1 c hc

/-- A write of one byte keeps the canonical form. -/
theorem memWf_memSet (m : List Host.Cell) (p : Nat) (v : Byte) (h : Memory.wf m = true) : Memory.wf (memSet m p v) = true := by
  by_cases hv : v = unlistedByte
  · simp only [memSet, hv, if_true]; exact memWf_filter m _ h
  · simp only [memSet, hv, if_false]
    exact memWf_memInsert _ p v hv (fun c hc => by simpa using (List.mem_filter.mp hc).2) (memWf_filter m _ h)

/-- A write of consecutive bytes keeps the canonical form. -/
theorem memWf_memSetBytes (m : List Host.Cell) (p : Nat) (bs : List Byte) (h : Memory.wf m = true) :
    Memory.wf (memSetBytes m p bs) = true := by
  induction bs generalizing m p with
  | nil => exact h
  | cons b bs ih => exact ih _ _ (memWf_memSet m p b h)

/-- A write lists no address but its own. -/
theorem mem_memSet (m : List Host.Cell) (p : Nat) (v : Byte) (c : Host.Cell) (h : c ∈ memSet m p v) :
    c.1 = p ∨ c ∈ m := by
  by_cases hv : v = unlistedByte
  · simp only [memSet, hv, if_true] at h; exact .inr (List.mem_filter.mp h).1
  · simp only [memSet, hv, if_false] at h
    rcases (mem_memInsert _ _ _ _).mp h with rfl | h
    · exact .inl rfl
    · exact .inr (List.mem_filter.mp h).1

theorem mem_memSetBytes (m : List Host.Cell) (p : Nat) (bs : List Byte) (c : Host.Cell)
    (h : c ∈ memSetBytes m p bs) : (p ≤ c.1 ∧ c.1 < p + bs.length) ∨ c ∈ m := by
  induction bs generalizing m p with
  | nil => exact .inr h
  | cons b bs ih =>
    rcases ih _ _ h with h | h
    · simp only [List.length_cons]; omega
    · rcases mem_memSet _ _ _ _ h with h | h
      · simp only [List.length_cons]; omega
      · exact .inr h

theorem memByte_of_all_gt (m : List Host.Cell) (p : Nat) (h : ∀ c ∈ m, p < c.1) : memByte m p = unlistedByte := by
  induction m with
  | nil => rfl
  | cons c m ih =>
    obtain ⟨a, b⟩ := c
    have ha : p < a := h (a, b) (by simp)
    simp [memByte, Nat.ne_of_lt ha, ih fun c hc => h c (by simp [hc])]

/-- Canonical memories that read alike everywhere are equal data. -/
theorem mem_ext (m m' : List Host.Cell) (h : Memory.wf m = true) (h' : Memory.wf m' = true)
    (hb : ∀ p, memByte m p = memByte m' p) : m = m' := by
  induction m generalizing m' with
  | nil =>
    cases m' with
    | nil => rfl
    | cons c m' =>
      obtain ⟨a, b⟩ := c
      have := hb a
      simp only [memByte, if_true] at this
      exact absurd this.symm ((memWf_cons a b m').mp h').1
  | cons c m ih =>
    obtain ⟨a, b⟩ := c
    have hm := (memWf_cons a b m).mp h
    cases m' with
    | nil =>
      have := hb a
      simp only [memByte, if_true] at this
      exact absurd this hm.1
    | cons c' m' =>
      obtain ⟨a', b'⟩ := c'
      have hm' := (memWf_cons a' b' m').mp h'
      have haa : a = a' := by
        rcases Nat.lt_trichotomy a a' with hlt | heq | hlt
        · have := hb a
          rw [memByte_of_all_gt ((a', b') :: m') a (by
            intro c hc
            rcases List.mem_cons.mp hc with rfl | hc
            · exact hlt
            · exact lt_trans hlt (hm'.2.1 c hc))] at this
          simp only [memByte, if_true] at this
          exact absurd this hm.1
        · exact heq
        · have := hb a'
          rw [memByte_of_all_gt ((a, b) :: m) a' (by
            intro c hc
            rcases List.mem_cons.mp hc with rfl | hc
            · exact hlt
            · exact lt_trans hlt (hm.2.1 c hc))] at this
          simp only [memByte, if_true] at this
          exact absurd this.symm hm'.1
      subst haa
      have hbb : b = b' := by simpa [memByte] using hb a
      subst hbb
      have : m = m' := ih m' hm.2.2 hm'.2.2 fun p => by
        by_cases hp : p = a
        · subst hp
          rw [memByte_of_all_gt m p hm.2.1, memByte_of_all_gt m' p hm'.2.1]
        · simpa [memByte, hp] using hb p
      rw [this]

end Sys2Proof.Machine
end

