-- ==== Sys2Proof/Laws/State.lean ====
section
/-! SUPPORT. What each update of the state does to each field, and the register file's laws: later proofs use these and
never unfold an update. -/

namespace Sys2Proof.Machine

/-! ### putReg -/

@[simp] theorem putReg_mem (s : State) (i : Reg) (v : Word) : (s.putReg i v).mem = s.mem := rfl
@[simp] theorem putReg_len (s : State) (i : Reg) (v : Word) : (s.putReg i v).len = s.len := rfl
@[simp] theorem putReg_eb (s : State) (i : Reg) (v : Word) : (s.putReg i v).eb = s.eb := rfl
@[simp] theorem putReg_rb (s : State) (i : Reg) (v : Word) : (s.putReg i v).rb = s.rb := rfl
@[simp] theorem putReg_sb (s : State) (i : Reg) (v : Word) : (s.putReg i v).sb = s.sb := rfl
@[simp] theorem putReg_x (s : State) (i : Reg) (v : Word) : (s.putReg i v).x = s.x.set i v := rfl
@[simp] theorem putReg_rip (s : State) (i : Reg) (v : Word) : (s.putReg i v).rip = s.rip := rfl
@[simp] theorem putReg_rflags (s : State) (i : Reg) (v : Word) : (s.putReg i v).rflags = s.rflags := rfl
@[simp] theorem putReg_fpr (s : State) (i : Reg) (v : Word) : (s.putReg i v).fpr = s.fpr := rfl
@[simp] theorem putReg_inuse (s : State) (i : Reg) (v : Word) : (s.putReg i v).inuse = s.inuse := rfl
@[simp] theorem putReg_top (s : State) (i : Reg) (v : Word) : (s.putReg i v).top = s.top := rfl
@[simp] theorem putReg_running (s : State) (i : Reg) (v : Word) : (s.putReg i v).running = s.running := rfl
@[simp] theorem putReg_suspendedRead (s : State) (i : Reg) (v : Word) : (s.putReg i v).suspendedRead = s.suspendedRead := rfl
@[simp] theorem putReg_error (s : State) (i : Reg) (v : Word) : (s.putReg i v).error = s.error := rfl
@[simp] theorem putReg_returnValue (s : State) (i : Reg) (v : Word) : (s.putReg i v).returnValue = s.returnValue := rfl
@[simp] theorem putReg_fd (s : State) (i : Reg) (v : Word) : (s.putReg i v).fd = s.fd := rfl
@[simp] theorem putReg_cfg (s : State) (i : Reg) (v : Word) : (s.putReg i v).cfg = s.cfg := rfl
@[simp] theorem putReg_hostCalls (s : State) (i : Reg) (v : Word) : (s.putReg i v).hostCalls = s.hostCalls := rfl
@[simp] theorem putReg_hostReplies (s : State) (i : Reg) (v : Word) : (s.putReg i v).hostReplies = s.hostReplies := rfl
@[simp] theorem putReg_draws (s : State) (i : Reg) (v : Word) : (s.putReg i v).draws = s.draws := rfl

/-! ### setReg -/

@[simp] theorem setReg_mem (s : State) (i : Reg) (w : Width) (v : BitVec w.bits) : (s.setReg i w v).mem = s.mem := rfl
@[simp] theorem setReg_len (s : State) (i : Reg) (w : Width) (v : BitVec w.bits) : (s.setReg i w v).len = s.len := rfl
@[simp] theorem setReg_eb (s : State) (i : Reg) (w : Width) (v : BitVec w.bits) : (s.setReg i w v).eb = s.eb := rfl
@[simp] theorem setReg_rb (s : State) (i : Reg) (w : Width) (v : BitVec w.bits) : (s.setReg i w v).rb = s.rb := rfl
@[simp] theorem setReg_sb (s : State) (i : Reg) (w : Width) (v : BitVec w.bits) : (s.setReg i w v).sb = s.sb := rfl
@[simp] theorem setReg_x (s : State) (i : Reg) (w : Width) (v : BitVec w.bits) : (s.setReg i w v).x = s.x.set i (subView (s.reg i) w v) := rfl
@[simp] theorem setReg_rip (s : State) (i : Reg) (w : Width) (v : BitVec w.bits) : (s.setReg i w v).rip = s.rip := rfl
@[simp] theorem setReg_rflags (s : State) (i : Reg) (w : Width) (v : BitVec w.bits) : (s.setReg i w v).rflags = s.rflags := rfl
@[simp] theorem setReg_fpr (s : State) (i : Reg) (w : Width) (v : BitVec w.bits) : (s.setReg i w v).fpr = s.fpr := rfl
@[simp] theorem setReg_inuse (s : State) (i : Reg) (w : Width) (v : BitVec w.bits) : (s.setReg i w v).inuse = s.inuse := rfl
@[simp] theorem setReg_top (s : State) (i : Reg) (w : Width) (v : BitVec w.bits) : (s.setReg i w v).top = s.top := rfl
@[simp] theorem setReg_running (s : State) (i : Reg) (w : Width) (v : BitVec w.bits) : (s.setReg i w v).running = s.running := rfl
@[simp] theorem setReg_suspendedRead (s : State) (i : Reg) (w : Width) (v : BitVec w.bits) : (s.setReg i w v).suspendedRead = s.suspendedRead := rfl
@[simp] theorem setReg_error (s : State) (i : Reg) (w : Width) (v : BitVec w.bits) : (s.setReg i w v).error = s.error := rfl
@[simp] theorem setReg_returnValue (s : State) (i : Reg) (w : Width) (v : BitVec w.bits) : (s.setReg i w v).returnValue = s.returnValue := rfl
@[simp] theorem setReg_fd (s : State) (i : Reg) (w : Width) (v : BitVec w.bits) : (s.setReg i w v).fd = s.fd := rfl
@[simp] theorem setReg_cfg (s : State) (i : Reg) (w : Width) (v : BitVec w.bits) : (s.setReg i w v).cfg = s.cfg := rfl
@[simp] theorem setReg_hostCalls (s : State) (i : Reg) (w : Width) (v : BitVec w.bits) : (s.setReg i w v).hostCalls = s.hostCalls := rfl
@[simp] theorem setReg_hostReplies (s : State) (i : Reg) (w : Width) (v : BitVec w.bits) : (s.setReg i w v).hostReplies = s.hostReplies := rfl
@[simp] theorem setReg_draws (s : State) (i : Reg) (w : Width) (v : BitVec w.bits) : (s.setReg i w v).draws = s.draws := rfl

/-! ### putBytes -/

@[simp] theorem putBytes_mem (s : State) (p : Nat) (bs : List Byte) : (s.putBytes p bs).mem = memSetBytes s.mem p bs := rfl
@[simp] theorem putBytes_len (s : State) (p : Nat) (bs : List Byte) : (s.putBytes p bs).len = s.len := rfl
@[simp] theorem putBytes_eb (s : State) (p : Nat) (bs : List Byte) : (s.putBytes p bs).eb = s.eb := rfl
@[simp] theorem putBytes_rb (s : State) (p : Nat) (bs : List Byte) : (s.putBytes p bs).rb = s.rb := rfl
@[simp] theorem putBytes_sb (s : State) (p : Nat) (bs : List Byte) : (s.putBytes p bs).sb = s.sb := rfl
@[simp] theorem putBytes_x (s : State) (p : Nat) (bs : List Byte) : (s.putBytes p bs).x = s.x := rfl
@[simp] theorem putBytes_rip (s : State) (p : Nat) (bs : List Byte) : (s.putBytes p bs).rip = s.rip := rfl
@[simp] theorem putBytes_rflags (s : State) (p : Nat) (bs : List Byte) : (s.putBytes p bs).rflags = s.rflags := rfl
@[simp] theorem putBytes_fpr (s : State) (p : Nat) (bs : List Byte) : (s.putBytes p bs).fpr = s.fpr := rfl
@[simp] theorem putBytes_inuse (s : State) (p : Nat) (bs : List Byte) : (s.putBytes p bs).inuse = s.inuse := rfl
@[simp] theorem putBytes_top (s : State) (p : Nat) (bs : List Byte) : (s.putBytes p bs).top = s.top := rfl
@[simp] theorem putBytes_running (s : State) (p : Nat) (bs : List Byte) : (s.putBytes p bs).running = s.running := rfl
@[simp] theorem putBytes_suspendedRead (s : State) (p : Nat) (bs : List Byte) : (s.putBytes p bs).suspendedRead = s.suspendedRead := rfl
@[simp] theorem putBytes_error (s : State) (p : Nat) (bs : List Byte) : (s.putBytes p bs).error = s.error := rfl
@[simp] theorem putBytes_returnValue (s : State) (p : Nat) (bs : List Byte) : (s.putBytes p bs).returnValue = s.returnValue := rfl
@[simp] theorem putBytes_fd (s : State) (p : Nat) (bs : List Byte) : (s.putBytes p bs).fd = s.fd := rfl
@[simp] theorem putBytes_cfg (s : State) (p : Nat) (bs : List Byte) : (s.putBytes p bs).cfg = s.cfg := rfl
@[simp] theorem putBytes_hostCalls (s : State) (p : Nat) (bs : List Byte) : (s.putBytes p bs).hostCalls = s.hostCalls := rfl
@[simp] theorem putBytes_hostReplies (s : State) (p : Nat) (bs : List Byte) : (s.putBytes p bs).hostReplies = s.hostReplies := rfl
@[simp] theorem putBytes_draws (s : State) (p : Nat) (bs : List Byte) : (s.putBytes p bs).draws = s.draws := rfl

/-! ### putValue -/

@[simp] theorem putValue_mem (s : State) (p n : Nat) (v : BitVec (8 * n)) : (s.putValue p n v).mem = memSetBytes s.mem p (leBytes n v.toNat) := rfl
@[simp] theorem putValue_len (s : State) (p n : Nat) (v : BitVec (8 * n)) : (s.putValue p n v).len = s.len := rfl
@[simp] theorem putValue_eb (s : State) (p n : Nat) (v : BitVec (8 * n)) : (s.putValue p n v).eb = s.eb := rfl
@[simp] theorem putValue_rb (s : State) (p n : Nat) (v : BitVec (8 * n)) : (s.putValue p n v).rb = s.rb := rfl
@[simp] theorem putValue_sb (s : State) (p n : Nat) (v : BitVec (8 * n)) : (s.putValue p n v).sb = s.sb := rfl
@[simp] theorem putValue_x (s : State) (p n : Nat) (v : BitVec (8 * n)) : (s.putValue p n v).x = s.x := rfl
@[simp] theorem putValue_rip (s : State) (p n : Nat) (v : BitVec (8 * n)) : (s.putValue p n v).rip = s.rip := rfl
@[simp] theorem putValue_rflags (s : State) (p n : Nat) (v : BitVec (8 * n)) : (s.putValue p n v).rflags = s.rflags := rfl
@[simp] theorem putValue_fpr (s : State) (p n : Nat) (v : BitVec (8 * n)) : (s.putValue p n v).fpr = s.fpr := rfl
@[simp] theorem putValue_inuse (s : State) (p n : Nat) (v : BitVec (8 * n)) : (s.putValue p n v).inuse = s.inuse := rfl
@[simp] theorem putValue_top (s : State) (p n : Nat) (v : BitVec (8 * n)) : (s.putValue p n v).top = s.top := rfl
@[simp] theorem putValue_running (s : State) (p n : Nat) (v : BitVec (8 * n)) : (s.putValue p n v).running = s.running := rfl
@[simp] theorem putValue_suspendedRead (s : State) (p n : Nat) (v : BitVec (8 * n)) : (s.putValue p n v).suspendedRead = s.suspendedRead := rfl
@[simp] theorem putValue_error (s : State) (p n : Nat) (v : BitVec (8 * n)) : (s.putValue p n v).error = s.error := rfl
@[simp] theorem putValue_returnValue (s : State) (p n : Nat) (v : BitVec (8 * n)) : (s.putValue p n v).returnValue = s.returnValue := rfl
@[simp] theorem putValue_fd (s : State) (p n : Nat) (v : BitVec (8 * n)) : (s.putValue p n v).fd = s.fd := rfl
@[simp] theorem putValue_cfg (s : State) (p n : Nat) (v : BitVec (8 * n)) : (s.putValue p n v).cfg = s.cfg := rfl
@[simp] theorem putValue_hostCalls (s : State) (p n : Nat) (v : BitVec (8 * n)) : (s.putValue p n v).hostCalls = s.hostCalls := rfl
@[simp] theorem putValue_hostReplies (s : State) (p n : Nat) (v : BitVec (8 * n)) : (s.putValue p n v).hostReplies = s.hostReplies := rfl
@[simp] theorem putValue_draws (s : State) (p n : Nat) (v : BitVec (8 * n)) : (s.putValue p n v).draws = s.draws := rfl

/-! ### mergeFlags -/

@[simp] theorem mergeFlags_mem (s : State) (f : FlagSet) : (s.mergeFlags f).mem = s.mem := rfl
@[simp] theorem mergeFlags_len (s : State) (f : FlagSet) : (s.mergeFlags f).len = s.len := rfl
@[simp] theorem mergeFlags_eb (s : State) (f : FlagSet) : (s.mergeFlags f).eb = s.eb := rfl
@[simp] theorem mergeFlags_rb (s : State) (f : FlagSet) : (s.mergeFlags f).rb = s.rb := rfl
@[simp] theorem mergeFlags_sb (s : State) (f : FlagSet) : (s.mergeFlags f).sb = s.sb := rfl
@[simp] theorem mergeFlags_x (s : State) (f : FlagSet) : (s.mergeFlags f).x = s.x := rfl
@[simp] theorem mergeFlags_rip (s : State) (f : FlagSet) : (s.mergeFlags f).rip = s.rip := rfl
@[simp] theorem mergeFlags_rflags (s : State) (f : FlagSet) : (s.mergeFlags f).rflags = Machine.mergeFlags f s.rflags := rfl
@[simp] theorem mergeFlags_fpr (s : State) (f : FlagSet) : (s.mergeFlags f).fpr = s.fpr := rfl
@[simp] theorem mergeFlags_inuse (s : State) (f : FlagSet) : (s.mergeFlags f).inuse = s.inuse := rfl
@[simp] theorem mergeFlags_top (s : State) (f : FlagSet) : (s.mergeFlags f).top = s.top := rfl
@[simp] theorem mergeFlags_running (s : State) (f : FlagSet) : (s.mergeFlags f).running = s.running := rfl
@[simp] theorem mergeFlags_suspendedRead (s : State) (f : FlagSet) : (s.mergeFlags f).suspendedRead = s.suspendedRead := rfl
@[simp] theorem mergeFlags_error (s : State) (f : FlagSet) : (s.mergeFlags f).error = s.error := rfl
@[simp] theorem mergeFlags_returnValue (s : State) (f : FlagSet) : (s.mergeFlags f).returnValue = s.returnValue := rfl
@[simp] theorem mergeFlags_fd (s : State) (f : FlagSet) : (s.mergeFlags f).fd = s.fd := rfl
@[simp] theorem mergeFlags_cfg (s : State) (f : FlagSet) : (s.mergeFlags f).cfg = s.cfg := rfl
@[simp] theorem mergeFlags_hostCalls (s : State) (f : FlagSet) : (s.mergeFlags f).hostCalls = s.hostCalls := rfl
@[simp] theorem mergeFlags_hostReplies (s : State) (f : FlagSet) : (s.mergeFlags f).hostReplies = s.hostReplies := rfl
@[simp] theorem mergeFlags_draws (s : State) (f : FlagSet) : (s.mergeFlags f).draws = s.draws := rfl

/-! ### jump -/

@[simp] theorem jump_mem (s : State) (t : Word) : (s.jump t).mem = s.mem := rfl
@[simp] theorem jump_len (s : State) (t : Word) : (s.jump t).len = s.len := rfl
@[simp] theorem jump_eb (s : State) (t : Word) : (s.jump t).eb = s.eb := rfl
@[simp] theorem jump_rb (s : State) (t : Word) : (s.jump t).rb = s.rb := rfl
@[simp] theorem jump_sb (s : State) (t : Word) : (s.jump t).sb = s.sb := rfl
@[simp] theorem jump_x (s : State) (t : Word) : (s.jump t).x = s.x := rfl
@[simp] theorem jump_rip (s : State) (t : Word) : (s.jump t).rip = t := rfl
@[simp] theorem jump_rflags (s : State) (t : Word) : (s.jump t).rflags = s.rflags := rfl
@[simp] theorem jump_fpr (s : State) (t : Word) : (s.jump t).fpr = s.fpr := rfl
@[simp] theorem jump_inuse (s : State) (t : Word) : (s.jump t).inuse = s.inuse := rfl
@[simp] theorem jump_top (s : State) (t : Word) : (s.jump t).top = s.top := rfl
@[simp] theorem jump_running (s : State) (t : Word) : (s.jump t).running = s.running := rfl
@[simp] theorem jump_suspendedRead (s : State) (t : Word) : (s.jump t).suspendedRead = s.suspendedRead := rfl
@[simp] theorem jump_error (s : State) (t : Word) : (s.jump t).error = s.error := rfl
@[simp] theorem jump_returnValue (s : State) (t : Word) : (s.jump t).returnValue = s.returnValue := rfl
@[simp] theorem jump_fd (s : State) (t : Word) : (s.jump t).fd = s.fd := rfl
@[simp] theorem jump_cfg (s : State) (t : Word) : (s.jump t).cfg = s.cfg := rfl
@[simp] theorem jump_hostCalls (s : State) (t : Word) : (s.jump t).hostCalls = s.hostCalls := rfl
@[simp] theorem jump_hostReplies (s : State) (t : Word) : (s.jump t).hostReplies = s.hostReplies := rfl
@[simp] theorem jump_draws (s : State) (t : Word) : (s.jump t).draws = s.draws := rfl

/-! ### putFpr -/

@[simp] theorem putFpr_mem (s : State) (j : BitVec 3) (v : Word) : (s.putFpr j v).mem = s.mem := rfl
@[simp] theorem putFpr_len (s : State) (j : BitVec 3) (v : Word) : (s.putFpr j v).len = s.len := rfl
@[simp] theorem putFpr_eb (s : State) (j : BitVec 3) (v : Word) : (s.putFpr j v).eb = s.eb := rfl
@[simp] theorem putFpr_rb (s : State) (j : BitVec 3) (v : Word) : (s.putFpr j v).rb = s.rb := rfl
@[simp] theorem putFpr_sb (s : State) (j : BitVec 3) (v : Word) : (s.putFpr j v).sb = s.sb := rfl
@[simp] theorem putFpr_x (s : State) (j : BitVec 3) (v : Word) : (s.putFpr j v).x = s.x := rfl
@[simp] theorem putFpr_rip (s : State) (j : BitVec 3) (v : Word) : (s.putFpr j v).rip = s.rip := rfl
@[simp] theorem putFpr_rflags (s : State) (j : BitVec 3) (v : Word) : (s.putFpr j v).rflags = s.rflags := rfl
@[simp] theorem putFpr_fpr (s : State) (j : BitVec 3) (v : Word) : (s.putFpr j v).fpr = s.fpr.set j.toFin v := rfl
@[simp] theorem putFpr_inuse (s : State) (j : BitVec 3) (v : Word) : (s.putFpr j v).inuse = s.inuse := rfl
@[simp] theorem putFpr_top (s : State) (j : BitVec 3) (v : Word) : (s.putFpr j v).top = s.top := rfl
@[simp] theorem putFpr_running (s : State) (j : BitVec 3) (v : Word) : (s.putFpr j v).running = s.running := rfl
@[simp] theorem putFpr_suspendedRead (s : State) (j : BitVec 3) (v : Word) : (s.putFpr j v).suspendedRead = s.suspendedRead := rfl
@[simp] theorem putFpr_error (s : State) (j : BitVec 3) (v : Word) : (s.putFpr j v).error = s.error := rfl
@[simp] theorem putFpr_returnValue (s : State) (j : BitVec 3) (v : Word) : (s.putFpr j v).returnValue = s.returnValue := rfl
@[simp] theorem putFpr_fd (s : State) (j : BitVec 3) (v : Word) : (s.putFpr j v).fd = s.fd := rfl
@[simp] theorem putFpr_cfg (s : State) (j : BitVec 3) (v : Word) : (s.putFpr j v).cfg = s.cfg := rfl
@[simp] theorem putFpr_hostCalls (s : State) (j : BitVec 3) (v : Word) : (s.putFpr j v).hostCalls = s.hostCalls := rfl
@[simp] theorem putFpr_hostReplies (s : State) (j : BitVec 3) (v : Word) : (s.putFpr j v).hostReplies = s.hostReplies := rfl
@[simp] theorem putFpr_draws (s : State) (j : BitVec 3) (v : Word) : (s.putFpr j v).draws = s.draws := rfl

/-! ### putInuse -/

@[simp] theorem putInuse_mem (s : State) (j : BitVec 3) (b : Bool) : (s.putInuse j b).mem = s.mem := rfl
@[simp] theorem putInuse_len (s : State) (j : BitVec 3) (b : Bool) : (s.putInuse j b).len = s.len := rfl
@[simp] theorem putInuse_eb (s : State) (j : BitVec 3) (b : Bool) : (s.putInuse j b).eb = s.eb := rfl
@[simp] theorem putInuse_rb (s : State) (j : BitVec 3) (b : Bool) : (s.putInuse j b).rb = s.rb := rfl
@[simp] theorem putInuse_sb (s : State) (j : BitVec 3) (b : Bool) : (s.putInuse j b).sb = s.sb := rfl
@[simp] theorem putInuse_x (s : State) (j : BitVec 3) (b : Bool) : (s.putInuse j b).x = s.x := rfl
@[simp] theorem putInuse_rip (s : State) (j : BitVec 3) (b : Bool) : (s.putInuse j b).rip = s.rip := rfl
@[simp] theorem putInuse_rflags (s : State) (j : BitVec 3) (b : Bool) : (s.putInuse j b).rflags = s.rflags := rfl
@[simp] theorem putInuse_fpr (s : State) (j : BitVec 3) (b : Bool) : (s.putInuse j b).fpr = s.fpr := rfl
@[simp] theorem putInuse_inuse (s : State) (j : BitVec 3) (b : Bool) : (s.putInuse j b).inuse = s.inuse.set j.toFin b := rfl
@[simp] theorem putInuse_top (s : State) (j : BitVec 3) (b : Bool) : (s.putInuse j b).top = s.top := rfl
@[simp] theorem putInuse_running (s : State) (j : BitVec 3) (b : Bool) : (s.putInuse j b).running = s.running := rfl
@[simp] theorem putInuse_suspendedRead (s : State) (j : BitVec 3) (b : Bool) : (s.putInuse j b).suspendedRead = s.suspendedRead := rfl
@[simp] theorem putInuse_error (s : State) (j : BitVec 3) (b : Bool) : (s.putInuse j b).error = s.error := rfl
@[simp] theorem putInuse_returnValue (s : State) (j : BitVec 3) (b : Bool) : (s.putInuse j b).returnValue = s.returnValue := rfl
@[simp] theorem putInuse_fd (s : State) (j : BitVec 3) (b : Bool) : (s.putInuse j b).fd = s.fd := rfl
@[simp] theorem putInuse_cfg (s : State) (j : BitVec 3) (b : Bool) : (s.putInuse j b).cfg = s.cfg := rfl
@[simp] theorem putInuse_hostCalls (s : State) (j : BitVec 3) (b : Bool) : (s.putInuse j b).hostCalls = s.hostCalls := rfl
@[simp] theorem putInuse_hostReplies (s : State) (j : BitVec 3) (b : Bool) : (s.putInuse j b).hostReplies = s.hostReplies := rfl
@[simp] theorem putInuse_draws (s : State) (j : BitVec 3) (b : Bool) : (s.putInuse j b).draws = s.draws := rfl

/-! ### putFd -/

@[simp] theorem putFd_mem (s : State) (k : Nat) (f : FdSlot) : (s.putFd k f).mem = s.mem := rfl
@[simp] theorem putFd_len (s : State) (k : Nat) (f : FdSlot) : (s.putFd k f).len = s.len := rfl
@[simp] theorem putFd_eb (s : State) (k : Nat) (f : FdSlot) : (s.putFd k f).eb = s.eb := rfl
@[simp] theorem putFd_rb (s : State) (k : Nat) (f : FdSlot) : (s.putFd k f).rb = s.rb := rfl
@[simp] theorem putFd_sb (s : State) (k : Nat) (f : FdSlot) : (s.putFd k f).sb = s.sb := rfl
@[simp] theorem putFd_x (s : State) (k : Nat) (f : FdSlot) : (s.putFd k f).x = s.x := rfl
@[simp] theorem putFd_rip (s : State) (k : Nat) (f : FdSlot) : (s.putFd k f).rip = s.rip := rfl
@[simp] theorem putFd_rflags (s : State) (k : Nat) (f : FdSlot) : (s.putFd k f).rflags = s.rflags := rfl
@[simp] theorem putFd_fpr (s : State) (k : Nat) (f : FdSlot) : (s.putFd k f).fpr = s.fpr := rfl
@[simp] theorem putFd_inuse (s : State) (k : Nat) (f : FdSlot) : (s.putFd k f).inuse = s.inuse := rfl
@[simp] theorem putFd_top (s : State) (k : Nat) (f : FdSlot) : (s.putFd k f).top = s.top := rfl
@[simp] theorem putFd_running (s : State) (k : Nat) (f : FdSlot) : (s.putFd k f).running = s.running := rfl
@[simp] theorem putFd_suspendedRead (s : State) (k : Nat) (f : FdSlot) : (s.putFd k f).suspendedRead = s.suspendedRead := rfl
@[simp] theorem putFd_error (s : State) (k : Nat) (f : FdSlot) : (s.putFd k f).error = s.error := rfl
@[simp] theorem putFd_returnValue (s : State) (k : Nat) (f : FdSlot) : (s.putFd k f).returnValue = s.returnValue := rfl
@[simp] theorem putFd_fd (s : State) (k : Nat) (f : FdSlot) : (s.putFd k f).fd = s.fd.set k f := rfl
@[simp] theorem putFd_cfg (s : State) (k : Nat) (f : FdSlot) : (s.putFd k f).cfg = s.cfg := rfl
@[simp] theorem putFd_hostCalls (s : State) (k : Nat) (f : FdSlot) : (s.putFd k f).hostCalls = s.hostCalls := rfl
@[simp] theorem putFd_hostReplies (s : State) (k : Nat) (f : FdSlot) : (s.putFd k f).hostReplies = s.hostReplies := rfl
@[simp] theorem putFd_draws (s : State) (k : Nat) (f : FdSlot) : (s.putFd k f).draws = s.draws := rfl

/-! ### advanceTo -/

@[simp] theorem advanceTo_mem (s : State) (rest : List Byte) : (s.advanceTo rest).mem = s.mem := rfl
@[simp] theorem advanceTo_len (s : State) (rest : List Byte) : (s.advanceTo rest).len = s.len := rfl
@[simp] theorem advanceTo_eb (s : State) (rest : List Byte) : (s.advanceTo rest).eb = s.eb := rfl
@[simp] theorem advanceTo_rb (s : State) (rest : List Byte) : (s.advanceTo rest).rb = s.rb := rfl
@[simp] theorem advanceTo_sb (s : State) (rest : List Byte) : (s.advanceTo rest).sb = s.sb := rfl
@[simp] theorem advanceTo_x (s : State) (rest : List Byte) : (s.advanceTo rest).x = s.x := rfl
@[simp] theorem advanceTo_rip (s : State) (rest : List Byte) : (s.advanceTo rest).rip = s.rip + BitVec.ofNat 64 ((fetchWindow maxInstrBytes s).length - rest.length) := rfl
@[simp] theorem advanceTo_rflags (s : State) (rest : List Byte) : (s.advanceTo rest).rflags = s.rflags := rfl
@[simp] theorem advanceTo_fpr (s : State) (rest : List Byte) : (s.advanceTo rest).fpr = s.fpr := rfl
@[simp] theorem advanceTo_inuse (s : State) (rest : List Byte) : (s.advanceTo rest).inuse = s.inuse := rfl
@[simp] theorem advanceTo_top (s : State) (rest : List Byte) : (s.advanceTo rest).top = s.top := rfl
@[simp] theorem advanceTo_running (s : State) (rest : List Byte) : (s.advanceTo rest).running = s.running := rfl
@[simp] theorem advanceTo_suspendedRead (s : State) (rest : List Byte) : (s.advanceTo rest).suspendedRead = s.suspendedRead := rfl
@[simp] theorem advanceTo_error (s : State) (rest : List Byte) : (s.advanceTo rest).error = s.error := rfl
@[simp] theorem advanceTo_returnValue (s : State) (rest : List Byte) : (s.advanceTo rest).returnValue = s.returnValue := rfl
@[simp] theorem advanceTo_fd (s : State) (rest : List Byte) : (s.advanceTo rest).fd = s.fd := rfl
@[simp] theorem advanceTo_cfg (s : State) (rest : List Byte) : (s.advanceTo rest).cfg = s.cfg := rfl
@[simp] theorem advanceTo_hostCalls (s : State) (rest : List Byte) : (s.advanceTo rest).hostCalls = s.hostCalls := rfl
@[simp] theorem advanceTo_hostReplies (s : State) (rest : List Byte) : (s.advanceTo rest).hostReplies = s.hostReplies := rfl
@[simp] theorem advanceTo_draws (s : State) (rest : List Byte) : (s.advanceTo rest).draws = s.draws := rfl

/-! ### closeAllFds -/

@[simp] theorem closeAllFds_mem (s : State) : (closeAllFds s).mem = s.mem := rfl
@[simp] theorem closeAllFds_len (s : State) : (closeAllFds s).len = s.len := rfl
@[simp] theorem closeAllFds_eb (s : State) : (closeAllFds s).eb = s.eb := rfl
@[simp] theorem closeAllFds_rb (s : State) : (closeAllFds s).rb = s.rb := rfl
@[simp] theorem closeAllFds_sb (s : State) : (closeAllFds s).sb = s.sb := rfl
@[simp] theorem closeAllFds_x (s : State) : (closeAllFds s).x = s.x := rfl
@[simp] theorem closeAllFds_rip (s : State) : (closeAllFds s).rip = s.rip := rfl
@[simp] theorem closeAllFds_rflags (s : State) : (closeAllFds s).rflags = s.rflags := rfl
@[simp] theorem closeAllFds_fpr (s : State) : (closeAllFds s).fpr = s.fpr := rfl
@[simp] theorem closeAllFds_inuse (s : State) : (closeAllFds s).inuse = s.inuse := rfl
@[simp] theorem closeAllFds_top (s : State) : (closeAllFds s).top = s.top := rfl
@[simp] theorem closeAllFds_running (s : State) : (closeAllFds s).running = s.running := rfl
@[simp] theorem closeAllFds_suspendedRead (s : State) : (closeAllFds s).suspendedRead = s.suspendedRead := rfl
@[simp] theorem closeAllFds_error (s : State) : (closeAllFds s).error = s.error := rfl
@[simp] theorem closeAllFds_returnValue (s : State) : (closeAllFds s).returnValue = s.returnValue := rfl
@[simp] theorem closeAllFds_fd (s : State) : (closeAllFds s).fd = s.fd.map closedSlot := rfl
@[simp] theorem closeAllFds_cfg (s : State) : (closeAllFds s).cfg = s.cfg := rfl
@[simp] theorem closeAllFds_hostCalls (s : State) : (closeAllFds s).hostCalls = (closeCalls s.fd).reverse ++ s.hostCalls := rfl
@[simp] theorem closeAllFds_hostReplies (s : State) : (closeAllFds s).hostReplies = s.hostReplies := rfl
@[simp] theorem closeAllFds_draws (s : State) : (closeAllFds s).draws = s.draws := rfl

/-! ### drawAf_state -/

@[simp] theorem drawAf_state_mem (s : State) : (drawAf s).2.mem = s.mem := rfl
@[simp] theorem drawAf_state_len (s : State) : (drawAf s).2.len = s.len := rfl
@[simp] theorem drawAf_state_eb (s : State) : (drawAf s).2.eb = s.eb := rfl
@[simp] theorem drawAf_state_rb (s : State) : (drawAf s).2.rb = s.rb := rfl
@[simp] theorem drawAf_state_sb (s : State) : (drawAf s).2.sb = s.sb := rfl
@[simp] theorem drawAf_state_x (s : State) : (drawAf s).2.x = s.x := rfl
@[simp] theorem drawAf_state_rip (s : State) : (drawAf s).2.rip = s.rip := rfl
@[simp] theorem drawAf_state_rflags (s : State) : (drawAf s).2.rflags = s.rflags := rfl
@[simp] theorem drawAf_state_fpr (s : State) : (drawAf s).2.fpr = s.fpr := rfl
@[simp] theorem drawAf_state_inuse (s : State) : (drawAf s).2.inuse = s.inuse := rfl
@[simp] theorem drawAf_state_top (s : State) : (drawAf s).2.top = s.top := rfl
@[simp] theorem drawAf_state_running (s : State) : (drawAf s).2.running = s.running := rfl
@[simp] theorem drawAf_state_suspendedRead (s : State) : (drawAf s).2.suspendedRead = s.suspendedRead := rfl
@[simp] theorem drawAf_state_error (s : State) : (drawAf s).2.error = s.error := rfl
@[simp] theorem drawAf_state_returnValue (s : State) : (drawAf s).2.returnValue = s.returnValue := rfl
@[simp] theorem drawAf_state_fd (s : State) : (drawAf s).2.fd = s.fd := rfl
@[simp] theorem drawAf_state_cfg (s : State) : (drawAf s).2.cfg = s.cfg := rfl
@[simp] theorem drawAf_state_hostCalls (s : State) : (drawAf s).2.hostCalls = s.hostCalls := rfl
@[simp] theorem drawAf_state_hostReplies (s : State) : (drawAf s).2.hostReplies = s.hostReplies := rfl
@[simp] theorem drawAf_state_draws (s : State) : (drawAf s).2.draws = s.draws + 1 := rfl

/-! ### askHost -/

@[simp] theorem askHost_mem (c : HostCall) (s : State) : (askHost c s).2.mem = s.mem := by
  unfold askHost; split <;> rfl
@[simp] theorem askHost_len (c : HostCall) (s : State) : (askHost c s).2.len = s.len := by
  unfold askHost; split <;> rfl
@[simp] theorem askHost_eb (c : HostCall) (s : State) : (askHost c s).2.eb = s.eb := by
  unfold askHost; split <;> rfl
@[simp] theorem askHost_rb (c : HostCall) (s : State) : (askHost c s).2.rb = s.rb := by
  unfold askHost; split <;> rfl
@[simp] theorem askHost_sb (c : HostCall) (s : State) : (askHost c s).2.sb = s.sb := by
  unfold askHost; split <;> rfl
@[simp] theorem askHost_x (c : HostCall) (s : State) : (askHost c s).2.x = s.x := by
  unfold askHost; split <;> rfl
@[simp] theorem askHost_rip (c : HostCall) (s : State) : (askHost c s).2.rip = s.rip := by
  unfold askHost; split <;> rfl
@[simp] theorem askHost_rflags (c : HostCall) (s : State) : (askHost c s).2.rflags = s.rflags := by
  unfold askHost; split <;> rfl
@[simp] theorem askHost_fpr (c : HostCall) (s : State) : (askHost c s).2.fpr = s.fpr := by
  unfold askHost; split <;> rfl
@[simp] theorem askHost_inuse (c : HostCall) (s : State) : (askHost c s).2.inuse = s.inuse := by
  unfold askHost; split <;> rfl
@[simp] theorem askHost_top (c : HostCall) (s : State) : (askHost c s).2.top = s.top := by
  unfold askHost; split <;> rfl
@[simp] theorem askHost_running (c : HostCall) (s : State) : (askHost c s).2.running = s.running := by
  unfold askHost; split <;> rfl
@[simp] theorem askHost_suspendedRead (c : HostCall) (s : State) : (askHost c s).2.suspendedRead = s.suspendedRead := by
  unfold askHost; split <;> rfl
@[simp] theorem askHost_error (c : HostCall) (s : State) : (askHost c s).2.error = s.error := by
  unfold askHost; split <;> rfl
@[simp] theorem askHost_returnValue (c : HostCall) (s : State) : (askHost c s).2.returnValue = s.returnValue := by
  unfold askHost; split <;> rfl
@[simp] theorem askHost_fd (c : HostCall) (s : State) : (askHost c s).2.fd = s.fd := by
  unfold askHost; split <;> rfl
@[simp] theorem askHost_cfg (c : HostCall) (s : State) : (askHost c s).2.cfg = s.cfg := by
  unfold askHost; split <;> rfl
@[simp] theorem askHost_draws (c : HostCall) (s : State) : (askHost c s).2.draws = s.draws := by
  unfold askHost; split <;> rfl
@[simp] theorem askHost_hostCalls (c : HostCall) (s : State) : (askHost c s).2.hostCalls = c :: s.hostCalls := by
  unfold askHost; split <;> rfl
@[simp] theorem askHost_hostReplies (c : HostCall) (s : State) : (askHost c s).2.hostReplies = s.hostReplies.tail := by
  unfold askHost; split <;> rename_i h <;> simp [h]
/-- The host's answer: the next one lined up, else the free value of the history of calls. -/
theorem askHost_reply (c : HostCall) (s : State) :
    (askHost c s).1 = s.hostReplies.head?.getD (Config.hostReply (c :: s.hostCalls)) := by
  unfold askHost; split <;> rename_i h <;> simp [h]

/-! ### The register file -/

/-- A register after a write of one register. -/
@[simp] theorem putReg_reg (s : State) (i j : Reg) (v : Word) :
    (s.putReg i v).reg j = if j = i then v else s.reg j := by
  simp only [State.reg, State.putReg, Fin.getElem_fin]
  rw [Vector.getElem_set]
  by_cases h : j = i
  · simp [h]
  · have : ¬ i.val = j.val := fun e => h (Fin.ext e.symm)
    simp [h, this]

@[simp] theorem setReg_reg (s : State) (i j : Reg) (w : Width) (v : BitVec w.bits) :
    (s.setReg i w v).reg j = if j = i then subView (s.reg i) w v else s.reg j := putReg_reg s i j _

theorem reg_congr (s t : State) (h : t.x = s.x) (j : Reg) : t.reg j = s.reg j := by simp [State.reg, h]
theorem byte_congr (s t : State) (h : t.mem = s.mem) (p : Nat) : t.byte p = s.byte p := by simp [State.byte, h]

@[simp] theorem putReg_byte (s : State) (i : Reg) (v : Word) (a : Nat) : (s.putReg i v).byte a = s.byte a := rfl
@[simp] theorem setReg_byte (s : State) (i : Reg) (w : Width) (v : BitVec w.bits) (a : Nat) : (s.setReg i w v).byte a = s.byte a := rfl
@[simp] theorem putBytes_reg (s : State) (p : Nat) (bs : List Byte) (k : Reg) : (s.putBytes p bs).reg k = s.reg k := rfl
@[simp] theorem putValue_reg (s : State) (p n : Nat) (v : BitVec (8 * n)) (k : Reg) : (s.putValue p n v).reg k = s.reg k := rfl
@[simp] theorem mergeFlags_reg (s : State) (f : FlagSet) (k : Reg) : (s.mergeFlags f).reg k = s.reg k := rfl
@[simp] theorem mergeFlags_byte (s : State) (f : FlagSet) (a : Nat) : (s.mergeFlags f).byte a = s.byte a := rfl
@[simp] theorem jump_reg (s : State) (t : Word) (k : Reg) : (s.jump t).reg k = s.reg k := rfl
@[simp] theorem jump_byte (s : State) (t : Word) (a : Nat) : (s.jump t).byte a = s.byte a := rfl
@[simp] theorem putFpr_reg (s : State) (j : BitVec 3) (v : Word) (k : Reg) : (s.putFpr j v).reg k = s.reg k := rfl
@[simp] theorem putFpr_byte (s : State) (j : BitVec 3) (v : Word) (a : Nat) : (s.putFpr j v).byte a = s.byte a := rfl
@[simp] theorem putInuse_reg (s : State) (j : BitVec 3) (b : Bool) (k : Reg) : (s.putInuse j b).reg k = s.reg k := rfl
@[simp] theorem putInuse_byte (s : State) (j : BitVec 3) (b : Bool) (a : Nat) : (s.putInuse j b).byte a = s.byte a := rfl
@[simp] theorem putFd_reg (s : State) (q : Nat) (f : FdSlot) (k : Reg) : (s.putFd q f).reg k = s.reg k := rfl
@[simp] theorem putFd_byte (s : State) (k : Nat) (f : FdSlot) (a : Nat) : (s.putFd k f).byte a = s.byte a := rfl
@[simp] theorem advanceTo_reg (s : State) (rest : List Byte) (k : Reg) : (s.advanceTo rest).reg k = s.reg k := rfl
@[simp] theorem advanceTo_byte (s : State) (rest : List Byte) (a : Nat) : (s.advanceTo rest).byte a = s.byte a := rfl
@[simp] theorem closeAllFds_reg (s : State) (k : Reg) : (closeAllFds s).reg k = s.reg k := rfl
@[simp] theorem closeAllFds_byte (s : State) (a : Nat) : (closeAllFds s).byte a = s.byte a := rfl
@[simp] theorem drawAf_state_reg (s : State) (k : Reg) : (drawAf s).2.reg k = s.reg k := rfl
@[simp] theorem drawAf_state_byte (s : State) (a : Nat) : (drawAf s).2.byte a = s.byte a := rfl
@[simp] theorem askHost_reg (c : HostCall) (s : State) (k : Reg) : (askHost c s).2.reg k = s.reg k := by simp [State.reg]
@[simp] theorem askHost_byte (c : HostCall) (s : State) (a : Nat) : (askHost c s).2.byte a = s.byte a := by simp [State.byte]

/-! ### The FPU slots -/

@[simp] theorem putFpr_fprAt (s : State) (j k : BitVec 3) (v : Word) :
    (s.putFpr j v).fprAt k = if k = j then v else s.fprAt k := by
  simp only [State.fprAt, State.putFpr, Fin.getElem_fin]
  rw [Vector.getElem_set]
  by_cases h : k = j
  · simp [h]
  · have : ¬ j.toNat = k.toNat := fun e => h (BitVec.eq_of_toNat_eq e.symm)
    simp [h, this]
@[simp] theorem putInuse_inuseAt (s : State) (j k : BitVec 3) (b : Bool) :
    (s.putInuse j b).inuseAt k = if k = j then b else s.inuseAt k := by
  simp only [State.inuseAt, State.putInuse, Fin.getElem_fin]
  rw [Vector.getElem_set]
  by_cases h : k = j
  · simp [h]
  · have : ¬ j.toNat = k.toNat := fun e => h (BitVec.eq_of_toNat_eq e.symm)
    simp [h, this]
@[simp] theorem putFpr_inuseAt (s : State) (j k : BitVec 3) (v : Word) : (s.putFpr j v).inuseAt k = s.inuseAt k := rfl
@[simp] theorem putInuse_fprAt (s : State) (j k : BitVec 3) (b : Bool) : (s.putInuse j b).fprAt k = s.fprAt k := rfl

/-! ### The configuration a syscall reads -/

@[simp] theorem putReg_nfd (s : State) (i : Reg) (v : Word) : (s.putReg i v).nfd = s.nfd := rfl
@[simp] theorem putReg_resultReg (s : State) (i : Reg) (v : Word) : (s.putReg i v).resultReg = s.resultReg := rfl
@[simp] theorem putBytes_nfd (s : State) (p : Nat) (bs : List Byte) : (s.putBytes p bs).nfd = s.nfd := rfl
@[simp] theorem putBytes_resultReg (s : State) (p : Nat) (bs : List Byte) : (s.putBytes p bs).resultReg = s.resultReg := rfl
@[simp] theorem advanceTo_nfd (s : State) (rest : List Byte) : (s.advanceTo rest).nfd = s.nfd := rfl
@[simp] theorem advanceTo_resultReg (s : State) (rest : List Byte) : (s.advanceTo rest).resultReg = s.resultReg := rfl
@[simp] theorem putFd_nfd (s : State) (k : Nat) (f : FdSlot) : (s.putFd k f).nfd = s.nfd := List.length_set
@[simp] theorem putFd_resultReg (s : State) (k : Nat) (f : FdSlot) : (s.putFd k f).resultReg = s.resultReg := rfl
@[simp] theorem closeAllFds_nfd (s : State) : (closeAllFds s).nfd = s.nfd := List.length_map _
@[simp] theorem askHost_nfd (c : HostCall) (s : State) : (askHost c s).2.nfd = s.nfd := by simp [State.nfd]
@[simp] theorem askHost_resultReg (c : HostCall) (s : State) : (askHost c s).2.resultReg = s.resultReg := by
  simp [State.resultReg]
@[simp] theorem askHost_arg0 (c : HostCall) (s : State) : (askHost c s).2.arg0 = s.arg0 := by simp [State.arg0]
@[simp] theorem askHost_arg1 (c : HostCall) (s : State) : (askHost c s).2.arg1 = s.arg1 := by simp [State.arg1]
@[simp] theorem askHost_arg2 (c : HostCall) (s : State) : (askHost c s).2.arg2 = s.arg2 := by simp [State.arg2]

/-! ### The FD table -/

@[simp] theorem putReg_fdAt (s : State) (i : Reg) (v : Word) (k : Nat) : (s.putReg i v).fdAt k = s.fdAt k := rfl
@[simp] theorem putBytes_fdAt (s : State) (p : Nat) (bs : List Byte) (k : Nat) : (s.putBytes p bs).fdAt k = s.fdAt k := rfl
@[simp] theorem askHost_fdAt (c : HostCall) (s : State) (k : Nat) : (askHost c s).2.fdAt k = s.fdAt k := by
  simp [State.fdAt]

@[simp] theorem putFd_fdAt (s : State) (k j : Nat) (f : FdSlot) :
    (s.putFd k f).fdAt j = if k = j ∧ k < s.nfd then f else s.fdAt j := by
  unfold State.fdAt State.putFd State.nfd
  by_cases h : k = j
  · subst h
    by_cases hl : k < s.fd.length <;> simp [List.getD_eq_getElem?_getD, hl]
  · simp [List.getD_eq_getElem?_getD, h]
@[simp] theorem closeAllFds_fdAt (s : State) (k : Nat) : (closeAllFds s).fdAt k = closedSlot (s.fdAt k) := by
  unfold State.fdAt closeAllFds
  by_cases hl : k < s.fd.length <;> simp [List.getD_eq_getElem?_getD, hl, closedSlot, FdSlot.free]

end Sys2Proof.Machine
end

