-- ==== Sys2Proof/Laws/Ops.lean ====
section
/-! SUPPORT. One lemma per shared operation that says everything it can do; later proofs cite these and do not unfold the
operation. -/

namespace Sys2Proof.Machine

/-! ### Sequencing -/

@[simp] theorem Res.bind_done {α β : Type} (v : α) (s : State) (k : α → State → Res β) :
    (Res.done v s).bind k = k v s := rfl
@[simp] theorem Res.bind_raised {α β : Type} (e : ErrorCode) (s : State) (k : α → State → Res β) :
    (Res.raised e s : Res α).bind k = .raised e s := rfl
@[simp] theorem Res.finish_done (s : State) : (Res.done () s).finish = .next s := rfl
@[simp] theorem Res.finish_raised (e : ErrorCode) (s : State) : (Res.raised e s).finish = .next (terminate e s) := rfl

/-! ### Registers -/

/-- Writing an 8-byte value replaces the register. -/
@[simp] theorem subView_w8 (old : Word) (v : BitVec (Width.bits .w8)) : subView old .w8 v = v := by
  exact BitVec.setWidth_eq v

/-! ### Memory -/

@[simp] theorem bytes_length (s : State) (p n : Nat) : (s.bytes p n).length = n := by simp [State.bytes]

theorem bytes_getElem (s : State) (p n k : Nat) (h : k < (s.bytes p n).length) :
    (s.bytes p n)[k] = s.byte (p + k) := by simp [State.bytes]

/-- Bytes that read alike give equal byte strings. -/
theorem bytes_congr (s t : State) (p n : Nat) (h : ∀ k, k < n → t.byte (p + k) = s.byte (p + k)) :
    t.bytes p n = s.bytes p n := by
  apply List.map_congr_left
  intro k hk
  exact h k (List.mem_range.mp hk)

/-- Bytes that read alike give equal values. -/
theorem value_congr (s t : State) (p n : Nat) (h : ∀ k, k < n → t.byte (p + k) = s.byte (p + k)) :
    t.value p n = s.value p n := by simp only [State.value, bytes_congr s t p n h]

/-- A byte after a store of bytes. -/
theorem putBytes_byte (s : State) (p a : Nat) (bs : List Byte) :
    (s.putBytes p bs).byte a = if h : p ≤ a ∧ a < p + bs.length then bs[a - p]'(by omega) else s.byte a :=
  memByte_memSetBytes s.mem p a bs

theorem putBytes_byte_outside (s : State) (p a : Nat) (bs : List Byte) (h : a < p ∨ p + bs.length ≤ a) :
    (s.putBytes p bs).byte a = s.byte a := memByte_memSetBytes_outside s.mem p a bs h

theorem putBytes_byte_inside (s : State) (p k : Nat) (bs : List Byte) (h : k < bs.length) :
    (s.putBytes p bs).byte (p + k) = bs[k] := by
  rw [putBytes_byte, dif_pos (by omega)]
  simp

/-- The bytes just stored read back. -/
theorem putBytes_bytes (s : State) (p : Nat) (bs : List Byte) : (s.putBytes p bs).bytes p bs.length = bs := by
  apply List.ext_getElem
  · simp
  · intro k h1 h2
    rw [bytes_getElem, putBytes_byte_inside _ _ _ _ h2]

theorem putValue_byte_outside (s : State) (p n a : Nat) (v : BitVec (8 * n)) (h : a < p ∨ p + n ≤ a) :
    (s.putValue p n v).byte a = s.byte a := putBytes_byte_outside s p a _ (by simpa using h)

/-- The k-th byte of a stored value (20_memory.md R64). -/
theorem putValue_byte_inside (s : State) (p n k : Nat) (v : BitVec (8 * n)) (h : k < n) :
    (s.putValue p n v).byte (p + k) = v.extractLsb' (8 * k) 8 := by
  unfold State.putValue
  rw [putBytes_byte_inside _ _ _ _ (by simpa using h), leBytes_getElem]
  apply BitVec.eq_of_toNat_eq
  simp [BitVec.extractLsb'_toNat, Nat.shiftRight_eq_div_pow]

/-- A stored value reads back (20_memory.md R81). -/
@[simp] theorem putValue_value (s : State) (p n : Nat) (v : BitVec (8 * n)) : (s.putValue p n v).value p n = v := by
  have h := putBytes_bytes s p (leBytes n v.toNat)
  rw [leBytes_length] at h
  unfold State.value State.putValue
  rw [h, leNat_leBytes, Nat.mod_eq_of_lt v.isLt]
  simp

/-- A value elsewhere is as before. -/
theorem putValue_value_outside (s : State) (p n q m : Nat) (v : BitVec (8 * n)) (h : q + m ≤ p ∨ p + n ≤ q) :
    (s.putValue p n v).value q m = s.value q m :=
  value_congr _ _ _ _ fun k hk => putValue_byte_outside s p n (q + k) v (by omega)

/-- MemRead (20_memory.md R63) does one of two things. -/
theorem memRead_cases (p n : Nat) (s : State) :
    (p + n ≤ s.len.toNat ∧ memRead p n s = .done (s.value p n) s) ∨
    (s.len.toNat < p + n ∧ memRead p n s = .raised .outOfBounds s) := by
  unfold memRead State.inBounds
  by_cases h : p + n ≤ s.len.toNat
  · exact .inl ⟨h, by simp [h]⟩
  · exact .inr ⟨by omega, by simp [h]⟩

theorem memRead_done (p n : Nat) (s : State) (h : p + n ≤ s.len.toNat) : memRead p n s = .done (s.value p n) s := by
  rcases memRead_cases p n s with ⟨_, e⟩ | ⟨h', _⟩
  · exact e
  · omega

theorem memRead_raised (p n : Nat) (s : State) (h : s.len.toNat < p + n) : memRead p n s = .raised .outOfBounds s := by
  rcases memRead_cases p n s with ⟨h', _⟩ | ⟨_, e⟩
  · omega
  · exact e

/-- The checks of a write (R64) end in one of three ways. -/
theorem checkWrite_cases (p n : Nat) (s : State) :
    (p < s.rb.toNat ∧ checkWrite p n s = .raised .accessViolation s) ∨
    (s.rb.toNat ≤ p ∧ s.len.toNat < p + n ∧ checkWrite p n s = .raised .outOfBounds s) ∨
    (s.rb.toNat ≤ p ∧ p + n ≤ s.len.toNat ∧ checkWrite p n s = .done () s) := by
  unfold checkWrite State.inBounds
  by_cases h1 : p < s.rb.toNat
  · exact .inl ⟨h1, by simp [h1]⟩
  · by_cases h2 : p + n ≤ s.len.toNat
    · exact .inr (.inr ⟨by omega, h2, by simp [h1, h2]⟩)
    · exact .inr (.inl ⟨by omega, by omega, by simp [h1, h2]⟩)

/-- MemWrite (R64) does one of three things. -/
theorem memWrite_cases (p n : Nat) (v : BitVec (8 * n)) (s : State) :
    (p < s.rb.toNat ∧ memWrite p n v s = .raised .accessViolation s) ∨
    (s.rb.toNat ≤ p ∧ s.len.toNat < p + n ∧ memWrite p n v s = .raised .outOfBounds s) ∨
    (s.rb.toNat ≤ p ∧ p + n ≤ s.len.toNat ∧ memWrite p n v s = .done () (s.putValue p n v)) := by
  unfold memWrite
  rcases checkWrite_cases p n s with ⟨h, e⟩ | ⟨h1, h2, e⟩ | ⟨h1, h2, e⟩
  · exact .inl ⟨h, by rw [e]; rfl⟩
  · exact .inr (.inl ⟨h1, h2, by rw [e]; rfl⟩)
  · exact .inr (.inr ⟨h1, h2, by rw [e]; rfl⟩)

theorem memWrite_done (p n : Nat) (v : BitVec (8 * n)) (s : State) (h1 : s.rb.toNat ≤ p) (h2 : p + n ≤ s.len.toNat) :
    memWrite p n v s = .done () (s.putValue p n v) := by
  rcases memWrite_cases p n v s with ⟨h, _⟩ | ⟨_, h, _⟩ | ⟨_, _, e⟩
  · omega
  · omega
  · exact e

theorem memWrite_readonly (p n : Nat) (v : BitVec (8 * n)) (s : State) (h : p < s.rb.toNat) :
    memWrite p n v s = .raised .accessViolation s := by
  rcases memWrite_cases p n v s with ⟨_, e⟩ | ⟨h', _⟩ | ⟨h', _⟩
  · exact e
  · omega
  · omega

theorem memWrite_outside (p n : Nat) (v : BitVec (8 * n)) (s : State) (h1 : s.rb.toNat ≤ p) (h2 : s.len.toNat < p + n) :
    memWrite p n v s = .raised .outOfBounds s := by
  rcases memWrite_cases p n v s with ⟨h, _⟩ | ⟨_, _, e⟩ | ⟨_, h, _⟩
  · omega
  · exact e
  · omega

/-! ### The stack -/

/-- Push (20_memory.md R72): RSP moves in every case; then one of four things. -/
theorem push_cases (n : Nat) (v : BitVec (8 * n)) (s : State) :
    let p := s.reg rsp - BitVec.ofNat 64 n
    (p.toNat < s.sb.toNat ∧ push n v s = .raised .stackOverflow (s.putReg rsp p)) ∨
    (s.sb.toNat ≤ p.toNat ∧ p.toNat < s.rb.toNat ∧ push n v s = .raised .accessViolation (s.putReg rsp p)) ∨
    (s.sb.toNat ≤ p.toNat ∧ s.rb.toNat ≤ p.toNat ∧ s.len.toNat < p.toNat + n ∧
      push n v s = .raised .outOfBounds (s.putReg rsp p)) ∨
    (s.sb.toNat ≤ p.toNat ∧ s.rb.toNat ≤ p.toNat ∧ p.toNat + n ≤ s.len.toNat ∧
      push n v s = .done () ((s.putReg rsp p).putValue p.toNat n v)) := by
  intro p
  have hp : (s.putReg rsp p).reg rsp = p := by simp
  by_cases h : p.toNat < s.sb.toNat
  · refine .inl ⟨h, ?_⟩
    show (if ((s.putReg rsp p).reg rsp).toNat < s.sb.toNat then _ else _) = _
    rw [hp]; exact if_pos h
  · have e : push n v s = memWrite p.toNat n v (s.putReg rsp p) := by
      show (if ((s.putReg rsp p).reg rsp).toNat < s.sb.toNat then _
        else memWrite ((s.putReg rsp p).reg rsp).toNat n v (s.putReg rsp p)) = _
      rw [hp]; exact if_neg h
    rw [e]
    rcases memWrite_cases p.toNat n v (s.putReg rsp p) with ⟨h1, e⟩ | ⟨h1, h2, e⟩ | ⟨h1, h2, e⟩
    · exact .inr (.inl ⟨by omega, h1, e⟩)
    · exact .inr (.inr (.inl ⟨by omega, h1, h2, e⟩))
    · exact .inr (.inr (.inr ⟨by omega, h1, h2, e⟩))

/-- Pop (20_memory.md R73) does one of three things. -/
theorem pop_cases (n : Nat) (s : State) :
    let p := s.reg rsp
    (p.toNat < s.sb.toNat ∧ pop n s = .raised .stackOverflow s) ∨
    (s.sb.toNat ≤ p.toNat ∧ s.len.toNat < p.toNat + n ∧ pop n s = .raised .outOfBounds s) ∨
    (s.sb.toNat ≤ p.toNat ∧ p.toNat + n ≤ s.len.toNat ∧
      pop n s = .done (s.value p.toNat n) (s.putReg rsp (p + BitVec.ofNat 64 n))) := by
  intro p
  unfold pop
  by_cases h : (s.reg rsp).toNat < s.sb.toNat
  · exact .inl ⟨h, by rw [if_pos h]⟩
  · rcases memRead_cases (s.reg rsp).toNat n s with ⟨h1, e⟩ | ⟨h1, e⟩
    · exact .inr (.inr ⟨Nat.le_of_not_lt h, h1, by rw [if_neg h, e]; rfl⟩)
    · exact .inr (.inl ⟨Nat.le_of_not_lt h, h1, by rw [if_neg h, e]; rfl⟩)

/-! ### C strings -/

/-- ReadCString (20_memory.md R68) changes nothing. -/
theorem readCString_cases (p : Nat) (s : State) :
    (∃ str, readCString p s = .done str s) ∨ readCString p s = .raised .outOfBounds s := by
  unfold readCString
  split
  · exact .inl ⟨_, rfl⟩
  · exact .inr rfl

/-- WriteCString (20_memory.md R69) does one of three things. -/
theorem writeCString_cases (p : Nat) (str : List Byte) (s : State) :
    (p < s.rb.toNat ∧ writeCString p str s = .raised .accessViolation s) ∨
    (s.rb.toNat ≤ p ∧ s.len.toNat < p + (str.length + 1) ∧ writeCString p str s = .raised .outOfBounds s) ∨
    (s.rb.toNat ≤ p ∧ p + (str.length + 1) ≤ s.len.toNat ∧
      writeCString p str s = .done () (s.putBytes p (str ++ [0]))) := by
  unfold writeCString
  rcases checkWrite_cases p (str.length + 1) s with ⟨h, e⟩ | ⟨h1, h2, e⟩ | ⟨h1, h2, e⟩
  · exact .inl ⟨h, by rw [e]; rfl⟩
  · exact .inr (.inl ⟨h1, h2, by rw [e]; rfl⟩)
  · exact .inr (.inr ⟨h1, h2, by rw [e]; rfl⟩)

/-! ### Termination -/

/-- Terminate on a running engine (60_exceptions.md R284). -/
theorem terminate_running (e : ErrorCode) (s : State) (h : s.running = true) :
    terminate e s = closeAllFds { s with running := false, suspendedRead := false, error := e } := by
  simp [terminate, h]

/-- Terminate on a stopped engine (R284). -/
theorem terminate_stopped (e : ErrorCode) (s : State) (h : s.running = false) : terminate e s = s := by
  simp [terminate, h]

theorem exitWith_running (v : Word) (s : State) (h : s.running = true) :
    exitWith v s =
      closeAllFds { s with running := false, suspendedRead := false, error := .none, returnValue := v } := by
  simp [exitWith, h]

theorem exitWith_stopped (v : Word) (s : State) (h : s.running = false) : exitWith v s = s := by
  simp [exitWith, h]

@[simp] theorem terminate_reg (e : ErrorCode) (s : State) (j : Reg) : (terminate e s).reg j = s.reg j := by
  unfold terminate; split <;> rfl
@[simp] theorem terminate_byte (e : ErrorCode) (s : State) (a : Nat) : (terminate e s).byte a = s.byte a := by
  unfold terminate; split <;> rfl
@[simp] theorem terminate_rip (e : ErrorCode) (s : State) : (terminate e s).rip = s.rip := by
  unfold terminate; split <;> rfl
@[simp] theorem terminate_rflags (e : ErrorCode) (s : State) : (terminate e s).rflags = s.rflags := by
  unfold terminate; split <;> rfl
theorem exitWith_reg (v : Word) (s : State) (j : Reg) : (exitWith v s).reg j = s.reg j := by
  unfold exitWith; split <;> rfl
theorem exitWith_byte (v : Word) (s : State) (a : Nat) : (exitWith v s).byte a = s.byte a := by
  unfold exitWith; split <;> rfl

theorem keepsBarriers_refl (s : State) : keepsBarriers s s := ⟨rfl, rfl, rfl, rfl, rfl, rfl⟩

theorem keepsBarriers_trans {s t u : State} (h : keepsBarriers s t) (h' : keepsBarriers t u) : keepsBarriers s u := by
  obtain ⟨a1, a2, a3, a4, a5, a6⟩ := h
  obtain ⟨b1, b2, b3, b4, b5, b6⟩ := h'
  exact ⟨b1.trans a1, b2.trans a2, b3.trans a3, b4.trans a4, b5.trans a5, b6.trans a6⟩

/-- What a termination leaves, in the claims' terms. -/
theorem terminate_stopsWith (e : ErrorCode) (s : State) (h : s.running = true) : stopsWith e s (terminate e s) := by
  rw [terminate_running e s h]
  refine ⟨rfl, rfl, rfl, rfl, fun k => ?_, fun a => rfl, rfl, ⟨rfl, rfl, rfl⟩,
    ⟨rfl, rfl, rfl, rfl, rfl, closeAllFds_nfd _⟩⟩
  rw [closeAllFds_fdAt]; rfl

/-- A termination after writes that left memory, flags, FPU, barriers and ReturnValue alone. -/
theorem terminate_stopsWith_of (e : ErrorCode) (s u : State) (h : u.running = true) (hm : keepsMem s u)
    (hf : u.rflags = s.rflags) (hp : keepsFpu s u) (hb : keepsBarriers s u) (hr : u.returnValue = s.returnValue) :
    stopsWith e s (terminate e u) := by
  obtain ⟨h1, h2, h3, h4, h5, h6, h7, h8, h9⟩ := terminate_stopsWith e u h
  exact ⟨h1, h2, h3, h4.trans hr, h5, fun a => (h6 a).trans (hm a), h7.trans hf,
    ⟨h8.1.trans hp.1, h8.2.1.trans hp.2.1, h8.2.2.trans hp.2.2⟩,
    keepsBarriers_trans hb h9⟩

/-! ### Operands -/

/-- Reading a place that may be read gives what it holds. -/
theorem readPlace_done (w : Width) (p : Place) (s : State) (h : p.readable w s = true) :
    readPlace w p s = .done (p.holds w s) s := by
  cases p with
  | reg i => rfl
  | mem a => exact memRead_done _ _ _ (by simpa [Place.readable] using h)

theorem readPlace_raised (w : Width) (p : Place) (s : State) (h : p.readable w s = false) :
    readPlace w p s = .raised .outOfBounds s := by
  cases p with
  | reg i => simp [Place.readable] at h
  | mem a => exact memRead_raised _ _ _ (by simpa [Place.readable] using h)

/-- Reading a value operand that may be read gives what it holds. -/
theorem readOperand_done (w : Width) (o : Operand) (s : State) (h : operandReadable w o s = true) :
    readOperand w o s = .done (operandHolds w o s) s := by
  cases o with
  | reg r => rfl
  | imm v => rfl
  | mem a => exact memRead_done _ _ _ (by simpa [operandReadable] using h)

theorem readOperand_raised (w : Width) (o : Operand) (s : State) (h : operandReadable w o s = false) :
    readOperand w o s = .raised .outOfBounds s := by
  cases o with
  | reg r => simp [operandReadable] at h
  | imm v => simp [operandReadable] at h
  | mem a => exact memRead_raised _ _ _ (by simpa [operandReadable] using h)

/-! ### The FPU stack -/

/-- Reading `ST(i)` (45_fpu.md R262). -/
theorem readSt_done (i : StIndex) (s : State) (h : s.inuseAt (s.top + i) = true) :
    readSt i s = .done (s.fprAt (s.top + i)) s := by
  unfold readSt State.slot; rw [if_pos h]

theorem readSt_raised (i : StIndex) (s : State) (h : s.inuseAt (s.top + i) = false) :
    readSt i s = .raised .undefinedBehavior s := by
  unfold readSt State.slot; rw [if_neg (by rw [h]; decide)]

/-- Reading the source of an FLD that may be read gives what it holds. -/
theorem readFpuForm_done (f : FpuForm) (s : State) (h : fpuReadable f s = true) :
    readFpuForm f s = .done (fpuHolds f s) s := by
  cases f with
  | st i => exact readSt_done i s h
  | mem a => exact memRead_done _ _ _ (by simpa [fpuReadable] using h)

/-- FpuPush (45_fpu.md R263) does one of two things. -/
theorem fpuPush_done (v : Word) (s : State) (h : s.inuseAt (s.top - 1) = false) :
    fpuPush v s = .done () (({ s with top := s.top - 1 }.putFpr (s.top - 1) v).putInuse (s.top - 1) true) :=
  if_neg (by rw [h]; decide)

theorem fpuPush_raised (v : Word) (s : State) (h : s.inuseAt (s.top - 1) = true) :
    fpuPush v s = .raised .undefinedBehavior s := if_pos h

/-- FpuPop (45_fpu.md R264) does one of two things. -/
theorem fpuPop_done (s : State) (h : s.inuseAt s.top = true) :
    fpuPop s = .done () { s.putInuse s.top false with top := s.top + 1 } := if_pos h

theorem fpuPop_raised (s : State) (h : s.inuseAt s.top = false) : fpuPop s = .raised .undefinedBehavior s :=
  if_neg (by rw [h]; decide)

/-! ### Writing a place -/

/-- The state after a write of a place. -/
def placeWritten (w : Width) (p : Place) (v : BitVec w.bits) (s : State) : State :=
  match p with
  | .reg i => s.setReg i w v
  | .mem a => s.putValue a.toNat w.bytes v

theorem writePlace_done (w : Width) (p : Place) (v : BitVec w.bits) (s : State) (h : p.writable w s = true) :
    writePlace w p v s = .done () (placeWritten w p v s) := by
  cases p with
  | reg i => rfl
  | mem a =>
    simp only [Place.writable, Bool.and_eq_true, decide_eq_true_eq] at h
    exact memWrite_done _ _ _ _ h.1 h.2

/-- A written place holds the value, and nothing else of registers and memory changes. -/
theorem placeWritten_gets (w : Width) (p : Place) (v : BitVec w.bits) (s : State) :
    placeGets w p v s (placeWritten w p v s) := by
  cases p with
  | reg i => exact ⟨by simp [placeWritten], fun j hj => by simp [placeWritten, hj], fun a => rfl⟩
  | mem a =>
    exact ⟨fun j => rfl, by simp [placeWritten], fun b hb => putValue_byte_outside _ _ _ _ _ hb⟩

/-- A written place changes no other field. -/
theorem placeWritten_keeps (w : Width) (p : Place) (v : BitVec w.bits) (s : State) :
    keepsEngine s (placeWritten w p v s) ∧ (placeWritten w p v s).rip = s.rip ∧
      (placeWritten w p v s).rflags = s.rflags := by
  cases p <;> exact ⟨⟨⟨rfl, rfl, rfl⟩, ⟨rfl, rfl, rfl, rfl, rfl, rfl⟩, ⟨rfl, rfl, rfl, rfl, rfl, rfl, rfl⟩⟩, rfl, rfl⟩

/-- A written place is the same write whatever else has changed. -/
theorem placeGets_congr (w : Width) (p : Place) (v : BitVec w.bits) (s t u : State) (h : placeGets w p v s t)
    (hx : u.x = t.x) (hm : u.mem = t.mem) : placeGets w p v s u := by
  have hr : ∀ j, u.reg j = t.reg j := fun j => reg_congr t u hx j
  have hb : ∀ a, u.byte a = t.byte a := fun a => byte_congr t u hm a
  cases p with
  | reg i => exact ⟨(hr i).trans h.1, fun j hj => (hr j).trans (h.2.1 j hj), fun a => (hb a).trans (h.2.2 a)⟩
  | mem a =>
    refine ⟨fun j => (hr j).trans (h.1 j), ?_, fun b hb' => (hb b).trans (h.2.2 b hb')⟩
    exact (value_congr _ _ _ _ fun k _ => hb _).trans h.2.1

/-! ### Every operation keeps the invariant, the barriers and readonly memory -/

/-- What no part of an instruction breaks. -/
structure Evolves (s t : State) : Prop where
  inv : s.Inv → t.Inv
  barriers : keepsBarriers s t
  readonly : ∀ a, a < s.rb.toNat → t.byte a = s.byte a

theorem Evolves.refl (s : State) : Evolves s s := ⟨id, keepsBarriers_refl s, fun _ _ => rfl⟩

theorem Evolves.trans {s t u : State} (h : Evolves s t) (h' : Evolves t u) : Evolves s u := by
  refine ⟨fun hi => h'.inv (h.inv hi), keepsBarriers_trans h.barriers h'.barriers, fun a ha => ?_⟩
  rw [h'.readonly a (by rw [h.barriers.2.2.1]; exact ha), h.readonly a ha]

/-- A change of fields that none of the three mentions. -/
theorem Evolves.of_same {s t : State} (hm : t.mem = s.mem) (hb : keepsBarriers s t) (hf : t.rflags = s.rflags)
    (hs : t.suspendedRead = s.suspendedRead) (hr : t.running = s.running) (he : t.error = s.error) : Evolves s t := by
  refine ⟨fun h => ?_, hb, fun a _ => byte_congr s t hm a⟩
  obtain ⟨b1, b2, b3, b4, _⟩ := hb
  constructor
  · rw [hm]; exact h.memCanonical
  · rw [hm, b1]; exact h.memInBuffer
  · rw [b2, b3]; exact h.ebLeRb
  · rw [b3, b4]; exact h.rbLeSb
  · rw [b4, b1]; exact h.sbLeLen
  · rw [hs, hr]; exact h.suspendedRuns
  · rw [hf]; exact h.privateFlags
  · rw [hr, he]; exact h.noErrorWhileRunning

theorem putReg_evolves (s : State) (i : Reg) (v : Word) : Evolves s (s.putReg i v) :=
  .of_same rfl ⟨rfl, rfl, rfl, rfl, rfl, rfl⟩ rfl rfl rfl rfl

/-- A checked store keeps the canonical form, the buffer and readonly memory. -/
theorem putBytes_evolves (s : State) (p : Nat) (bs : List Byte) (h1 : s.rb.toNat ≤ p)
    (h2 : p + bs.length ≤ s.len.toNat) : Evolves s (s.putBytes p bs) := by
  refine ⟨fun h => ?_, ⟨rfl, rfl, rfl, rfl, rfl, rfl⟩, fun a ha => putBytes_byte_outside s p a bs (by omega)⟩
  refine { h with memCanonical := memWf_memSetBytes _ _ _ h.memCanonical, memInBuffer := fun c hc => ?_ }
  rcases mem_memSetBytes _ _ _ _ hc with hc | hc
  · exact lt_of_lt_of_le hc.2 h2
  · exact h.memInBuffer c hc

theorem putValue_evolves (s : State) (p n : Nat) (v : BitVec (8 * n)) (h1 : s.rb.toNat ≤ p)
    (h2 : p + n ≤ s.len.toNat) : Evolves s (s.putValue p n v) :=
  putBytes_evolves s p _ h1 (by simpa using h2)

/-- `P` of the state a piece of pseudocode ends in, raised or not. -/
def Res.Ends {α : Type} (P : State → Prop) (r : Res α) : Prop :=
  match r with
  | .done _ s => P s
  | .raised _ s => P s

/-- What every piece of a sequence keeps, the sequence keeps. -/
theorem Res.Ends.bind {α β : Type} {P : State → Prop} {r : Res α} {k : α → State → Res β} (h : r.Ends P)
    (hk : ∀ v t, P t → (k v t).Ends P) : (r.bind k).Ends P := by
  cases r with
  | done v t => exact hk v t h
  | raised e t => exact h

/-- A piece that evolves from `t` evolves from whatever evolved into `t`. -/
theorem Res.Ends.after {α : Type} {s t : State} {r : Res α} (h : Evolves s t) (hr : r.Ends (Evolves t)) :
    r.Ends (Evolves s) := by
  cases r with
  | done v u => exact h.trans hr
  | raised e u => exact h.trans hr

theorem memRead_evolves (p n : Nat) (s : State) : (memRead p n s).Ends (Evolves s) := by
  rcases memRead_cases p n s with ⟨_, e⟩ | ⟨_, e⟩ <;> rw [e] <;> exact .refl s

theorem memWrite_evolves (p n : Nat) (v : BitVec (8 * n)) (s : State) : (memWrite p n v s).Ends (Evolves s) := by
  rcases memWrite_cases p n v s with ⟨_, e⟩ | ⟨_, _, e⟩ | ⟨h1, h2, e⟩ <;> rw [e]
  · exact .refl s
  · exact .refl s
  · exact putValue_evolves s p n v h1 h2

theorem push_evolves (n : Nat) (v : BitVec (8 * n)) (s : State) : (push n v s).Ends (Evolves s) := by
  have hp := putReg_evolves s rsp (s.reg rsp - BitVec.ofNat 64 n)
  rcases push_cases n v s with ⟨_, e⟩ | ⟨_, _, e⟩ | ⟨_, _, _, e⟩ | ⟨_, h1, h2, e⟩ <;> rw [e]
  · exact hp
  · exact hp
  · exact hp
  · exact hp.trans (putValue_evolves _ _ n v h1 h2)

theorem pop_evolves (n : Nat) (s : State) : (pop n s).Ends (Evolves s) := by
  rcases pop_cases n s with ⟨_, e⟩ | ⟨_, _, e⟩ | ⟨_, _, e⟩ <;> rw [e]
  · exact .refl s
  · exact .refl s
  · exact putReg_evolves s rsp _

theorem readPlace_evolves (w : Width) (p : Place) (s : State) : (readPlace w p s).Ends (Evolves s) := by
  cases p with
  | reg i => exact .refl s
  | mem a => exact memRead_evolves _ _ s

theorem readOperand_evolves (w : Width) (o : Operand) (s : State) : (readOperand w o s).Ends (Evolves s) := by
  cases o with
  | reg r => exact .refl s
  | imm v => exact .refl s
  | mem a => exact memRead_evolves _ _ s

theorem writePlace_evolves (w : Width) (p : Place) (v : BitVec w.bits) (s : State) :
    (writePlace w p v s).Ends (Evolves s) := by
  cases p with
  | reg i => exact putReg_evolves s i _
  | mem a => exact memWrite_evolves _ _ v s

theorem readCString_evolves (p : Nat) (s : State) : (readCString p s).Ends (Evolves s) := by
  rcases readCString_cases p s with ⟨str, e⟩ | e <;> rw [e] <;> exact .refl s

theorem askHost_evolves (c : HostCall) (s : State) : Evolves s (askHost c s).2 :=
  .of_same (by simp) (by simp [keepsBarriers]) (by simp) (by simp) (by simp) (by simp)

/-- Termination keeps the invariant. -/
theorem terminate_evolves (e : ErrorCode) (s : State) : Evolves s (terminate e s) := by
  by_cases h : s.running = true
  · rw [terminate_running e s h]
    refine ⟨fun hi => ?_, ⟨rfl, rfl, rfl, rfl, rfl, closeAllFds_nfd _⟩, fun _ _ => rfl⟩
    exact { hi with suspendedRuns := by simp, noErrorWhileRunning := by simp }
  · rw [terminate_stopped e s (by simpa using h)]; exact .refl s

theorem exitWith_evolves (v : Word) (s : State) : Evolves s (exitWith v s) := by
  by_cases h : s.running = true
  · rw [exitWith_running v s h]
    refine ⟨fun hi => ?_, ⟨rfl, rfl, rfl, rfl, rfl, closeAllFds_nfd _⟩, fun _ _ => rfl⟩
    exact { hi with suspendedRuns := by simp, noErrorWhileRunning := by simp }
  · rw [exitWith_stopped v s (by simpa using h)]; exact .refl s

end Sys2Proof.Machine
end

