-- ==== Sys2Proof/Laws/Step.lean ====
section
/-! SUPPORT. What a step can do: one of four things (40_engine.md R146). -/

namespace Sys2Proof.Machine

/-- The engine is Ready exactly when it runs and is not suspended (40_engine.md R140). -/
theorem ready_iff (s : State) : s.ready = true ↔ s.running = true ∧ s.suspendedRead = false := by
  simp [State.ready]

theorem mayFetch_iff (s : State) : s.mayFetch = true ↔ s.rip.toNat < s.eb.toNat := by simp [State.mayFetch]

/-- The gate, the execute check, a failed decode, or an instruction. -/
theorem tickWith_cases (run : Instr → State → Host.Outcome State Fault Refusal) (s : State) :
    (s.ready = false ∧ tickWith run s = .next s) ∨
    (s.ready = true ∧ s.mayFetch = false ∧ tickWith run s = .next (terminate .accessViolation s)) ∨
    (s.ready = true ∧ s.mayFetch = true ∧ ∃ why rest, decodeAt s = .bad why rest ∧
      tickWith run s = .next (terminate (decodeError why) (s.advanceTo rest))) ∨
    (s.ready = true ∧ s.mayFetch = true ∧ ∃ i rest, decodeAt s = .ok i rest ∧
      tickWith run s = run i (s.advanceTo rest)) := by
  unfold tickWith
  by_cases h : s.ready = true
  · by_cases h' : s.mayFetch = true
    · rw [if_pos h, if_pos h']
      cases hd : decodeAt s with
      | ok i rest => exact .inr (.inr (.inr ⟨h, h', i, rest, rfl, rfl⟩))
      | bad why rest => exact .inr (.inr (.inl ⟨h, h', why, rest, rfl, rfl⟩))
    · rw [if_pos h, if_neg h']
      exact .inr (.inl ⟨h, by simpa using h', rfl⟩)
  · rw [if_neg h]
    exact .inl ⟨by simpa using h, rfl⟩

/-- The four cases, for the step. -/
theorem step_cases (s : State) :
    (s.ready = false ∧ step s = .next s) ∨
    (s.ready = true ∧ s.mayFetch = false ∧ step s = .next (terminate .accessViolation s)) ∨
    (s.ready = true ∧ s.mayFetch = true ∧ ∃ why rest, decodeAt s = .bad why rest ∧
      step s = .next (terminate (decodeError why) (s.advanceTo rest))) ∨
    (s.ready = true ∧ s.mayFetch = true ∧ ∃ i rest, decodeAt s = .ok i rest ∧ step s = exec i (s.advanceTo rest)) :=
  tickWith_cases exec s

/-! ### The handlers of the host's own as an argument -/

theorem execWith_syscall (H : HandlerTable) (s : State) : execWith H .syscall s = execSyscallWith H s := if_pos rfl

theorem execWith_other (H : HandlerTable) (i : Instr) (s : State) (h : i ≠ .syscall) : execWith H i s = exec i s :=
  if_neg h

/-- The free table is the one `exec` and `step` run. -/
theorem execWith_own (i : Instr) (s : State) : execWith Config.ownHandlers i s = exec i s := by
  by_cases h : i = .syscall
  · subst h; exact execWith_syscall _ s
  · exact execWith_other _ i s h

theorem stepWith_own (s : State) : stepWith Config.ownHandlers s = step s := by
  have h : execWith Config.ownHandlers = exec := funext fun i => funext fun u => execWith_own i u
  unfold stepWith step; rw [h]

/-- Advancing RIP over fetched bytes breaks nothing. -/
theorem advanceTo_evolves (s : State) (rest : List Byte) : Evolves s (s.advanceTo rest) :=
  .of_same rfl ⟨rfl, rfl, rfl, rfl, rfl, rfl⟩ rfl rfl rfl rfl

end Sys2Proof.Machine
end

