-- ==== Sys2Proof/Laws/Exec.lean ====
section
/-! SUPPORT. The shared operations of the integer, control and FPU instructions: what each answers where its operands may be
accessed, and that each keeps the invariant, the barriers and readonly memory. -/

namespace Sys2Proof.Machine

/-- A sequence of pieces that each evolve evolves. -/
theorem Res.Ends.chain {α β : Type} {s : State} {r : Res α} {k : α → State → Res β} (h : r.Ends (Evolves s))
    (hk : ∀ v t, (k v t).Ends (Evolves t)) : (r.bind k).Ends (Evolves s) :=
  h.bind fun v t e => Res.Ends.after e (hk v t)

/-- The end of an instruction evolves where its pieces do. -/
theorem finish_evolves {r : Res Unit} {s t : State} (h : r.Ends (Evolves s)) (e : r.finish = .next t) : Evolves s t := by
  cases r with
  | done v u => cases e; exact h
  | raised c u => cases e; exact h.trans (terminate_evolves c u)

/-! ### Flags -/

theorem mergeFlags_evolves (s : State) (f : FlagSet) : Evolves s (s.mergeFlags f) := by
  refine ⟨fun h => ?_, ⟨rfl, rfl, rfl, rfl, rfl, rfl⟩, fun _ _ => rfl⟩
  exact { h with privateFlags := (mergeFlags_private f s.rflags).trans h.privateFlags }

theorem drawAf_evolves (s : State) : Evolves s (drawAf s).2 := .of_same rfl ⟨rfl, rfl, rfl, rfl, rfl, rfl⟩ rfl rfl rfl rfl

theorem restoreFlags_evolves (s : State) (v : Word) : Evolves s { s with rflags := restoreFlags s.rflags v } := by
  refine ⟨fun h => ?_, ⟨rfl, rfl, rfl, rfl, rfl, rfl⟩, fun _ _ => rfl⟩
  exact { h with privateFlags := (restoreFlags_private _ _).trans h.privateFlags }

/-! ### The ALU -/

/-- Both operand reads of a BIN instruction that may be made (43_alu.md R196). -/
theorem readBoth_done (w : Width) (f : BinForm) (s : State) (h1 : (placeOf f.dst s).readable w s = true)
    (h2 : operandReadable w f.src s = true) :
    readBoth w f s = .done ((placeOf f.dst s).holds w s, operandHolds w f.src s) s := by
  unfold readBoth
  rw [readPlace_done _ _ _ h1, Res.bind_done, readOperand_done _ _ _ h2, Res.bind_done]

/-- A BIN instruction whose accesses may be made: its result in its destination, then its flags. -/
theorem binWrite_done (w : Width) (f : BinForm) (op : BitVec w.bits → BitVec w.bits → BitVec w.bits × FlagSet) (s : State)
    (h1 : (placeOf f.dst s).readable w s = true) (h2 : operandReadable w f.src s = true)
    (h3 : (placeOf f.dst s).writable w s = true) :
    binWrite w f op s = .done ()
      ((placeWritten w (placeOf f.dst s) (op ((placeOf f.dst s).holds w s) (operandHolds w f.src s)).1 s).mergeFlags
        (op ((placeOf f.dst s).holds w s) (operandHolds w f.src s)).2) := by
  unfold binWrite
  rw [readBoth_done _ _ _ h1 h2, Res.bind_done, writePlace_done _ _ _ _ h3, Res.bind_done]

/-- A UN instruction whose accesses may be made. -/
theorem unWrite_done (w : Width) (d : RegMem) (op : BitVec w.bits → BitVec w.bits) (fl : BitVec w.bits → FlagSet)
    (s : State) (h1 : (placeOf d s).readable w s = true) (h2 : (placeOf d s).writable w s = true) :
    unWrite w d op fl s = .done ()
      ((placeWritten w (placeOf d s) (op ((placeOf d s).holds w s)) s).mergeFlags (fl ((placeOf d s).holds w s))) := by
  show ((readPlace w (placeOf d s) s).bind fun a t =>
    (writePlace w (placeOf d s) (op a) t).bind fun _ u => .done () (u.mergeFlags (fl a))) = _
  rw [readPlace_done _ _ _ h1, Res.bind_done, writePlace_done _ _ _ _ h2, Res.bind_done]

theorem readBoth_evolves (w : Width) (f : BinForm) (s : State) : (readBoth w f s).Ends (Evolves s) :=
  (readPlace_evolves _ _ _).chain fun _ _ => (readOperand_evolves _ _ _).chain fun _ _ => .refl _

theorem binWrite_evolves (w : Width) (f : BinForm) (op : BitVec w.bits → BitVec w.bits → BitVec w.bits × FlagSet)
    (s : State) : (binWrite w f op s).Ends (Evolves s) :=
  (readBoth_evolves _ _ _).chain fun _ _ => (writePlace_evolves _ _ _ _).chain fun _ _ => mergeFlags_evolves _ _

theorem binLogic_evolves (w : Width) (f : BinForm) (op : BitVec w.bits → BitVec w.bits → BitVec w.bits) (s : State) :
    (binLogic w f op s).Ends (Evolves s) :=
  (readBoth_evolves _ _ _).chain fun _ _ => (writePlace_evolves _ _ _ _).chain fun _ _ =>
    (drawAf_evolves _).trans (mergeFlags_evolves _ _)

theorem unWrite_evolves (w : Width) (d : RegMem) (op : BitVec w.bits → BitVec w.bits) (fl : BitVec w.bits → FlagSet)
    (s : State) : (unWrite w d op fl s).Ends (Evolves s) :=
  (readPlace_evolves _ _ _).chain fun _ _ => (writePlace_evolves _ _ _ _).chain fun _ _ => mergeFlags_evolves _ _

/-! ### Control transfer -/

/-- A readable target (44_control.md R236). -/
theorem readTarget_done (w : Width) (o : Operand) (s : State) (h : operandReadable w o s = true) :
    readTarget w o s = .done ((operandHolds w o s).setWidth 64) s := by
  unfold readTarget; rw [readOperand_done _ _ _ h, Res.bind_done]

theorem readTarget_raised (w : Width) (o : Operand) (s : State) (h : operandReadable w o s = false) :
    readTarget w o s = .raised .outOfBounds s := by
  unfold readTarget; rw [readOperand_raised _ _ _ h, Res.bind_raised]

theorem jump_evolves (s : State) (t : Word) : Evolves s (s.jump t) := .of_same rfl ⟨rfl, rfl, rfl, rfl, rfl, rfl⟩ rfl rfl rfl rfl

theorem readTarget_evolves (w : Width) (o : Operand) (s : State) : (readTarget w o s).Ends (Evolves s) :=
  (readOperand_evolves _ _ _).chain fun _ _ => .refl _

theorem jumpIf_evolves (c : Cond) (w : Width) (o : Operand) (s : State) : (jumpIf c w o s).Ends (Evolves s) := by
  refine (readTarget_evolves _ _ _).chain fun v t => ?_
  show Evolves t (if _ then _ else _)
  split
  · exact jump_evolves t v
  · exact .refl t

theorem loopIf_evolves (test : Word → Bool) (w : Width) (o : Operand) (s : State) :
    (loopIf test w o s).Ends (Evolves s) := by
  refine (readTarget_evolves _ _ _).chain fun v t => ?_
  show Evolves t (if _ then _ else _)
  have h := putReg_evolves t rcx (t.reg rcx - 1)
  split
  · exact h.trans (jump_evolves _ v)
  · exact h

/-! ### The FPU stack -/

theorem readSt_evolves (i : StIndex) (s : State) : (readSt i s).Ends (Evolves s) := by
  cases h : s.inuseAt (s.top + i) with
  | true => rw [readSt_done i s h]; exact .refl s
  | false => rw [readSt_raised i s h]; exact .refl s

theorem fpuPush_evolves (v : Word) (s : State) : (fpuPush v s).Ends (Evolves s) := by
  cases h : s.inuseAt (s.top - 1) with
  | true => rw [fpuPush_raised v s h]; exact .refl s
  | false => rw [fpuPush_done v s h]; exact .of_same rfl ⟨rfl, rfl, rfl, rfl, rfl, rfl⟩ rfl rfl rfl rfl

theorem fpuPop_evolves (s : State) : (fpuPop s).Ends (Evolves s) := by
  cases h : s.inuseAt s.top with
  | true => rw [fpuPop_done s h]; exact .of_same rfl ⟨rfl, rfl, rfl, rfl, rfl, rfl⟩ rfl rfl rfl rfl
  | false => rw [fpuPop_raised s h]; exact .refl s

theorem fpuStore_evolves (f : FpuForm) (s : State) : (fpuStore f s).Ends (Evolves s) := by
  refine (readSt_evolves _ _).chain fun v t => ?_
  cases f with
  | st i => exact .of_same rfl ⟨rfl, rfl, rfl, rfl, rfl, rfl⟩ rfl rfl rfl rfl
  | mem a => exact memWrite_evolves _ _ _ _

end Sys2Proof.Machine
end

