-- ==== Sys2Proof/Laws/Bootstrap.lean ====
section
/-! SUPPORT. What the two parts of PlaceArgs write (70_reset_and_hazards.md R343): the strings with their terminators, in
argument order from the lowest address, and the pointer array; and that the placement and the commit meet the invariant. -/

namespace Sys2Proof.Machine

/-- The bytes a list of arguments takes: each string and its terminator. -/
def strSize (as : List (List Byte)) : Nat := (as.map fun a => a.length + 1).sum

/-- The strings and their terminators, one after the other. -/
def strBytes (as : List (List Byte)) : List Byte := (as.map fun a => a ++ [0]).flatten

/-- The address of each string, the first one at `b`. -/
def strAddrs : List (List Byte) → Nat → List Nat
  | [], _ => []
  | a :: as, b => b :: strAddrs as (b + a.length + 1)

theorem strBytes_length (as : List (List Byte)) : (strBytes as).length = strSize as := by
  simp only [strBytes, strSize, List.length_flatten, List.map_map]
  congr 1
  apply List.map_congr_left
  intro a _; simp

theorem strSize_append (as bs : List (List Byte)) : strSize (as ++ bs) = strSize as + strSize bs := by simp [strSize]

theorem strBytes_append (as bs : List (List Byte)) : strBytes (as ++ bs) = strBytes as ++ strBytes bs := by
  simp [strBytes]

theorem strAddrs_append (as bs : List (List Byte)) (b : Nat) :
    strAddrs (as ++ bs) b = strAddrs as b ++ strAddrs bs (b + strSize as) := by
  induction as generalizing b with
  | nil => simp [strAddrs, strSize]
  | cons a as ih => simp [strAddrs, ih, strSize]; ring_nf

theorem strAddrs_length (as : List (List Byte)) (b : Nat) : (strAddrs as b).length = as.length := by
  induction as generalizing b with
  | nil => rfl
  | cons a as ih => simp [strAddrs, ih]

theorem strSize_reverse (as : List (List Byte)) : strSize as.reverse = strSize as := by
  induction as with
  | nil => rfl
  | cons a as ih => rw [List.reverse_cons, strSize_append, ih]; simp [strSize]; omega

/-- Two adjacent writes read as one. -/
theorem memByte_adjacent (m : List Host.Cell) (p q : Nat) (bs cs : List Byte) (h : q + cs.length = p) (a : Nat) :
    memByte (memSetBytes (memSetBytes m p bs) q cs) a = memByte (memSetBytes m q (cs ++ bs)) a := by
  rw [memByte_memSetBytes, memByte_memSetBytes _ q]
  by_cases h1 : q ≤ a ∧ a < q + cs.length
  · rw [dif_pos h1, dif_pos ⟨h1.1, by simp; omega⟩, List.getElem_append_left]
  · rw [dif_neg h1, memByte_memSetBytes]
    by_cases h2 : p ≤ a ∧ a < p + bs.length
    · rw [dif_pos h2, dif_pos ⟨by omega, by simp; omega⟩, List.getElem_append_right (by omega)]
      congr 1; omega
    · rw [dif_neg h2, dif_neg]
      simp; omega

theorem memByte_memSetBytes_congr (m m' : List Host.Cell) (h : ∀ a, memByte m a = memByte m' a) (q : Nat)
    (cs : List Byte) (a : Nat) : memByte (memSetBytes m q cs) a = memByte (memSetBytes m' q cs) a := by
  rw [memByte_memSetBytes, memByte_memSetBytes, h]

/-- Placing strings below `p`, where they fit above RB: it completes, RSP ends at the lowest string, the addresses come out
in argument order, and memory reads as with the strings written there. -/
theorem placeStrings_done (rs : List (List Byte)) (ptrs : List Word) (s : State) (p : Nat)
    (hp : (s.reg rsp).toNat = p) (h1 : s.rb.toNat + strSize rs ≤ p) (h2 : p ≤ s.len.toNat) :
    ∃ m, placeStrings rs ptrs s = .done ((strAddrs rs.reverse (p - strSize rs)).map (BitVec.ofNat 64) ++ ptrs)
        { s with x := s.x.set rsp (BitVec.ofNat 64 (p - strSize rs)), mem := m } ∧
      ∀ a, memByte m a = memByte (memSetBytes s.mem (p - strSize rs) (strBytes rs.reverse)) a := by
  induction rs generalizing ptrs s p with
  | nil =>
    refine ⟨s.mem, ?_, fun a => rfl⟩
    simp only [placeStrings, List.reverse_nil, strAddrs, List.map_nil, List.nil_append, strSize, List.sum_nil, Nat.sub_zero]
    congr 1
    have : s.x.set rsp (BitVec.ofNat 64 p) = s.x := by
      rw [← hp, BitVec.ofNat_toNat, BitVec.setWidth_eq]
      simp [State.reg]
    rw [this]
  | cons a rest ih =>
    have hlen := s.len.isLt
    have hss : strSize (a :: rest) = a.length + 1 + strSize rest := by simp [strSize]
    have hsub : (s.reg rsp - BitVec.ofNat 64 (a.length + 1)).toNat = p - (a.length + 1) := by
      rw [BitVec.toNat_sub, hp, BitVec.toNat_ofNat, Nat.mod_eq_of_lt (show a.length + 1 < 2 ^ 64 by omega)]
      rw [show 2 ^ 64 - (a.length + 1) + p = (p - (a.length + 1)) + 2 ^ 64 by omega, Nat.add_mod_right,
        Nat.mod_eq_of_lt (by omega)]
    simp only [placeStrings]
    set s1 := s.putReg rsp (s.reg rsp - BitVec.ofNat 64 (a.length + 1)) with hs1
    have hr1 : (s1.reg rsp).toNat = p - (a.length + 1) := by rw [hs1, putReg_reg, if_pos rfl, hsub]
    rcases writeCString_cases (s1.reg rsp).toNat a s1 with ⟨h, _⟩ | ⟨_, h, _⟩ | ⟨_, _, e⟩
    · have : s1.rb = s.rb := rfl
      rw [this] at h; omega
    · have : s1.len = s.len := rfl
      rw [this] at h; omega
    · rw [e, Res.bind_done]
      set s2 := s1.putBytes (s1.reg rsp).toNat (a ++ [0]) with hs2
      have hr2 : (s2.reg rsp).toNat = p - (a.length + 1) := hr1
      obtain ⟨m, e', hm⟩ := ih (s2.reg rsp :: ptrs) s2 (p - (a.length + 1)) hr2
        (by show s.rb.toNat + _ ≤ _; omega) (by show _ ≤ s.len.toNat; omega)
      have hq : p - (a.length + 1) - strSize rest = p - strSize (a :: rest) := by omega
      rw [hq] at e' hm
      refine ⟨m, ?_, fun b => ?_⟩
      · rw [e']
        have hx : s2.x.set rsp (BitVec.ofNat 64 (p - strSize (a :: rest)))
            = s.x.set rsp (BitVec.ofNat 64 (p - strSize (a :: rest))) := by
          show (s.x.set rsp _).set rsp _ = _
          exact Vector.set_set ..
        have hl : (strAddrs rest.reverse (p - strSize (a :: rest))).map (BitVec.ofNat 64) ++ s2.reg rsp :: ptrs
            = (strAddrs (a :: rest).reverse (p - strSize (a :: rest))).map (BitVec.ofNat 64) ++ ptrs := by
          rw [List.reverse_cons, strAddrs_append, List.map_append, List.append_assoc]
          congr 1
          simp only [strAddrs, List.map_cons, List.map_nil, List.cons_append, List.nil_append]
          congr 1
          apply BitVec.eq_of_toNat_eq
          rw [hr2, BitVec.toNat_ofNat, strSize_reverse, Nat.mod_eq_of_lt] <;> omega
        rw [hx, hl]
        rfl
      · have hf : strBytes (a :: rest).reverse = strBytes rest.reverse ++ (a ++ [0]) := by
          rw [List.reverse_cons, strBytes_append]; simp [strBytes]
        rw [hm, hf, ← memByte_adjacent s.mem (p - (a.length + 1)) _ _ _
          (by rw [strBytes_length, strSize_reverse]; omega)]
        apply memByte_memSetBytes_congr
        intro c
        show memByte (memSetBytes s.mem (s1.reg rsp).toNat _) c = _
        rw [hr1]

/-- Placing pointers that fit: it completes, each reads back, and every byte outside the array is as before. -/
theorem placePointers_done (ptrs : List Word) (pos : Nat) (s : State) (h1 : s.rb.toNat ≤ pos)
    (h2 : pos + 8 * ptrs.length ≤ s.len.toNat) :
    ∃ m, placePointers ptrs pos s = .done () { s with mem := m } ∧
      (∀ a, a < pos ∨ pos + 8 * ptrs.length ≤ a → memByte m a = memByte s.mem a) ∧
      (∀ k (h : k < ptrs.length), ({ s with mem := m } : State).value (pos + 8 * k) 8 = ptrs[k]) := by
  induction ptrs generalizing pos s with
  | nil => exact ⟨s.mem, rfl, fun a _ => rfl, fun k h => by simp at h⟩
  | cons v rest ih =>
    simp only [List.length_cons] at h2
    simp only [placePointers]
    rw [memWrite_done pos 8 v s h1 (by omega), Res.bind_done]
    obtain ⟨m, e, hm, hv⟩ := ih (pos + 8) (s.putValue pos 8 v) (by show s.rb.toNat ≤ _; omega)
      (by show _ ≤ s.len.toNat; omega)
    refine ⟨m, by rw [e]; rfl, fun a ha => ?_, fun k hk => ?_⟩
    · simp only [List.length_cons] at ha
      rw [hm a (by omega)]
      exact putValue_byte_outside s pos 8 a v (by omega)
    · cases k with
      | zero =>
        simp only [Nat.mul_zero, Nat.add_zero, List.getElem_cons_zero]
        rw [← putValue_value s pos 8 v]
        exact value_congr _ _ _ _ fun j hj => hm (pos + j) (by omega)
      | succ k =>
        have := hv k (by simpa using hk)
        rw [List.getElem_cons_succ, ← this, show pos + 8 * (k + 1) = pos + 8 + 8 * k by ring]
        rfl

/-! ### The placement and the commit keep the invariant -/

theorem writeCString_evolves (p : Nat) (str : List Byte) (s : State) : (writeCString p str s).Ends (Evolves s) := by
  rcases writeCString_cases p str s with ⟨_, e⟩ | ⟨_, _, e⟩ | ⟨h1, h2, e⟩
  · rw [e]; exact .refl s
  · rw [e]; exact .refl s
  · rw [e]; exact putBytes_evolves s p _ h1 (by simp; omega)

theorem placeStrings_evolves (rs : List (List Byte)) (ptrs : List Word) (s : State) :
    (placeStrings rs ptrs s).Ends (Evolves s) := by
  induction rs generalizing ptrs s with
  | nil => exact .refl s
  | cons a rest ih =>
    exact Res.Ends.after (putReg_evolves s rsp _) ((writeCString_evolves _ _ _).chain fun _ t => ih _ t)

theorem placePointers_evolves (ptrs : List Word) (pos : Nat) (s : State) :
    (placePointers ptrs pos s).Ends (Evolves s) := by
  induction ptrs generalizing pos s with
  | nil => exact .refl s
  | cons p rest ih => exact (memWrite_evolves _ _ _ _).chain fun _ t => ih _ t

theorem placeArgs_evolves (args : List (List Byte)) (s : State) : (placeArgs args s).Ends (Evolves s) := by
  refine (placeStrings_evolves _ _ _).chain fun ptrs t => ?_
  have h := putReg_evolves t rsp (t.reg rsp - BitVec.ofNat 64 (8 * args.length))
  refine Res.Ends.after h ((placePointers_evolves _ _ _).chain fun _ u => ?_)
  have h' := (putReg_evolves u rdi (BitVec.ofNat 64 args.length)).trans (putReg_evolves _ rsi (u.reg rsp))
  exact Res.Ends.after h' ((push_evolves _ _ _).chain fun _ v => push_evolves _ _ _)

/-- The commit of an image whose address space is a 64-bit word meets the invariant, whatever the state before. -/
theorem commitImage_inv (fill : Fill) (i : Image) (reserve : Word) (s : State) (h : addressSpace i reserve < 2 ^ 64) :
    (commitImage fill i reserve s).Inv := by
  unfold addressSpace at h
  have hl : (commitImage fill i reserve s).len.toNat =
      i.text.length + i.rodata.length + i.data.length + i.bss.toNat + reserve.toNat := by
    simp only [commitImage, addressSpace, BitVec.toNat_ofNat]; exact Nat.mod_eq_of_lt h
  have hs : (commitImage fill i reserve s).sb.toNat =
      i.text.length + i.rodata.length + i.data.length + i.bss.toNat := by
    simp only [commitImage, BitVec.toNat_ofNat]; exact Nat.mod_eq_of_lt (by omega)
  have hr : (commitImage fill i reserve s).rb.toNat = i.text.length + i.rodata.length := by
    simp only [commitImage, BitVec.toNat_ofNat]; exact Nat.mod_eq_of_lt (by omega)
  have he : (commitImage fill i reserve s).eb.toNat = i.text.length := by
    simp only [commitImage, BitVec.toNat_ofNat]; exact Nat.mod_eq_of_lt (by omega)
  refine ⟨memWf_memSetBytes _ _ _ (memWf_memSetBytes _ _ _ rfl), fun c hc => ?_, by omega, by omega, by omega, fun h => ?_,
    show (0x2 : Word) &&& ~~~pubFlags = 0x2#64 by decide, fun _ => rfl⟩
  · rw [hl]
    rcases mem_memSetBytes _ _ _ _ hc with hc | hc
    · have := hc.2
      simp at this; omega
    · rcases mem_memSetBytes _ _ _ _ hc with hc | hc
      · have := hc.2
        simp at this; omega
      · cases hc
  · cases h

end Sys2Proof.Machine
end

