-- ==== Sys2Proof/Laws/Decode.lean ====
section
/-! SUPPORT. The decoder's parts: one lemma per operand parser that says it gives back what was encoded, and one that says
it reads its own bytes only. -/

namespace Sys2Proof

/-! ### Sequencing and fetching -/

@[simp] theorem andThen_ok {α β : Type} (v : α) (rest : List Byte) (k : α → Parser β) :
    (Parsed.ok v rest).andThen k = k v rest := rfl
@[simp] theorem andThen_bad {α β : Type} (why : DecodeFault) (rest : List Byte) (k : α → Parser β) :
    (Parsed.bad why rest : Parsed α).andThen k = .bad why rest := rfl
@[simp] theorem fetchByte_cons (b : Byte) (bs : List Byte) : fetchByte (b :: bs) = .ok b bs := rfl
@[simp] theorem fetchByte_nil : fetchByte [] = .bad .truncated [] := rfl

theorem fetch_append (n : Nat) (bs tail : List Byte) (h : bs.length = n) : fetch n (bs ++ tail) = .ok (leNat bs) tail := by
  subst h; simp [fetch]

/-- The little-endian bytes of a number fetch back as it. -/
theorem fetch_leBytes (n v : Nat) (tail : List Byte) (h : v < 2 ^ (8 * n)) : fetch n (leBytes n v ++ tail) = .ok v tail := by
  rw [fetch_append n _ tail (leBytes_length n v), leNat_leBytes, Nat.mod_eq_of_lt h]

/-! ### Parts give back what was encoded -/

theorem decodeImm_encodeImm (v : Imm) (tail : List Byte) (h : v.wf = true) :
    decodeImm (encodeImm v ++ tail) = .ok v tail := by
  obtain ⟨sx, size, body⟩ := v
  have h1 : ∀ (b : Bool) (c : BitVec 2), (BitVec.ofBool b ++ 0#5 ++ c : BitVec 8).extractLsb' 2 5 = 0#5 := by decide
  have h2 : ∀ (b : Bool) (c : BitVec 2), (BitVec.ofBool b ++ 0#5 ++ c : BitVec 8).extractLsb' 0 2 = c := by decide
  have h3 : ∀ (b : Bool) (c : BitVec 2), (BitVec.ofBool b ++ 0#5 ++ c : BitVec 8).getLsbD 7 = b := by decide
  simp only [Imm.wf, decide_eq_true_eq] at h
  simp only [encodeImm, List.cons_append, decodeImm, fetchByte_cons, andThen_ok, h1, h2, h3, ne_eq, not_true, if_false,
    widthOf_widthCode]
  rw [fetch_leBytes _ _ _ h]
  simp

theorem decodeDisp_encodeDisp (size : AddrSize) (disp : Option Word) (tail : List Byte)
    (h : ∀ d, disp = some d → d.toNat < 2 ^ (8 * size.bytes)) :
    decodeDisp disp.isSome size (encodeDisp size disp ++ tail) = .ok disp tail := by
  cases disp with
  | none => rfl
  | some d =>
    simp only [decodeDisp, Option.isSome_some, if_true, encodeDisp]
    rw [fetch_leBytes _ _ _ (h d rfl)]
    simp

theorem decodeAddr_encodeAddr (a : Addr) (tail : List Byte) (h : a.wf = true) :
    decodeAddr (encodeAddr a ++ tail) = .ok a tail := by
  obtain ⟨size, scale, base, index, disp⟩ := a
  have h1 : ∀ (d b x : Bool) (k c : BitVec 2),
      (BitVec.ofBool d ++ 0#1 ++ k ++ c ++ BitVec.ofBool b ++ BitVec.ofBool x : BitVec 8).getLsbD 6 = false ∧
      (BitVec.ofBool d ++ 0#1 ++ k ++ c ++ BitVec.ofBool b ++ BitVec.ofBool x : BitVec 8).extractLsb' 2 2 = c ∧
      (BitVec.ofBool d ++ 0#1 ++ k ++ c ++ BitVec.ofBool b ++ BitVec.ofBool x : BitVec 8).extractLsb' 4 2 = k ∧
      (BitVec.ofBool d ++ 0#1 ++ k ++ c ++ BitVec.ofBool b ++ BitVec.ofBool x : BitVec 8).getLsbD 7 = d ∧
      (BitVec.ofBool d ++ 0#1 ++ k ++ c ++ BitVec.ofBool b ++ BitVec.ofBool x : BitVec 8).getLsbD 1 = b ∧
      (BitVec.ofBool d ++ 0#1 ++ k ++ c ++ BitVec.ofBool b ++ BitVec.ofBool x : BitVec 8).getLsbD 0 = x := by decide
  obtain ⟨e1, e2, e3, e4, e5, e6⟩ := h1 disp.isSome base.isSome index.isSome scale (addrSizeCode size)
  have hr : ∀ t, decodeRegs base.isSome index.isSome
      ((if base.isSome || index.isSome then
        [nibbles ((base.map regCode).getD 0#4) ((index.map regCode).getD 0#4)] else []) ++ t) = .ok (base, index) t := by
    intro t
    cases base <;> cases index <;> simp [decodeRegs]
  simp only [encodeAddr, List.cons_append, decodeAddr, fetchByte_cons, andThen_ok, e1, e2, e3, e4, e5, e6,
    addrSizeOf_addrSizeCode, List.append_assoc, Bool.false_eq_true, if_false]
  rw [hr, andThen_ok, decodeDisp_encodeDisp size disp tail (by rintro d rfl; simpa [Addr.wf] using h)]
  rfl

theorem decodeBin_encodeBin (mk : Width → BinForm → Instr) (w : Width) (f : BinForm) (tail : List Byte) (h : f.wf = true) :
    decodeBin mk (encodeBin w f ++ tail) = .ok (mk w f) tail := by
  cases f with
  | rr r s => simp [encodeBin, decodeBin]
  | ri r v => simp [encodeBin, decodeBin, decodeImm_encodeImm v tail h]
  | rm r a => simp [encodeBin, decodeBin, decodeAddr_encodeAddr a tail h]
  | mr a r => simp [encodeBin, decodeBin, decodeAddr_encodeAddr a tail h]

theorem decodeUn_encodeUn (mk : Width → RegMem → Instr) (w : Width) (d : RegMem) (tail : List Byte) (h : d.wf = true) :
    decodeUn mk (encodeUn w d ++ tail) = .ok (mk w d) tail := by
  cases d with
  | reg r => simp [encodeUn, decodeUn, decodeUnTail]
  | mem a => simp [encodeUn, decodeUn, decodeUnTail, decodeAddr_encodeAddr a tail h]

theorem widthCode_ne_zero (w : Width) (h : w.notByte = true) : widthCode w ≠ 0#2 := by
  rw [ne_eq, widthCode_eq_zero]
  rintro rfl
  exact absurd h (by decide)

theorem decodePop_encodeUn (w : Width) (d : RegMem) (tail : List Byte) (hw : w.notByte = true) (h : d.wf = true) :
    decodePop (encodeUn w d ++ tail) = .ok (.pop w d) tail := by
  have hc := widthCode_ne_zero w hw
  cases d with
  | reg r => simp [encodeUn, decodePop, decodeUnTail, hc]
  | mem a => simp [encodeUn, decodePop, decodeUnTail, hc, decodeAddr_encodeAddr a tail h]

theorem decodeVal_encodeVal (mk : Width → Operand → Instr) (w : Width) (t : Operand) (tail : List Byte)
    (h : valWf w t = true) : decodeVal mk (encodeVal w t ++ tail) = .ok (mk w t) tail := by
  simp only [valWf, Bool.and_eq_true] at h
  have hc := widthCode_ne_zero w h.1
  cases t with
  | reg r => simp [encodeVal, decodeVal, hc]
  | imm v => simp [encodeVal, decodeVal, hc, decodeImm_encodeImm v tail h.2]
  | mem a => simp [encodeVal, decodeVal, hc, decodeAddr_encodeAddr a tail h.2]

theorem decodeFrm_encodeFrm (mk : FpuForm → Instr) (f : FpuForm) (tail : List Byte) (h : f.wf = true) :
    decodeFrm mk (encodeFrm f ++ tail) = .ok (mk f) tail := by
  cases f with
  | st i =>
    have h1 : ∀ i : BitVec 3, hiNibble (0#5 ++ i : BitVec 8) = 0#4 ∧ (0#5 ++ i : BitVec 8).getLsbD 3 = false ∧
      (0#5 ++ i : BitVec 8).extractLsb' 0 3 = i := by decide
    obtain ⟨e1, e2, e3⟩ := h1 i
    simp only [encodeFrm, List.cons_append, List.nil_append, decodeFrm, fetchByte_cons, andThen_ok, e1, e2, e3]
    simp
  | mem a =>
    have e1 : hiNibble 0x08#8 = 0#4 := by decide
    have e2 : (0x08#8).getLsbD 3 = true := by decide
    have e3 : (0x08#8).extractLsb' 0 3 = 0#3 := by decide
    simp only [encodeFrm, List.cons_append, decodeFrm, fetchByte_cons, andThen_ok, e1, e2, e3]
    simp [decodeAddr_encodeAddr a tail h]

/-! ### Parts read their own bytes only -/

/-- The parser reads at most `k` bytes, hands on what follows them, and any `m` bytes with `k <= m` decide what it does. -/
def ReadsAtMost {α : Type} (k : Nat) (p : Parser α) : Prop :=
  ∀ (bs : List Byte) (m : Nat), k ≤ m →
    ∃ c, c ≤ k ∧ c ≤ bs.length ∧
      ((∃ v, p bs = .ok v (bs.drop c) ∧ p (bs.take m) = .ok v ((bs.drop c).take (m - c))) ∨
       (∃ why, p bs = .bad why (bs.drop c) ∧ p (bs.take m) = .bad why ((bs.drop c).take (m - c))))

theorem readsAtMost_ok {α : Type} (v : α) : ReadsAtMost 0 (fun bs => Parsed.ok v bs) := by
  intro bs m _
  exact ⟨0, by simp, by simp, .inl ⟨v, by simp, by simp⟩⟩

theorem readsAtMost_bad {α : Type} (why : DecodeFault) : ReadsAtMost 0 (fun bs => (Parsed.bad why bs : Parsed α)) := by
  intro bs m _
  exact ⟨0, by simp, by simp, .inr ⟨why, by simp, by simp⟩⟩

theorem ReadsAtMost.mono {α : Type} {k k' : Nat} {p : Parser α} (h : ReadsAtMost k p) (hk : k ≤ k') : ReadsAtMost k' p := by
  intro bs m hm
  obtain ⟨c, hc, hl, r⟩ := h bs m (by omega)
  exact ⟨c, by omega, hl, r⟩

theorem ReadsAtMost.andThen {α β : Type} {k l : Nat} {p : Parser α} {q : α → Parser β} (hp : ReadsAtMost k p)
    (hq : ∀ v, ReadsAtMost l (q v)) : ReadsAtMost (k + l) (fun bs => (p bs).andThen q) := by
  intro bs m hm
  obtain ⟨c, hc, hl, ⟨v, e1, e2⟩ | ⟨why, e1, e2⟩⟩ := hp bs m (by omega)
  · obtain ⟨d, hd, hdl, r⟩ := hq v (bs.drop c) (m - c) (by omega)
    refine ⟨c + d, by omega, by simp at hdl; omega, ?_⟩
    simp only [e1, e2, andThen_ok]
    rw [← List.drop_drop, show m - (c + d) = m - c - d by omega]
    exact r
  · exact ⟨c, by omega, hl, .inr ⟨why, by simp [e1], by simp [e2]⟩⟩

theorem readsAtMost_fetch (n : Nat) : ReadsAtMost n (fetch n) := by
  intro bs m hm
  by_cases h : bs.length < n
  · refine ⟨0, by simp, by simp, .inr ⟨.truncated, by simp [fetch, h], ?_⟩⟩
    rw [List.take_of_length_le (by omega : bs.length ≤ m)]
    simp only [fetch, h, if_true, List.drop_zero, Nat.sub_zero]
    rw [List.take_of_length_le (by omega : bs.length ≤ m)]
  · refine ⟨n, le_refl n, by omega, .inl ⟨leNat (bs.take n), by simp [fetch, h], ?_⟩⟩
    have h' : ¬ (bs.take m).length < n := by simp; omega
    simp only [fetch, h', if_false, List.take_take, Nat.min_eq_left hm, List.drop_take]

theorem readsAtMost_fetchByte : ReadsAtMost 1 fetchByte := by
  intro bs m hm
  cases bs with
  | nil => exact ⟨0, by simp, by simp, .inr ⟨.truncated, rfl, by simp⟩⟩
  | cons b bs =>
    obtain ⟨m, rfl⟩ : ∃ m', m = m' + 1 := ⟨m - 1, by omega⟩
    exact ⟨1, le_refl 1, by simp, .inl ⟨b, rfl, by simp⟩⟩

theorem readsAtMost_ite {α : Type} {k : Nat} {c : Prop} [Decidable c] {p q : Parser α} (hp : ReadsAtMost k p)
    (hq : ReadsAtMost k q) : ReadsAtMost k (fun bs => if c then p bs else q bs) := by
  by_cases h : c
  · simpa [h] using hp
  · simpa [h] using hq

theorem Width.bytes_le (w : Width) : w.bytes ≤ 8 := by cases w <;> decide
theorem AddrSize.bytes_le (a : AddrSize) : a.bytes ≤ 8 := by cases a <;> decide

theorem readsAtMost_decodeImm : ReadsAtMost 9 decodeImm :=
  readsAtMost_fetchByte.andThen (l := 8) fun _ => readsAtMost_ite ((readsAtMost_bad _).mono (by omega))
    (((readsAtMost_fetch _).andThen fun _ => readsAtMost_ok _).mono (Width.bytes_le _))

theorem readsAtMost_decodeDisp (d : Bool) (size : AddrSize) : ReadsAtMost 8 (decodeDisp d size) :=
  readsAtMost_ite (((readsAtMost_fetch _).andThen fun _ => readsAtMost_ok _).mono (AddrSize.bytes_le _))
    ((readsAtMost_ok _).mono (by omega))

theorem readsAtMost_decodeRegs (b x : Bool) : ReadsAtMost 1 (decodeRegs b x) :=
  readsAtMost_ite (readsAtMost_fetchByte.andThen fun _ => readsAtMost_ite (readsAtMost_bad _)
    (readsAtMost_ite (readsAtMost_bad _) (readsAtMost_ok _))) ((readsAtMost_ok _).mono (by omega))

theorem readsAtMost_decodeAddr : ReadsAtMost 10 decodeAddr := by
  refine readsAtMost_fetchByte.andThen (l := 9) fun a => readsAtMost_ite ((readsAtMost_bad _).mono (by omega)) ?_
  cases addrSizeOf (a.extractLsb' 2 2) with
  | none => exact (readsAtMost_bad _).mono (by omega)
  | some size =>
    exact (readsAtMost_decodeRegs _ _).andThen fun _ => (readsAtMost_decodeDisp _ _).andThen fun _ => readsAtMost_ok _

theorem readsAtMost_decodeBin (mk : Width → BinForm → Instr) : ReadsAtMost 11 (decodeBin mk) := by
  refine readsAtMost_fetchByte.andThen (l := 10) fun s => readsAtMost_ite ?_ (readsAtMost_ite ?_ (readsAtMost_ite ?_ ?_))
  · exact (readsAtMost_fetchByte.andThen fun _ => readsAtMost_ite (readsAtMost_bad _) (readsAtMost_ok _)).mono (by omega)
  · exact (readsAtMost_decodeImm.andThen fun _ => readsAtMost_ok _).mono (by omega)
  · exact readsAtMost_decodeAddr.andThen fun _ => readsAtMost_ok _
  · exact readsAtMost_decodeAddr.andThen fun _ => readsAtMost_ok _

theorem readsAtMost_decodeUnTail (s : Byte) (mk : Width → RegMem → Instr) : ReadsAtMost 10 (decodeUnTail s mk) :=
  readsAtMost_ite ((readsAtMost_ok _).mono (by omega)) (readsAtMost_ite
    (readsAtMost_ite ((readsAtMost_bad _).mono (by omega)) (readsAtMost_decodeAddr.andThen fun _ => readsAtMost_ok _))
    ((readsAtMost_bad _).mono (by omega)))

theorem readsAtMost_decodeUn (mk : Width → RegMem → Instr) : ReadsAtMost 11 (decodeUn mk) :=
  readsAtMost_fetchByte.andThen fun _ => readsAtMost_decodeUnTail _ _

theorem readsAtMost_decodePop : ReadsAtMost 11 decodePop :=
  readsAtMost_fetchByte.andThen fun _ => readsAtMost_ite ((readsAtMost_bad _).mono (by omega)) (readsAtMost_decodeUnTail _ _)

theorem readsAtMost_decodeVal (mk : Width → Operand → Instr) : ReadsAtMost 11 (decodeVal mk) := by
  refine readsAtMost_fetchByte.andThen (l := 10) fun s => readsAtMost_ite ((readsAtMost_bad _).mono (by omega))
    (readsAtMost_ite ((readsAtMost_ok _).mono (by omega)) (readsAtMost_ite ?_ (readsAtMost_ite ?_
      ((readsAtMost_bad _).mono (by omega)))))
  · exact readsAtMost_ite ((readsAtMost_bad _).mono (by omega))
      ((readsAtMost_decodeImm.andThen fun _ => readsAtMost_ok _).mono (by omega))
  · exact readsAtMost_ite ((readsAtMost_bad _).mono (by omega)) (readsAtMost_decodeAddr.andThen fun _ => readsAtMost_ok _)

theorem readsAtMost_decodeLea : ReadsAtMost 11 decodeLea :=
  readsAtMost_fetchByte.andThen fun _ => readsAtMost_ite ((readsAtMost_bad _).mono (by omega))
    (readsAtMost_decodeAddr.andThen fun _ => readsAtMost_ok _)

theorem readsAtMost_decodeCond : ReadsAtMost 12 decodeCond :=
  readsAtMost_fetchByte.andThen fun _ => readsAtMost_ite ((readsAtMost_bad _).mono (by omega)) (readsAtMost_decodeVal _)

theorem readsAtMost_decodeLoop : ReadsAtMost 12 decodeLoop :=
  readsAtMost_fetchByte.andThen fun _ => readsAtMost_ite ((readsAtMost_bad _).mono (by omega))
    (readsAtMost_ite (readsAtMost_decodeVal _) (readsAtMost_ite (readsAtMost_decodeVal _)
      (readsAtMost_ite (readsAtMost_decodeVal _) ((readsAtMost_bad _).mono (by omega)))))

theorem readsAtMost_decodeFrm (mk : FpuForm → Instr) : ReadsAtMost 11 (decodeFrm mk) :=
  readsAtMost_fetchByte.andThen fun _ => readsAtMost_ite ((readsAtMost_bad _).mono (by omega))
    (readsAtMost_ite (readsAtMost_ite ((readsAtMost_bad _).mono (by omega))
      (readsAtMost_decodeAddr.andThen fun _ => readsAtMost_ok _)) ((readsAtMost_ok _).mono (by omega)))

theorem readsAtMost_decodeFi : ReadsAtMost 1 decodeFi :=
  readsAtMost_fetchByte.andThen fun _ => readsAtMost_ite (readsAtMost_bad _) (readsAtMost_ok _)

end Sys2Proof
end

