-- ==== Sys2Proof/Laws/PerInstr.lean ====
section
/-! SUPPORT. Statements made of every instruction, one lemma per constructor: each encoding has 1 to 13 bytes, and it starts
with an opcode that OPCODE_MAP assigns (30_encoding.md R129, R130). -/

namespace Sys2Proof.Laws.Encoding

/-- The encoding's length is 1 to 13 bytes and its first byte is an assigned opcode. -/
def Statement (i : Instr) : Prop :=
  1 ≤ (encode i).length ∧ (encode i).length ≤ 13 ∧
    ∃ op rest p, encode i = op :: rest ∧ operandsOf op = some p

theorem encodeImm_length (v : Imm) : (encodeImm v).length ≤ 9 := by
  obtain ⟨sx, size, body⟩ := v
  cases size <;> simp [encodeImm, Width.bytes]

theorem encodeAddr_length (a : Addr) : (encodeAddr a).length ≤ 10 := by
  obtain ⟨size, scale, base, index, disp⟩ := a
  cases disp <;> cases size <;> cases base <;> cases index <;> simp [encodeAddr, encodeDisp, AddrSize.bytes]

theorem encodeBin_length (w : Width) (f : BinForm) : (encodeBin w f).length ≤ 11 := by
  cases f with
  | rr r s => simp [encodeBin]
  | ri r v => have := encodeImm_length v; simp [encodeBin]; omega
  | rm r a => have := encodeAddr_length a; simp [encodeBin]; omega
  | mr a r => have := encodeAddr_length a; simp [encodeBin]; omega

theorem encodeUn_length (w : Width) (d : RegMem) : (encodeUn w d).length ≤ 11 := by
  cases d with
  | reg r => simp [encodeUn]
  | mem a => have := encodeAddr_length a; simp [encodeUn]; omega

theorem encodeVal_length (w : Width) (t : Operand) : (encodeVal w t).length ≤ 11 := by
  cases t with
  | reg r => simp [encodeVal]
  | imm v => have := encodeImm_length v; simp [encodeVal]; omega
  | mem a => have := encodeAddr_length a; simp [encodeVal]; omega

theorem encodeFrm_length (f : FpuForm) : (encodeFrm f).length ≤ 11 := by
  cases f with
  | st i => simp [encodeFrm]
  | mem a => have := encodeAddr_length a; simp [encodeFrm]; omega

/-- From an opcode byte and operand bytes of known length. -/
theorem of_cons (i : Instr) (op : Byte) (rest : List Byte) (h : encode i = op :: rest) (hl : rest.length ≤ 12)
    (p : Parser Instr) (hp : operandsOf op = some p) : Statement i := by
  refine ⟨?_, ?_, op, rest, p, h, hp⟩ <;> rw [h, List.length_cons] <;> omega

theorem nop : Statement .nop := of_cons _ _ _ rfl (by simp) _ rfl
theorem hlt : Statement .hlt := of_cons _ _ _ rfl (by simp) _ rfl
theorem syscall : Statement .syscall := of_cons _ _ _ rfl (by simp) _ rfl
theorem pushf : Statement .pushf := of_cons _ _ _ rfl (by simp) _ rfl
theorem popf : Statement .popf := of_cons _ _ _ rfl (by simp) _ rfl
theorem mov (w : Width) (f : BinForm) : Statement (.mov w f) := of_cons _ _ _ rfl (by have := encodeBin_length w f; omega) _ rfl
theorem lea (w : Width) (r : Reg) (a : Addr) : Statement (.lea w r a) := of_cons _ _ _ rfl (by have := encodeAddr_length a; simp; omega) _ rfl
theorem push (w : Width) (v : Operand) : Statement (.push w v) := of_cons _ _ _ rfl (by have := encodeVal_length w v; omega) _ rfl
theorem pop (w : Width) (d : RegMem) : Statement (.pop w d) := of_cons _ _ _ rfl (by have := encodeUn_length w d; omega) _ rfl
theorem jmp (w : Width) (t : Operand) : Statement (.jmp w t) := of_cons _ _ _ rfl (by have := encodeVal_length w t; omega) _ rfl
theorem jo (w : Width) (t : Operand) : Statement (.jo w t) := of_cons _ _ _ rfl (by have := encodeVal_length w t; simp; omega) _ rfl
theorem jno (w : Width) (t : Operand) : Statement (.jno w t) := of_cons _ _ _ rfl (by have := encodeVal_length w t; simp; omega) _ rfl
theorem jb (w : Width) (t : Operand) : Statement (.jb w t) := of_cons _ _ _ rfl (by have := encodeVal_length w t; simp; omega) _ rfl
theorem jae (w : Width) (t : Operand) : Statement (.jae w t) := of_cons _ _ _ rfl (by have := encodeVal_length w t; simp; omega) _ rfl
theorem je (w : Width) (t : Operand) : Statement (.je w t) := of_cons _ _ _ rfl (by have := encodeVal_length w t; simp; omega) _ rfl
theorem jne (w : Width) (t : Operand) : Statement (.jne w t) := of_cons _ _ _ rfl (by have := encodeVal_length w t; simp; omega) _ rfl
theorem jbe (w : Width) (t : Operand) : Statement (.jbe w t) := of_cons _ _ _ rfl (by have := encodeVal_length w t; simp; omega) _ rfl
theorem ja (w : Width) (t : Operand) : Statement (.ja w t) := of_cons _ _ _ rfl (by have := encodeVal_length w t; simp; omega) _ rfl
theorem js (w : Width) (t : Operand) : Statement (.js w t) := of_cons _ _ _ rfl (by have := encodeVal_length w t; simp; omega) _ rfl
theorem jns (w : Width) (t : Operand) : Statement (.jns w t) := of_cons _ _ _ rfl (by have := encodeVal_length w t; simp; omega) _ rfl
theorem jp (w : Width) (t : Operand) : Statement (.jp w t) := of_cons _ _ _ rfl (by have := encodeVal_length w t; simp; omega) _ rfl
theorem jnp (w : Width) (t : Operand) : Statement (.jnp w t) := of_cons _ _ _ rfl (by have := encodeVal_length w t; simp; omega) _ rfl
theorem jl (w : Width) (t : Operand) : Statement (.jl w t) := of_cons _ _ _ rfl (by have := encodeVal_length w t; simp; omega) _ rfl
theorem jge (w : Width) (t : Operand) : Statement (.jge w t) := of_cons _ _ _ rfl (by have := encodeVal_length w t; simp; omega) _ rfl
theorem jle (w : Width) (t : Operand) : Statement (.jle w t) := of_cons _ _ _ rfl (by have := encodeVal_length w t; simp; omega) _ rfl
theorem jg (w : Width) (t : Operand) : Statement (.jg w t) := of_cons _ _ _ rfl (by have := encodeVal_length w t; simp; omega) _ rfl
theorem loop (w : Width) (t : Operand) : Statement (.loop w t) := of_cons _ _ _ rfl (by have := encodeVal_length w t; simp; omega) _ rfl
theorem loope (w : Width) (t : Operand) : Statement (.loope w t) := of_cons _ _ _ rfl (by have := encodeVal_length w t; simp; omega) _ rfl
theorem loopne (w : Width) (t : Operand) : Statement (.loopne w t) := of_cons _ _ _ rfl (by have := encodeVal_length w t; simp; omega) _ rfl
theorem call (w : Width) (t : Operand) : Statement (.call w t) := of_cons _ _ _ rfl (by have := encodeVal_length w t; omega) _ rfl
theorem ret : Statement .ret := of_cons _ _ _ rfl (by simp) _ rfl
theorem add (w : Width) (f : BinForm) : Statement (.add w f) := of_cons _ _ _ rfl (by have := encodeBin_length w f; omega) _ rfl
theorem sub (w : Width) (f : BinForm) : Statement (.sub w f) := of_cons _ _ _ rfl (by have := encodeBin_length w f; omega) _ rfl
theorem cmp (w : Width) (f : BinForm) : Statement (.cmp w f) := of_cons _ _ _ rfl (by have := encodeBin_length w f; omega) _ rfl
theorem and (w : Width) (f : BinForm) : Statement (.and w f) := of_cons _ _ _ rfl (by have := encodeBin_length w f; omega) _ rfl
theorem or (w : Width) (f : BinForm) : Statement (.or w f) := of_cons _ _ _ rfl (by have := encodeBin_length w f; omega) _ rfl
theorem xor (w : Width) (f : BinForm) : Statement (.xor w f) := of_cons _ _ _ rfl (by have := encodeBin_length w f; omega) _ rfl
theorem test (w : Width) (f : BinForm) : Statement (.test w f) := of_cons _ _ _ rfl (by have := encodeBin_length w f; omega) _ rfl
theorem inc (w : Width) (d : RegMem) : Statement (.inc w d) := of_cons _ _ _ rfl (by have := encodeUn_length w d; omega) _ rfl
theorem dec (w : Width) (d : RegMem) : Statement (.dec w d) := of_cons _ _ _ rfl (by have := encodeUn_length w d; omega) _ rfl
theorem neg (w : Width) (d : RegMem) : Statement (.neg w d) := of_cons _ _ _ rfl (by have := encodeUn_length w d; omega) _ rfl
theorem not (w : Width) (d : RegMem) : Statement (.not w d) := of_cons _ _ _ rfl (by have := encodeUn_length w d; omega) _ rfl
theorem fld (f : FpuForm) : Statement (.fld f) := of_cons _ _ _ rfl (by have := encodeFrm_length f; omega) _ rfl
theorem fst (f : FpuForm) : Statement (.fst f) := of_cons _ _ _ rfl (by have := encodeFrm_length f; omega) _ rfl
theorem fstp (f : FpuForm) : Statement (.fstp f) := of_cons _ _ _ rfl (by have := encodeFrm_length f; omega) _ rfl
theorem ffree (i : StIndex) : Statement (.ffree i) := of_cons _ _ _ rfl (by simp) _ rfl
theorem fincstp : Statement .fincstp := of_cons _ _ _ rfl (by simp) _ rfl
theorem fdecstp : Statement .fdecstp := of_cons _ _ _ rfl (by simp) _ rfl
theorem finit : Statement .finit := of_cons _ _ _ rfl (by simp) _ rfl

end Sys2Proof.Laws.Encoding
end

