-- ==== Sys2Proof/Laws/Syscall.lean ====
section
/-! SUPPORT. The syscall layer's parts: what each check and host call answers, the frame that every handler keeps, and
the cases of SYSCALL. -/

namespace Sys2Proof.Machine

/-- CheckFD on a slot in use (60_exceptions.md R297). -/
theorem checkFd_done (v : Word) (s : State) (h : v.toNat < s.nfd) (hu : (s.fdAt v.toNat).inUse = true) :
    checkFd v s = .done v.toNat s := by
  unfold checkFd; rw [if_pos h, if_pos hu]

/-- CheckFD outside the table (R297). -/
theorem checkFd_outOfBounds (v : Word) (s : State) (h : s.nfd ≤ v.toNat) : checkFd v s = .raised .outOfBounds s :=
  if_neg (by omega)

/-- CheckFD on a free slot (R297). -/
theorem checkFd_free (v : Word) (s : State) (h : v.toNat < s.nfd) (hu : (s.fdAt v.toNat).inUse = false) :
    checkFd v s = .raised .fdNotInUse s := by
  unfold checkFd; rw [if_pos h, if_neg (by rw [hu]; decide)]

/-- A host operation that succeeds (R305). -/
theorem askOrFail_done (c : HostCall) (s : State) (h : (askHost c s).1.failed = false) :
    askOrFail c s = .done (askHost c s).1 (askHost c s).2 :=
  if_neg (show ¬ (askHost c s).1.failed = true by rw [h]; decide)

/-- A host operation that fails (R305). -/
theorem askOrFail_raised (c : HostCall) (s : State) (h : (askHost c s).1.failed = true) :
    askOrFail c s = .raised .ioFailure (askHost c s).2 := if_pos h

theorem fsGate_done (s : State) (h : s.cfg.fsEnabled = true) : fsGate s = .done () s := if_pos h
theorem fsGate_raised (s : State) (h : s.cfg.fsEnabled = false) : fsGate s = .raised .fsDisabled s :=
  if_neg (by rw [h]; decide)

/-- The lowest free slot is the one found (R301). -/
theorem freeSlot_lowest (s : State) (k : Nat) (hk : k < s.nfd) (h1 : (s.fdAt k).inUse = false)
    (h2 : ∀ j, j < k → (s.fdAt j).inUse = true) : freeSlot s.fd = some k := by
  unfold State.nfd at hk
  unfold freeSlot
  rw [List.findIdx?_eq_some_iff_getElem]
  refine ⟨hk, by simpa [State.fdAt, List.getD_eq_getElem?_getD, hk] using h1, fun j hj => ?_⟩
  have hl : j < s.fd.length := by omega
  simpa [State.fdAt, List.getD_eq_getElem?_getD, hl] using h2 j hj

theorem freeSlot_full (s : State) (h : ∀ k, k < s.nfd → (s.fdAt k).inUse = true) : freeSlot s.fd = none := by
  unfold freeSlot
  rw [List.findIdx?_eq_none_iff]
  intro f hf
  obtain ⟨k, hk, rfl⟩ := List.getElem_of_mem hf
  simpa [State.fdAt, List.getD_eq_getElem?_getD, hk] using h k hk

/-- The result of a service that only asked the host (R303). -/
theorem sysResult_askHost (c : HostCall) (v : Word) (s : State) :
    sysResult v (askHost c s).2 = .done .finished ((askHost c s).2.putReg s.resultReg v) := by
  unfold sysResult; rw [askHost_resultReg]

/-- The closes of a termination, by slot index, newest call first (R287). -/
theorem closeCalls_range (s : State) :
    (closeCalls s.fd).reverse =
      ((List.range s.nfd).reverse.filter fun k => (s.fdAt k).inUse).map fun k => HostCall.close (s.fdAt k).stream := by
  have h : s.fd = (List.range s.nfd).map s.fdAt := by
    apply List.ext_getElem
    · simp [State.nfd]
    · intro n h1 h2; simp [State.fdAt, List.getD_eq_getElem?_getD, h1]
  conv_lhs => rw [h]
  rw [closeCalls, List.filter_map, List.map_map, ← List.map_reverse, List.filter_reverse]
  rfl

/-! ### The frame of every handler (R298) -/

/-- What a handler may do at most, a raised error included: it keeps the invariant, the barriers and readonly memory, every
general register but the result register, RIP, RFLAGS, the FPU stack and the status fields. -/
structure HandlerFrame (s t : State) : Prop where
  evolves : Evolves s t
  regs : keepsRegsBut s.resultReg s t
  rip : t.rip = s.rip
  rflags : t.rflags = s.rflags
  fpu : keepsFpu s t
  run : keepsRun s t
  suspended : t.suspendedRead = s.suspendedRead

theorem HandlerFrame.refl (s : State) : HandlerFrame s s :=
  ⟨.refl s, fun _ _ => rfl, rfl, rfl, ⟨rfl, rfl, rfl⟩, ⟨rfl, rfl, rfl⟩, rfl⟩

theorem HandlerFrame.trans {s t u : State} (h : HandlerFrame s t) (h' : HandlerFrame t u) : HandlerFrame s u := by
  have hr : t.resultReg = s.resultReg := by unfold State.resultReg; rw [h.evolves.barriers.2.2.2.2.1]
  refine ⟨h.evolves.trans h'.evolves, fun j hj => ?_, h'.rip.trans h.rip, h'.rflags.trans h.rflags, ?_, ?_,
    h'.suspended.trans h.suspended⟩
  · exact (h'.regs j (by rw [hr]; exact hj)).trans (h.regs j hj)
  · exact ⟨h'.fpu.1.trans h.fpu.1, h'.fpu.2.1.trans h.fpu.2.1, h'.fpu.2.2.trans h.fpu.2.2⟩
  · exact ⟨h'.run.1.trans h.run.1, h'.run.2.1.trans h.run.2.1, h'.run.2.2.trans h.run.2.2⟩

/-- What comes after a framed change. -/
theorem Res.Ends.afterFrame {α : Type} {s t : State} {r : Res α} (h : HandlerFrame s t) (hr : r.Ends (HandlerFrame t)) :
    r.Ends (HandlerFrame s) := by
  cases r with
  | done v u => exact h.trans hr
  | raised e u => exact h.trans hr

/-- A sequence of framed pieces is framed. -/
theorem Res.Ends.chainFrame {α β : Type} {s : State} {r : Res α} {k : α → State → Res β}
    (h : r.Ends (HandlerFrame s)) (hk : ∀ v t, (k v t).Ends (HandlerFrame t)) : (r.bind k).Ends (HandlerFrame s) :=
  h.bind fun v t e => Res.Ends.afterFrame e (hk v t)

theorem checkFd_frame (v : Word) (s : State) : (checkFd v s).Ends (HandlerFrame s) := by
  unfold checkFd; split
  · split <;> exact .refl s
  · exact .refl s

theorem fsGate_frame (s : State) : (fsGate s).Ends (HandlerFrame s) := by unfold fsGate; split <;> exact .refl s

theorem askHost_frame (c : HostCall) (s : State) : HandlerFrame s (askHost c s).2 :=
  ⟨askHost_evolves c s, fun j _ => by simp, by simp, by simp, by simp [keepsFpu], by simp [keepsRun], by simp⟩

theorem askOrFail_frame (c : HostCall) (s : State) : (askOrFail c s).Ends (HandlerFrame s) := by
  cases h : (askHost c s).1.failed with
  | true => rw [askOrFail_raised c s h]; exact askHost_frame c s
  | false => rw [askOrFail_done c s h]; exact askHost_frame c s

theorem checkBufRead_frame (p n : Nat) (s : State) : (checkBufRead p n s).Ends (HandlerFrame s) := by
  unfold checkBufRead; split <;> exact .refl s

theorem checkBufWrite_frame (p n : Nat) (s : State) : (checkBufWrite p n s).Ends (HandlerFrame s) := by
  unfold checkBufWrite
  rcases checkWrite_cases p n s with ⟨_, e⟩ | ⟨_, _, e⟩ | ⟨_, _, e⟩ <;> rw [e] <;> exact .refl s

theorem memRead_frame (p n : Nat) (s : State) : (memRead p n s).Ends (HandlerFrame s) := by
  rcases memRead_cases p n s with ⟨_, e⟩ | ⟨_, e⟩ <;> rw [e] <;> exact .refl s

theorem readCString_frame (p : Nat) (s : State) : (readCString p s).Ends (HandlerFrame s) := by
  rcases readCString_cases p s with ⟨str, e⟩ | e <;> rw [e] <;> exact .refl s

/-- A store inside the range a check passed. -/
theorem putBytes_frame (s : State) (p : Nat) (bs : List Byte) (h1 : s.rb.toNat ≤ p)
    (h2 : p + bs.length ≤ s.len.toNat) : HandlerFrame s (s.putBytes p bs) :=
  ⟨putBytes_evolves s p bs h1 h2, fun _ _ => rfl, rfl, rfl, ⟨rfl, rfl, rfl⟩, ⟨rfl, rfl, rfl⟩, rfl⟩

theorem memWrite_frame (p n : Nat) (v : BitVec (8 * n)) (s : State) : (memWrite p n v s).Ends (HandlerFrame s) := by
  rcases memWrite_cases p n v s with ⟨_, e⟩ | ⟨_, _, e⟩ | ⟨h1, h2, e⟩
  · rw [e]; exact .refl s
  · rw [e]; exact .refl s
  · rw [e]; exact putBytes_frame s p _ h1 (by simpa using h2)

theorem writeCString_frame (p : Nat) (str : List Byte) (s : State) : (writeCString p str s).Ends (HandlerFrame s) := by
  rcases writeCString_cases p str s with ⟨_, e⟩ | ⟨_, _, e⟩ | ⟨h1, h2, e⟩
  · rw [e]; exact .refl s
  · rw [e]; exact .refl s
  · rw [e]; exact putBytes_frame s p _ h1 (by simp; omega)

theorem putFd_frame (s : State) (k : Nat) (f : FdSlot) : HandlerFrame s (s.putFd k f) :=
  ⟨.of_same rfl ⟨rfl, rfl, rfl, rfl, rfl, putFd_nfd s k f⟩ rfl rfl rfl rfl, fun _ _ => rfl, rfl, rfl, ⟨rfl, rfl, rfl⟩,
    ⟨rfl, rfl, rfl⟩, rfl⟩

theorem putResult_frame (s : State) (v : Word) : HandlerFrame s (s.putReg s.resultReg v) :=
  ⟨putReg_evolves _ _ _, fun j hj => by simp [hj], rfl, rfl, ⟨rfl, rfl, rfl⟩, ⟨rfl, rfl, rfl⟩, rfl⟩

theorem sysResult_frame (v : Word) (s : State) : (sysResult v s).Ends (HandlerFrame s) := putResult_frame s v

/-- A read stores only inside the range its check passed. -/
theorem sysRead_frame (s : State) : (sysRead s).Ends (HandlerFrame s) := by
  unfold sysRead checkBufWrite
  refine (checkFd_frame _ _).chainFrame fun k t => ?_
  rcases checkWrite_cases t.arg1.toNat t.arg2.toNat t with ⟨_, e⟩ | ⟨_, _, e⟩ | ⟨h1, h2, e⟩
  · rw [e]; exact .refl t
  · rw [e]; exact .refl t
  · rw [e, Res.bind_done]
    unfold askOrFail
    simp only []
    have ha := askHost_frame (.read (t.fdAt k).stream t.arg2.toNat) t
    split
    · exact ha
    · simp only [Res.bind_done]
      split
      · exact ha
      · refine Res.Ends.afterFrame (ha.trans (putBytes_frame _ _ _ ?_ ?_)) (sysResult_frame _ _)
        · simpa using h1
        · simp at h2 ⊢; omega

theorem sysPath_frame (call : List Byte → HostCall) (s : State) : (sysPath call s).Ends (HandlerFrame s) :=
  (fsGate_frame _).chainFrame fun _ _ => (readCString_frame _ _).chainFrame fun _ _ =>
    (askOrFail_frame _ _).chainFrame fun _ _ => sysResult_frame _ _

/-- A handler of the host's own has the frame, whatever it does. -/
theorem runHandler_frame (h : Handler) (s : State) : (runHandler h s).Ends (HandlerFrame s) := by
  induction h generalizing s with
  | finish => exact .refl s
  | suspend => exact .refl s
  | exit _ => exact .refl s
  | fail _ => exact .refl s
  | readReg r k ih => exact ih _ s
  | writeResult v k ih => exact Res.Ends.afterFrame (putResult_frame s v) (ih _)
  | readMem p w k ih => exact (memRead_frame _ _ _).chainFrame fun _ _ => ih _ _
  | writeMem p w v k ih => exact (memWrite_frame _ _ _ _).chainFrame fun _ _ => ih _
  | readString p k ih => exact (readCString_frame _ _).chainFrame fun _ _ => ih _ _
  | writeString p str k ih => exact (writeCString_frame _ _ _).chainFrame fun _ _ => ih _
  | checkBufRead p n k ih => exact (checkBufRead_frame _ _ _).chainFrame fun _ _ => ih _
  | checkBufWrite p n k ih => exact (checkBufWrite_frame _ _ _).chainFrame fun _ _ => ih _
  | readFsEnabled k ih => exact ih _ s
  | readFds k ih => exact ih _ s
  | writeFd n f k ih => exact Res.Ends.afterFrame (putFd_frame s n f) (ih _)
  | askHost c k ih => exact Res.Ends.afterFrame (askHost_frame c s) (ih _ _)

/-- Every handler has the frame. -/
theorem handler_frame (H : HandlerTable) (v : Service) (s : State) : (handler H v s).Ends (HandlerFrame s) := by
  cases v with
  | exit => exact .refl s
  | read => exact sysRead_frame s
  | write =>
    exact (checkFd_frame _ _).chainFrame fun _ _ => (checkBufRead_frame _ _ _).chainFrame fun _ _ =>
      (askOrFail_frame _ _).chainFrame fun _ _ => sysResult_frame _ _
  | openFile =>
    refine (fsGate_frame _).chainFrame fun _ _ => (readCString_frame _ _).chainFrame fun p t => ?_
    split
    · exact .refl t
    · exact (askOrFail_frame _ _).chainFrame fun _ _ => Res.Ends.afterFrame (putFd_frame _ _ _) (sysResult_frame _ _)
  | close =>
    refine (checkFd_frame _ _).chainFrame fun k t => ?_
    simp only []
    have ha := (askHost_frame (.close (t.fdAt k).stream) t).trans
      (putFd_frame _ k (closedSlot ((askHost (.close (t.fdAt k).stream) t).2.fdAt k)))
    split
    · exact ha
    · exact Res.Ends.afterFrame ha (sysResult_frame _ _)
  | flush =>
    exact (checkFd_frame _ _).chainFrame fun _ _ => (askOrFail_frame _ _).chainFrame fun _ _ => sysResult_frame _ _
  | seek =>
    refine (checkFd_frame _ _).chainFrame fun k t => ?_
    split
    · exact .refl t
    · exact (askOrFail_frame _ _).chainFrame fun _ _ => sysResult_frame _ _
  | tell =>
    exact (checkFd_frame _ _).chainFrame fun _ _ => (askOrFail_frame _ _).chainFrame fun _ _ => sysResult_frame _ _
  | move =>
    exact (fsGate_frame _).chainFrame fun _ _ => (readCString_frame _ _).chainFrame fun _ _ =>
      (readCString_frame _ _).chainFrame fun _ _ => (askOrFail_frame _ _).chainFrame fun _ _ => sysResult_frame _ _
  | remove => exact sysPath_frame _ s
  | mkdir => exact sysPath_frame _ s
  | rmdir => exact sysPath_frame _ s
  | own n => exact runHandler_frame _ s

/-- What SYSCALL can do: no handler, a raised error, or a handler's end applied; the handler's part has the frame. -/
theorem execSyscallWith_cases (H : HandlerTable) (s : State) :
    (s.service = none ∧ execSyscallWith H s = .next (terminate .unhandledSyscall s)) ∨
    (∃ v e u, s.service = some v ∧ handler H v s = .raised e u ∧ HandlerFrame s u ∧
      execSyscallWith H s = .next (terminate e u)) ∨
    (∃ v e u, s.service = some v ∧ handler H v s = .done e u ∧ HandlerFrame s u ∧
      execSyscallWith H s = .next (applySysEnd e u)) := by
  unfold execSyscallWith
  cases hv : s.service with
  | none => exact .inl ⟨rfl, rfl⟩
  | some v =>
    have hf := handler_frame H v s
    cases hh : handler H v s with
    | raised e u => rw [hh] at hf; exact .inr (.inl ⟨v, e, u, rfl, hh, hf, by simp only [hh]; rfl⟩)
    | done e u => rw [hh] at hf; exact .inr (.inr ⟨v, e, u, rfl, hh, hf, by simp only [hh]; rfl⟩)

end Sys2Proof.Machine
end

