-- ==== Sys2Proof/Tests/Slice0.lean ====
section
/-! SUPPORT. The author's tests. Every expected value is taken from spec/95_test_vectors.md or from the rule named, and each
machine test runs one step. The second half holds, for each obligation with hypotheses, a theorem with a concrete state and
operands that meet them, clause by clause. -/

namespace Sys2Proof.Tests

open Sys2Proof.Machine

/-! ### Helpers -/

/-- The outcome is a next state with a property. -/
def nextSat (o : Host.Outcome State Fault Refusal) (p : State → Bool) : Bool :=
  match o with
  | .next t => p t
  | .fault _ => false
  | .refused _ => false

/-- A small machine: code at 0, EB = 32, RB = 40, SB = 48, L = 96, RAX as in V-MOV, RCX = 1, RBX = 3 as in V-ADDR, and RSP
one push above the stack barrier. -/
def cpu (code : List Byte) : State :=
  { State.reset with
    mem := memSetBytes [] 0 code
    eb := 32
    rb := 40
    sb := 48
    len := 96
    x := #v[0x1122334455667788, 1, 0, 3, 56, 0, 0, 0, 0, 0, 0, 0, 0, 0, 0, 0] }

/-- The machine with RAX and RBX replaced. -/
def cpuAB (a b : Word) (code : List Byte) : State := ((cpu code).putReg 0 a).putReg 3 b

/-- The machine with a flags word. -/
def cpuF (f : Word) (code : List Byte) : State := { cpu code with rflags := f }

/-- The machine with one FPU slot in use at the top. -/
def cpuS (code : List Byte) : State := ({ cpu code with top := 7 }.putFpr 7 0x3FF8000000000000).putInuse 7 true

/-- One step ends with these bits CF PF AF ZF SF OF and this value in RAX. -/
def aluGives (s : State) (r : Word) (flags : List Bool) : Bool :=
  nextSat (step s) fun t => t.reg rax == r && ([0, 2, 4, 6, 7, 11].map fun b => t.rflags.getLsbD b) == flags

/-- One step terminates with this code. -/
def stepStops (e : ErrorCode) (s : State) : Bool :=
  nextSat (step s) fun t => decide (t.error = e) && !t.running && !tickReturns s t

/-- The failed check of a decoding. -/
def badWith (bs : List Byte) : Option DecodeFault :=
  match decode bs with
  | .ok _ _ => none
  | .bad why _ => some why

/-! ### Well-formedness: one ill-formed term for each check -/

theorem test_wf_imm_body_too_wide : (Instr.mov .w8 (.ri 0 ⟨false, .w1, 0x100⟩)).wf = false := by decide
theorem test_wf_disp_too_wide : (Instr.mov .w8 (.rm 0 ⟨.a16, 0, none, none, some 0x10000⟩)).wf = false := by decide
theorem test_wf_val_byte_width : (Instr.push .w1 (.reg 0)).wf = false := by decide
theorem test_wf_jcc_byte_width : (Instr.je .w1 (.reg 0)).wf = false := by decide
theorem test_wf_lea_byte_width : (Instr.lea .w1 0 ⟨.a64, 0, some 0, none, none⟩).wf = false := by decide
theorem test_wf_pop_byte_width : (Instr.pop .w1 (.reg 3)).wf = false := by decide
theorem test_wf_fpu_disp_too_wide : (Instr.fld (.mem ⟨.a32, 0, none, none, some 0x100000000⟩)).wf = false := by decide
theorem test_wf_accepts_widest_fields :
    (Instr.mov .w8 (.ri 0 ⟨true, .w1, 0xFF⟩)).wf = true ∧
    (Instr.mov .w8 (.rm 0 ⟨.a16, 0, none, none, some 0xFFFF⟩)).wf = true := by decide

/-! ### Decoding: every row of the table, from words written out from 30_encoding.md and 95_test_vectors.md -/

theorem test_decode_system_words :
    decode [0x00] = .ok .nop [] ∧ decode [0x01] = .ok .hlt [] ∧ decode [0x02] = .ok .syscall [] ∧
    decode [0x03] = .ok .pushf [] ∧ decode [0x04] = .ok .popf [] ∧ decode [0x0D] = .ok .ret [] := by decide

theorem test_decode_mov_words :
    decode [0x05, 0x0D, 0x80, 0xFF] = .ok (.mov .w8 (.ri 0 ⟨true, .w1, 0xFF⟩)) [] ∧
    decode [0x05, 0x3C, 0x00] = .ok (.mov .w8 (.rr 3 0)) [] ∧
    decode [0x05, 0x0E, 0x88, 0x17, 0, 0, 0] = .ok (.mov .w8 (.rm 0 ⟨.a32, 0, none, none, some 0x17⟩)) [] ∧
    decode [0x05, 0x0F, 0x88, 0x1F, 0, 0, 0] = .ok (.mov .w8 (.mr ⟨.a32, 0, none, none, some 0x1F⟩ 0)) [] := by decide

theorem test_decode_lea_push_pop_words :
    decode [0x06, 0x0C, 0xAF, 0x31, 0x10, 0, 0, 0, 0, 0, 0, 0] = .ok (.lea .w8 0 ⟨.a64, 2, some 3, some 1, some 0x10⟩) [] ∧
    decode [0x07, 0x0D, 0x00, 0x07] = .ok (.push .w8 (.imm ⟨false, .w1, 7⟩)) [] ∧
    decode [0x08, 0x3C] = .ok (.pop .w8 (.reg 3)) [] ∧
    decode [0x08, 0x0D, 0x0A, 0x30] = .ok (.pop .w8 (.mem ⟨.a32, 0, some 3, none, none⟩)) [] := by decide

theorem test_decode_jmp_call_words :
    decode [0x09, 0x09, 0x00, 0x13] = .ok (.jmp .w4 (.imm ⟨false, .w1, 0x13⟩)) [] ∧
    decode [0x09, 0x0C] = .ok (.jmp .w8 (.reg 0)) [] ∧
    decode [0x09, 0x0E, 0x0E, 0x30] = .ok (.jmp .w8 (.mem ⟨.a64, 0, some 3, none, none⟩)) [] ∧
    decode [0x0C, 0x09, 0x00, 0x13] = .ok (.call .w4 (.imm ⟨false, .w1, 0x13⟩)) [] := by decide

theorem test_decode_jcc_words_0_to_7 :
    decode [0x0A, 0x00, 0x09, 0x00, 0x40] = .ok (.jo .w4 (.imm ⟨false, .w1, 0x40⟩)) [] ∧
    decode [0x0A, 0x01, 0x09, 0x00, 0x40] = .ok (.jno .w4 (.imm ⟨false, .w1, 0x40⟩)) [] ∧
    decode [0x0A, 0x02, 0x09, 0x00, 0x40] = .ok (.jb .w4 (.imm ⟨false, .w1, 0x40⟩)) [] ∧
    decode [0x0A, 0x03, 0x09, 0x00, 0x40] = .ok (.jae .w4 (.imm ⟨false, .w1, 0x40⟩)) [] ∧
    decode [0x0A, 0x04, 0x09, 0x00, 0x40] = .ok (.je .w4 (.imm ⟨false, .w1, 0x40⟩)) [] ∧
    decode [0x0A, 0x05, 0x09, 0x00, 0x40] = .ok (.jne .w4 (.imm ⟨false, .w1, 0x40⟩)) [] ∧
    decode [0x0A, 0x06, 0x09, 0x00, 0x40] = .ok (.jbe .w4 (.imm ⟨false, .w1, 0x40⟩)) [] ∧
    decode [0x0A, 0x07, 0x09, 0x00, 0x40] = .ok (.ja .w4 (.imm ⟨false, .w1, 0x40⟩)) [] := by decide

theorem test_decode_jcc_words_8_to_15 :
    decode [0x0A, 0x08, 0x09, 0x00, 0x40] = .ok (.js .w4 (.imm ⟨false, .w1, 0x40⟩)) [] ∧
    decode [0x0A, 0x09, 0x09, 0x00, 0x40] = .ok (.jns .w4 (.imm ⟨false, .w1, 0x40⟩)) [] ∧
    decode [0x0A, 0x0A, 0x09, 0x00, 0x40] = .ok (.jp .w4 (.imm ⟨false, .w1, 0x40⟩)) [] ∧
    decode [0x0A, 0x0B, 0x09, 0x00, 0x40] = .ok (.jnp .w4 (.imm ⟨false, .w1, 0x40⟩)) [] ∧
    decode [0x0A, 0x0C, 0x09, 0x00, 0x40] = .ok (.jl .w4 (.imm ⟨false, .w1, 0x40⟩)) [] ∧
    decode [0x0A, 0x0D, 0x09, 0x00, 0x40] = .ok (.jge .w4 (.imm ⟨false, .w1, 0x40⟩)) [] ∧
    decode [0x0A, 0x0E, 0x09, 0x00, 0x40] = .ok (.jle .w4 (.imm ⟨false, .w1, 0x40⟩)) [] ∧
    decode [0x0A, 0x0F, 0x09, 0x00, 0x40] = .ok (.jg .w4 (.imm ⟨false, .w1, 0x40⟩)) [] := by decide

theorem test_decode_loop_words :
    decode [0x0B, 0x00, 0x0D, 0x00, 0x08] = .ok (.loop .w8 (.imm ⟨false, .w1, 8⟩)) [] ∧
    decode [0x0B, 0x01, 0x0D, 0x00, 0x20] = .ok (.loope .w8 (.imm ⟨false, .w1, 0x20⟩)) [] ∧
    decode [0x0B, 0x02, 0x0D, 0x00, 0x20] = .ok (.loopne .w8 (.imm ⟨false, .w1, 0x20⟩)) [] := by decide

theorem test_decode_alu_words :
    decode [0x10, 0x00, 0x03] = .ok (.add .w1 (.rr 0 3)) [] ∧
    decode [0x11, 0x09, 0x00, 0x01] = .ok (.sub .w4 (.ri 0 ⟨false, .w1, 1⟩)) [] ∧
    decode [0x12, 0x0C, 0x03] = .ok (.cmp .w8 (.rr 0 3)) [] ∧
    decode [0x13, 0x01, 0x00, 0x0F] = .ok (.and .w1 (.ri 0 ⟨false, .w1, 0x0F⟩)) [] ∧
    decode [0x14, 0x0C, 0x00] = .ok (.or .w8 (.rr 0 0)) [] ∧
    decode [0x15, 0x0C, 0x00] = .ok (.xor .w8 (.rr 0 0)) [] ∧
    decode [0x16, 0x01, 0x00, 0x80] = .ok (.test .w1 (.ri 0 ⟨false, .w1, 0x80⟩)) [] ∧
    decode [0x18, 0x00] = .ok (.inc .w1 (.reg 0)) [] ∧
    decode [0x19, 0x00] = .ok (.dec .w1 (.reg 0)) [] ∧
    decode [0x1A, 0x00] = .ok (.neg .w1 (.reg 0)) [] ∧
    decode [0x1B, 0x0C] = .ok (.not .w8 (.reg 0)) [] := by decide

theorem test_decode_fpu_words :
    decode [0x20, 0x08, 0x88, 0x15, 0, 0, 0] = .ok (.fld (.mem ⟨.a32, 0, none, none, some 0x15⟩)) [] ∧
    decode [0x20, 0x01] = .ok (.fld (.st 1)) [] ∧ decode [0x21, 0x03] = .ok (.fst (.st 3)) [] ∧
    decode [0x22, 0x01] = .ok (.fstp (.st 1)) [] ∧ decode [0x23, 0x01] = .ok (.ffree 1) [] ∧
    decode [0x24] = .ok .fincstp [] ∧ decode [0x25] = .ok .fdecstp [] ∧ decode [0x26] = .ok .finit [] := by decide

theorem test_decode_refuses_reserved_fields :
    badWith [0x05, 0x0C, 0x10] = some .r2Reserved ∧ badWith [0x07, 0x00] = some .valByteSize ∧
    badWith [0x07, 0x0F] = some .valMode ∧ badWith [0x07, 0x1D] = some .valRegister ∧
    badWith [0x06, 0x00] = some .leaForm ∧ badWith [0x06, 0x0D] = some .leaForm ∧
    badWith [0x08, 0x30] = some .popByteSize ∧ badWith [0x18, 0x02] = some .unMode ∧
    badWith [0x18, 0x1D] = some .unRegister ∧ badWith [0x0A, 0x10] = some .condReserved ∧
    badWith [0x0B, 0x03] = some .loopKind ∧ badWith [0x0B, 0x04] = some .loopReserved ∧
    badWith [0x20, 0x10] = some .frmReserved ∧ badWith [0x20, 0x09] = some .frmIndex ∧
    badWith [0x23, 0x08] = some .fiReserved ∧ badWith [0x0E] = some .unassignedOpcode ∧
    badWith [0x27] = some .unassignedOpcode ∧ badWith [] = some .truncated := by decide

/-- V-IMM: the value of a decoded compact immediate, where it decodes. -/
def immOf (bs : List Byte) : Option Word :=
  match decodeImm bs with
  | .ok v _ => some (immValue v)
  | .bad _ _ => none

theorem test_v_imm :
    immOf [0x00, 0xFF] = some 0xFF ∧ immOf [0x80, 0xFF] = some 0xFFFFFFFFFFFFFFFF ∧ immOf [0x80, 0x7F] = some 0x7F ∧
    immOf [0x81, 0xFF, 0x7F] = some 0x7FFF ∧ immOf [0x81, 0x00, 0x80] = some 0xFFFFFFFFFFFF8000 ∧
    immOf [0x82, 0, 0, 0, 0x80] = some 0xFFFFFFFF80000000 ∧
    immOf [0x03, 1, 2, 3, 4, 5, 6, 7, 8] = some 0x0807060504030201 ∧
    immOf [0x83, 0xFF, 0xFF, 0xFF, 0xFF, 0xFF, 0xFF, 0xFF, 0xFF] = some 0xFFFFFFFFFFFFFFFF := by decide

theorem test_v_imm_refused :
    decodeImm [0x04] = .bad .immReserved [] ∧ decodeImm [0x40, 1] = .bad .immReserved [1] ∧
    decodeImm [0x01, 0xFF] = .bad .truncated [0xFF] := by decide

/-- V-ADDR: the effective address of a decoded operand, with RBX and RCX given. -/
def eaOf (rbx rcx : Word) (bs : List Byte) : Option Word :=
  match decodeAddr bs with
  | .ok a _ => some (effAddr a (((cpu []).putReg 3 rbx).putReg 1 rcx))
  | .bad _ _ => none

theorem test_v_addr :
    eaOf 3 1 [0x88, 0x15, 0, 0, 0] = some 0x15 ∧ eaOf 3 1 [0x0A, 0x30] = some 3 ∧ eaOf 3 1 [0x2B, 0x31] = some 13 ∧
    eaOf 3 1 [0xAF, 0x31, 0x10, 0, 0, 0, 0, 0, 0, 0] = some 0x1D ∧ eaOf 1 0 [0x87, 0x31, 0xFF, 0xFF] = some 0 ∧
    eaOf 0x100000005 1 [0x0A, 0x30] = some 5 ∧ eaOf 3 1 [0x08] = some 0 := by decide

theorem test_v_addr_refused :
    decodeAddr [0x80] = .bad .addrByteSize [] ∧ decodeAddr [0xC8] = .bad .addrReserved [] ∧
    decodeAddr [0x0A, 0x31] = .bad .unusedIndexNibble [] ∧ decodeAddr [0x09, 0x10] = .bad .unusedBaseNibble [] ∧
    decodeAddr [0x8C, 0x00] = .bad .truncated [0x00] := by decide

/-! ### The step -/

theorem test_tick_gate : step { cpu [] with running := false } = .next { cpu [] with running := false } := by rfl
theorem test_tick_at_eb_is_access_violation : stepStops .accessViolation { cpu [] with rip := 32 } = true := by decide
theorem test_tick_missing_operand_is_out_of_bounds :
    stepStops .outOfBounds { cpu [0x05] with len := 1 } = true := by decide
/-- 90_conflicts.md C1: only the opcode byte is held against EB. -/
theorem test_tick_operands_beyond_eb :
    nextSat (step { cpu [0x05, 0x0D, 0x00, 0x05] with eb := 1 }) (fun t => t.reg rax == 5 && t.rip == 4) = true := by decide
theorem test_reset_first_step_is_access_violation : stepStops .accessViolation State.reset = true := by decide

theorem test_table_words_decode :
    decodeTableWord 8 0x01 = some .hlt ∧ decodeTableWord 16 0x2305 = some (.ffree 5) ∧
    decodeTableWord 8 0x10 = some (.add .w1 (.rr 0 0)) ∧ decodeTableWord 16 0x0A00 = none := by decide

theorem test_with_fetch_word_runs_it :
    nextSat (step (State.reset.withFetchWord 8 0x25)) (fun t => t.top == 7 && t.rip == 1 && t.running) = true := by decide

/-! ### System and data movement -/

theorem test_nop : nextSat (step (cpu [0x00])) (fun t => t.rip == 1 && t.running) = true := by decide
theorem test_hlt : nextSat (step (cpu [0x01])) (fun t => t.rip == 1 && decide (t.error = .abort) && !t.running) = true := by
  decide

theorem test_mov_ax_keeps_upper_bits :
    nextSat (step (cpu [0x05, 0x05, 0x01, 0xAA, 0xAA])) (fun t => t.reg rax == 0x112233445566AAAA) = true := by decide
theorem test_mov_eax_eax_clears_upper_half :
    nextSat (step (cpu [0x05, 0x08, 0x00])) (fun t => t.reg rax == 0x55667788) = true := by decide
/-- S6: a store below RB. -/
theorem test_store_below_rb_is_access_violation :
    stepStops .accessViolation (cpu [0x05, 0x0F, 0x88, 0x17, 0, 0, 0]) = true := by decide
theorem test_store_is_little_endian :
    nextSat (step (cpu [0x05, 0x0F, 0x88, 0x28, 0, 0, 0])) (fun t => t.byte 40 == 0x88 && t.byte 47 == 0x11) = true := by
  decide
theorem test_lea : nextSat (step (cpu [0x06, 0x0C, 0xAF, 0x31, 0x10, 0, 0, 0, 0, 0, 0, 0])) (fun t => t.reg rax == 0x1D) =
    true := by decide

/-- S5: a push exactly down to the barrier, and one past it. -/
theorem test_push_at_barrier :
    nextSat (step (cpu [0x07, 0x0D, 0x00, 0x07])) (fun t => t.reg rsp == 48 && t.value 48 8 == 7) = true := by decide
theorem test_push_past_barrier : stepStops .stackOverflow ((cpu [0x07, 0x0D, 0x00, 0x07]).putReg rsp 48) = true := by decide
/-- R173: POP RSP at two bytes puts the popped value over the incremented RSP. -/
theorem test_pop_sp_16 :
    nextSat (step (((cpu [0x08, 0x44]).putReg rsp 0x50).putBytes 0x50 [0x34, 0x12])) (fun t => t.reg rsp == 0x1234) =
      true := by decide
theorem test_pop_past_end : stepStops .outOfBounds ((cpu [0x08, 0x3C]).putReg rsp 89) = true := by decide
theorem test_pushf : nextSat (step (cpuF 0x46 [0x03])) (fun t => t.value 48 8 == 0x46) = true := by decide
theorem test_popf :
    nextSat (step ((cpu [0x04]).putBytes 56 [0xFF, 0xFF, 0xFF, 0xFF])) (fun t => t.rflags == 0x0CD7) = true ∧
    nextSat (step ((cpu [0x04]).putBytes 56 [0x41])) (fun t => t.rflags == 0x43) = true := by decide

/-! ### The ALU (V-ALU) -/

theorem test_add_signed_overflow :
    aluGives (cpuAB 0x7F 1 [0x10, 0x00, 0x03]) 0x80 [false, false, true, false, true, true] = true := by decide
theorem test_add_carry_clears_upper_half :
    aluGives (cpuAB 0xFFFFFFFFFFFFFFFF 0 [0x10, 0x09, 0x00, 0x01]) 0 [true, true, true, true, false, false] = true := by decide
theorem test_sub_borrow :
    aluGives (cpuAB 0 0 [0x11, 0x09, 0x00, 0x01]) 0xFFFFFFFF [true, true, true, false, true, false] = true := by decide
theorem test_sub_signed_overflow :
    aluGives (cpuAB 0x80 0 [0x11, 0x01, 0x00, 0x01]) 0x7F [false, false, true, false, false, true] = true := by decide
theorem test_cmp_less :
    aluGives (cpuAB 3 5 [0x12, 0x0C, 0x03]) 3 [true, false, true, false, true, false] = true := by decide
theorem test_cmp_greater :
    aluGives (cpuAB 5 3 [0x12, 0x0C, 0x03]) 5 [false, false, false, false, false, false] = true := by decide
theorem test_and_result : nextSat (step (cpuAB 0xF5 0 [0x13, 0x01, 0x00, 0x0F])) (fun t => t.reg rax == 0x05) = true := by decide
theorem test_or_result : nextSat (step (cpuAB 0xF0 0x0F [0x14, 0x0C, 0x03])) (fun t => t.reg rax == 0xFF) = true := by decide
theorem test_xor_result : nextSat (step (cpuAB 0xFF 0x0F [0x15, 0x0C, 0x03])) (fun t => t.reg rax == 0xF0) = true := by decide
theorem test_test_writes_no_register :
    nextSat (step (cpuAB 0x80 0 [0x16, 0x01, 0x00, 0x80])) (fun t => t.reg rax == 0x80 && t.draws == 1) = true := by decide

/-- The flags of AND AL, 0x0F with AL = 0xF5 (CF PF ZF SF OF), whatever AF draws. -/
theorem test_logic_flags_pf : ∀ af : Bool, (([0, 2, 6, 7, 11].map fun b =>
    (mergeFlags (logF af (0x05 : Byte)) 0xCD7).getLsbD b) = [false, true, false, false, false]) := by decide
/-- The flags of TEST AL, 0x80 with AL = 0x80, whatever AF draws. -/
theorem test_logic_flags_sf : ∀ af : Bool, (([0, 2, 6, 7, 11].map fun b =>
    (mergeFlags (logF af (0x80 : Byte)) 0x2).getLsbD b) = [false, false, false, true, false]) := by decide

theorem test_inc_wraps_and_keeps_cf :
    aluGives (cpuAB 0xFF 0 [0x18, 0x00]) 0 [false, true, true, true, false, false] = true := by decide
theorem test_dec_from_zero :
    aluGives (cpuAB 0 0 [0x19, 0x00]) 0xFF [false, true, true, false, true, false] = true := by decide
theorem test_neg_min :
    aluGives (cpuAB 0x80 0 [0x1A, 0x00]) 0x80 [true, false, false, false, true, true] = true := by decide
theorem test_neg_one :
    aluGives (cpuAB 1 0 [0x1A, 0x00]) 0xFF [true, true, true, false, true, false] = true := by decide
theorem test_not_clears_upper_half :
    aluGives (cpuAB 0xFFFFFFFF00000000 0 [0x1B, 0x08]) 0xFFFFFFFF [false, false, false, false, false, false] = true := by decide

/-! ### Control transfer (V-CC, V-CTL) -/

/-- The conditions that hold of a flags word, in the order of their numbers. -/
def taken (f : Word) : List Bool :=
  [Cond.o, .no, .b, .ae, .e, .ne, .be, .a, .s, .ns, .p, .np, .l, .ge, .le, .g].map fun c => condHolds c f

theorem test_v_cc :
    taken 0x83 = [false, true, true, false, false, true, true, false, true, false, false, true, true, false, true, false] ∧
    taken 0x02 = [false, true, false, true, false, true, false, true, false, true, false, true, false, true, false, true] ∧
    taken 0x46 = [false, true, false, true, true, false, true, false, false, true, true, false, false, true, true, false] ∧
    taken 0x812 = [true, false, false, true, false, true, false, true, false, true, false, true, true, false, true, false] := by
  decide

theorem test_jmp_immediate : nextSat (step (cpu [0x09, 0x09, 0x00, 0x13])) (fun t => t.rip == 0x13) = true := by decide
theorem test_jmp_register_32 :
    nextSat (step (cpuAB 0xFFFFFFFF00000010 0 [0x09, 0x08])) (fun t => t.rip == 0x10) = true := by decide
theorem test_jo_taken : nextSat (step (cpuF 0x802 [0x0A, 0x00, 0x09, 0x00, 0x40])) (fun t => t.rip == 0x40) = true := by decide
theorem test_jg_taken : nextSat (step (cpu [0x0A, 0x0F, 0x09, 0x00, 0x40])) (fun t => t.rip == 0x40) = true := by decide
theorem test_jne_not_taken : nextSat (step (cpuF 0x46 [0x0A, 0x05, 0x09, 0x00, 0x04])) (fun t => t.rip == 5) = true := by decide
/-- D16: the target is read even where the jump is not taken. -/
theorem test_jne_reads_its_target :
    stepStops .outOfBounds (cpuF 0x42 [0x0A, 0x05, 0x0E, 0x88, 0, 0x10, 0, 0]) = true := by decide
theorem test_loop_ends :
    nextSat (step (cpu [0x0B, 0x00, 0x0D, 0x00, 0x08])) (fun t => t.reg rcx == 0 && t.rip == 5) = true := by decide
theorem test_loop_from_zero :
    nextSat (step ((cpu [0x0B, 0x00, 0x0D, 0x00, 0x08]).putReg rcx 0))
      (fun t => t.reg rcx == 0xFFFFFFFFFFFFFFFF && t.rip == 8) = true := by decide
theorem test_loope_not_taken :
    nextSat (step ((cpu [0x0B, 0x01, 0x0D, 0x00, 0x20]).putReg rcx 5)) (fun t => t.reg rcx == 4 && t.rip == 5) = true := by
  decide
theorem test_loopne_taken :
    nextSat (step ((cpu [0x0B, 0x02, 0x0D, 0x00, 0x20]).putReg rcx 5)) (fun t => t.reg rcx == 4 && t.rip == 0x20) = true := by
  decide
theorem test_call :
    nextSat (step (cpu [0x0C, 0x09, 0x00, 0x13])) (fun t => t.rip == 0x13 && t.reg rsp == 48 && t.value 48 8 == 4) = true := by
  decide
theorem test_call_past_barrier : stepStops .stackOverflow ((cpu [0x0C, 0x09, 0x00, 0x13]).putReg rsp 49) = true := by decide
theorem test_ret :
    nextSat (step ((cpu [0x0D]).putBytes 56 [11])) (fun t => t.rip == 11 && t.reg rsp == 64) = true := by decide

/-! ### The FPU stack (V-FPU) -/

theorem test_fld_memory :
    nextSat (step ((cpu [0x20, 0x08, 0x88, 0x15, 0, 0, 0]).putBytes 21 [0, 0, 0, 0, 0, 0, 0xF8, 0x3F]))
      (fun t => t.top == 7 && t.inuseAt 7 && t.fprAt 7 == 0x3FF8000000000000) = true := by decide
theorem test_fld_empty_slot : stepStops .undefinedBehavior (cpuS [0x20, 0x01]) = true := by decide
theorem test_fst_st3 :
    nextSat (step (cpuS [0x21, 0x03])) (fun t => t.top == 7 && t.inuseAt 2 && t.fprAt 2 == 0x3FF8000000000000) = true := by
  decide
theorem test_fst_readonly_does_not_pop :
    nextSat (step (cpuS [0x21, 0x08, 0x88, 0x17, 0, 0, 0]))
      (fun t => decide (t.error = .accessViolation) && t.top == 7 && t.inuseAt 7) = true := by decide
theorem test_fstp_st1 :
    nextSat (step (cpuS [0x22, 0x01]))
      (fun t => t.top == 0 && t.inuseAt 0 && !t.inuseAt 7 && t.fprAt 0 == 0x3FF8000000000000) = true := by decide
theorem test_fstp_empty_top : stepStops .undefinedBehavior { cpu [0x22, 0x00] with top := 3 } = true := by decide
theorem test_ffree : nextSat (step ((cpuS [0x23, 0x01]).putInuse 0 true)) (fun t => !t.inuseAt 0 && t.inuseAt 7) = true := by
  decide
theorem test_fincstp : nextSat (step (cpuS [0x24])) (fun t => t.top == 0 && t.inuseAt 7) = true := by decide
theorem test_fdecstp : nextSat (step (cpu [0x25])) (fun t => t.top == 7) = true := by decide
theorem test_finit : nextSat (step (cpuS [0x26])) (fun t => t.top == 0 && !t.inuseAt 7) = true := by decide

/-! ### Memory and stack primitives (V-MEM, V-STK) -/

/-- How an operation ended: none where it is done, else the error. -/
def raised {α : Type} : Res α → Option ErrorCode
  | .done _ _ => none
  | .raised e _ => some e

/-- V-MEM: `L = 16`, `EB = 2`, `RB = 4`. -/
def small : State := { State.reset with len := 16, eb := 2, rb := 4, sb := 4, mem := [(10, 0x61), (11, 0x62)] }

theorem test_v_mem :
    raised (memRead 0 8 small) = none ∧ raised (memRead 12 4 small) = none ∧
    raised (memRead 13 4 small) = some .outOfBounds ∧ raised (memRead (2 ^ 64 - 1) 2 small) = some .outOfBounds ∧
    raised (memWrite 4 8 7 small) = none ∧ raised (memWrite 3 1 7 small) = some .accessViolation ∧
    raised (memWrite 2 8 7 small) = some .accessViolation ∧ raised (memWrite 14 2 7 small) = none ∧
    raised (memWrite 15 2 7 small) = some .outOfBounds ∧ raised (memWrite 20 1 7 small) = some .outOfBounds := by decide

theorem test_v_mem_cstrings :
    scanCString small.mem (16 - 10) 10 = some [0x61, 0x62] ∧ scanCString [(14, 1), (15, 1)] 2 14 = none ∧
    raised (writeCString 12 [0x61, 0x62, 0x63, 0x64] small) = some .outOfBounds ∧
    raised (writeCString 3 [] small) = some .accessViolation := by decide

/-- V-STK: `SB = 32`, `L = 48`, `RB = 8`, with a start RSP. -/
def stk (p : Word) : State := { State.reset with len := 48, eb := 8, rb := 8, sb := 32 }.putReg rsp p

/-- How a primitive ended, and RSP after it. -/
def rspAfter {α : Type} : Res α → Option ErrorCode × Word
  | .done _ s => (none, s.reg rsp)
  | .raised e s => (some e, s.reg rsp)

theorem test_v_stk :
    rspAfter (push 8 7 (stk 40)) = (none, 32) ∧ rspAfter (push 8 7 (stk 32)) = (some .stackOverflow, 24) ∧
    rspAfter (push 2 7 (stk 34)) = (none, 32) ∧ rspAfter (pop 8 (stk 32)) = (none, 40) ∧
    rspAfter (pop 8 (stk 24)) = (some .stackOverflow, 24) ∧ rspAfter (pop 8 (stk 44)) = (some .outOfBounds, 44) ∧
    rspAfter (push 8 7 (stk 3)) = (some .outOfBounds, 0xFFFFFFFFFFFFFFFB) ∧ rspAfter (push 8 7 (stk 48)) = (none, 40) := by
  decide

/-! ### The syscall layer (V-SYS) -/

/-- A host answer with these bytes and this handle. -/
def reply (data : List Byte) (stream : Nat) : HostReply := ⟨false, data, stream, 0⟩

/-- A SYSCALL with RAX, RDI, RSI and RDX, the filesystem enabled, and the host's answers lined up. -/
def sys (a di si dx : Word) (answers : List HostReply) : State :=
  { ((((cpu [0x02]).putReg 0 a).putReg 7 di).putReg 6 si).putReg 2 dx with
    cfg := ⟨true, referenceSyscalls⟩
    hostReplies := answers }

theorem test_syscall_unknown : stepStops .unhandledSyscall (sys 99 0 0 0 []) = true := by decide
theorem test_syscall_exit :
    nextSat (step (sys 0 0xFFFFFFFFFFFFFFFF 0 0 []))
      (fun t => !t.running && decide (t.error = .none) && t.returnValue == 0xFFFFFFFFFFFFFFFF && !(t.fdAt 0).inUse) = true := by
  decide +kernel
/-- S9 and P6: zero bytes on the interactive slot suspend, and the RIP is the SYSCALL's again. -/
theorem test_syscall_read_suspends :
    nextSat (step (sys 1 0 40 4 [reply [] 0])) (fun t => t.suspendedRead && t.running && t.rip == 0) = true := by decide
theorem test_syscall_read_stores :
    nextSat (step (sys 1 0 40 4 [reply [0x68, 0x69] 0]))
      (fun t => t.byte 40 == 0x68 && t.byte 41 == 0x69 && t.reg rax == 2 && t.rip == 1) = true := by decide
theorem test_syscall_write_hands_the_bytes :
    nextSat (step ((sys 2 1 40 2 [reply [] 0]).putBytes 40 [0x68, 0x69]))
      (fun t => decide (t.hostCalls = [.write 1 [0x68, 0x69]]) && t.reg rax == 2) = true := by decide
theorem test_syscall_open_takes_lowest_slot :
    nextSat (step ((sys 3 40 0 0 [reply [] 9]).putBytes 40 [0x61]))
      (fun t => t.reg rax == 3 && decide (t.fdAt 3 = ⟨true, 9, false⟩)) = true := by decide
theorem test_syscall_checks :
    stepStops .outOfBounds (sys 4 16 0 0 []) = true ∧ stepStops .fdNotInUse (sys 4 5 0 0 []) = true ∧
    stepStops .outOfBounds (sys 2 1 95 2 []) = true ∧ stepStops .accessViolation (sys 1 1 0 4 []) = true ∧
    stepStops .fsDisabled { sys 9 0 0 0 [] with cfg := ⟨false, referenceSyscalls⟩ } = true ∧
    stepStops .ioFailure (sys 7 0 0 0 [⟨true, [], 0, 0⟩]) = true := by decide
theorem test_syscall_close_frees_the_slot :
    nextSat (step (sys 4 1 0 0 [reply [] 0])) (fun t => t.reg rax == 0 && !(t.fdAt 1).inUse && (t.fdAt 0).inUse) = true := by
  decide

/-- The parameters SYSCALL_MAP, NFD and INITIAL_FDS (00_scope.md R11) at other values than the reference: the number in RBX, exit
is 7 and takes RCX, and a table of two slots. -/
theorem test_parameters_reach_the_step :
    let m : SyscallMap := ⟨3, 1, 2, 0, 8, [(7, .exit), (9, .close)]⟩
    nextSat (step { (cpu [0x02]).putReg 3 7 with cfg := ⟨false, m⟩ })
      (fun t => !t.running && decide (t.error = .none) && t.returnValue == 1) = true ∧
    stepStops .unhandledSyscall { (cpu [0x02]).putReg 3 0 with cfg := ⟨false, m⟩ } = true ∧
    stepStops .outOfBounds { ((cpu [0x02]).putReg 3 9).putReg 1 2 with cfg := ⟨false, m⟩, fd := referenceFds.take 2 } = true := by
  decide

/-- Parameters for the tests. -/
def prm : EngineParams where
  maxMemSize := 4096
  imageMagic := 0x4853
  imageVersion := 7
  fsEnabled := true
  nfd := 16
  initialFds := referenceFds
  syscallMap := referenceSyscalls
  ownHandlers := fun _ => .finish
  argLayout := referenceLayout

/-- Handlers of the host's own (R298): number 0 doubles its first argument register's value; number 1 reads the word at 40,
asks the host to write one byte of it, and stores the host's position at 48; any other closes slot 1 and fails. -/
def own : HandlerTable
  | 0 => .readReg 7 fun v => .writeResult (v + v) .finish
  | 1 => .readMem 40 .w8 fun v => .askHost (.write 1 [v.setWidth 8]) fun r => .writeMem 48 .w8 r.position .finish
  | _ => .writeFd 1 .free (.fail .ioFailure)

/-- A SYSCALL with the number `n` and RDI = 21, on an engine whose numbers 3, 4 and 5 name the handlers 0, 1 and 2 of `own`. -/
def sysOwn (n : Word) (answers : List HostReply) : State :=
  let s := (sys n 21 0 0 answers).putBytes 40 [0x68]
  { s with cfg := ⟨false, ⟨0, 7, 6, 2, 0, [(3, .own 0), (4, .own 1), (5, .own 2)]⟩⟩ }

theorem test_own_handlers_run :
    nextSat (stepWith own (sysOwn 3 [])) (fun t => t.reg rax == 42 && t.rip == 1 && t.running) = true ∧
    nextSat (stepWith own (sysOwn 4 [⟨false, [], 0, 7⟩]))
      (fun t => t.byte 48 == 7 && t.reg rax == 4 && decide (t.hostCalls = [.write 1 [0x68]])) = true ∧
    nextSat (stepWith own (sysOwn 5 [])) (fun t => !t.running && decide (t.error = .ioFailure) &&
      decide (t.hostCalls = [.close 2, .close 0])) = true ∧
    nextSat (tick { prm with ownHandlers := own } (sysOwn 3 [])) (fun t => t.reg rax == 42) = true := by decide

/-! ### Image and bootstrap (V-BOOT) -/

/-- The draws of the tests. -/
def fil : Fill := ⟨[0xAB, 0xCD], Vector.replicate 16 0, Vector.replicate 8 0⟩

/-- An image file with the header words of `prm`, from its rule R330. -/
def file (magic version t r d b : Nat) (content : List Byte) : List Byte :=
  leBytes 8 magic ++ leBytes 8 version ++ leBytes 8 t ++ leBytes 8 r ++ leBytes 8 d ++ leBytes 8 b ++ content

/-- P1's image. -/
def p1 : List Byte := file 0x4853 7 6 0 0 0 [0x00, 0x05, 0x0D, 0x00, 0x05, 0x01]

theorem test_v_boot_image_checks :
    checkImage prm (p1.take 7) = .formatCorrupt ∧ checkImage prm (file 1 7 0 0 0 0 []) = .wrongMagic ∧
    checkImage prm (p1.take 12) = .formatCorrupt ∧ checkImage prm (file 0x4853 8 0 0 0 0 [1]) = .wrongVersion ∧
    checkImage prm (p1.take 53) = .formatCorrupt ∧ checkImage prm p1 = .ok := by decide

/-- The bootstrap result has a property. -/
def bootSat (o : Option State) (p : State → Bool) : Bool :=
  match o with
  | none => false
  | some t => p t

theorem test_bootstrap_p1 :
    bootSat (bootstrap prm fil p1 [] 16 State.reset)
      (fun t => t.len == 22 && t.eb == 6 && t.sb == 6 && t.reg rsp == 22 && t.rflags == 2 && t.byte 1 == 5 && t.byte 6 == 0xAB) =
      true := by decide

/-- S2 and V-BOOT: "a" and "bb" take 37 bytes, so a reserve of 36 fails and one of 37 does not. -/
theorem test_bootstrap_args :
    bootSat (bootstrap prm fil p1 [[0x61], [0x62, 0x62]] 37 State.reset)
      (fun t => t.reg rdi == 2 && t.reg rsi == t.reg rsp + 16 && t.reg rsp == 6) = true ∧
    bootstrap prm fil p1 [[0x61], [0x62, 0x62]] 36 State.reset = none ∧
    bootstrap prm fil p1 [[0x61, 0, 0x62]] 37 State.reset = none ∧
    bootstrap prm fil p1 [] 4091 State.reset = none := by decide

theorem test_construct_takes_the_parameters :
    (construct { prm with nfd := 4, initialFds := [⟨true, 8, false⟩], fsEnabled := false }).fd =
      [⟨true, 8, false⟩, .free, .free, .free] ∧
    (construct { prm with nfd := 2 }).fd = [⟨true, 0, true⟩, ⟨true, 1, false⟩] ∧ (construct prm).fd = referenceFds := by decide

/-! ### Witnesses: states and operands that meet each obligation's hypotheses, clause by clause

Obligations without hypotheses (EveryStepAnswersNext, LeaLoadsTheAddress, FpuManagementNeverFaults,
SubViewWritesKeepOrClearUpperBits, SpecExampleWordsDecode) need none. -/

/-- A 32-bit absolute address. -/
def ad (d : Word) : Addr := ⟨.a32, 0, none, none, some d⟩

theorem witness_DecodeAfterEncodeIsIdentity :
    (Instr.jg .w8 (.mem ⟨.a64, 3, some 15, some 0, some 0xFFFFFFFFFFFFFFFF⟩)).wf = true := by decide

theorem witness_DecodedBytesAreTheEncoding :
    decode [0x05, 0x3C, 0x00, 0xAB] = .ok (.mov .w8 (.rr 3 0)) [0xAB] := by decide

theorem witness_InstructionsHaveOneToThirteenBytes :
    decode [0x0D] = .ok .ret [] ∧
    decode [0x0A, 0x0F, 0x0E, 0xBF, 0xF0, 1, 2, 3, 4, 5, 6, 7, 8] =
      .ok (.jg .w8 (.mem ⟨.a64, 3, some 15, some 0, some 0x0807060504030201⟩)) [] ∧
    Instr.finit ∈ [Instr.nop, .hlt, .syscall, .pushf, .popf, .ret, .fincstp, .fdecstp, .finit] := by decide

theorem witness_ThirteenBytesDecideTheDecoding :
    decode [0x0A, 0x0F, 0x0E, 0xBF, 0xF0, 1, 2, 3, 4, 5, 6, 7, 8, 9] =
      .ok (.jg .w8 (.mem ⟨.a64, 3, some 15, some 0, some 0x0807060504030201⟩)) [9] ∧
    decode [0x0E, 0, 1, 2, 3, 4, 5, 6, 7, 8, 9, 10, 11, 12] =
      .bad .unassignedOpcode [0, 1, 2, 3, 4, 5, 6, 7, 8, 9, 10, 11, 12] := by decide

theorem witness_CompactImmediateDecodesAndExtends :
    (0x04 : Byte).toNat / 4 % 32 ≠ 0 ∧ (0x40 : Byte).toNat / 4 % 32 ≠ 0 ∧
    ((0x83 : Byte).toNat / 4 % 32 = 0 ∧ [1, 2, 3, 4, 5, 6, (7 : Byte)].length < 2 ^ ((0x83 : Byte).toNat % 4)) ∧
    ((0x80 : Byte).toNat / 4 % 32 = 0 ∧ 2 ^ ((0x80 : Byte).toNat % 4) ≤ [(0xFF : Byte)].length ∧ 128 ≤ (0x80 : Byte).toNat ∧
      leNat ([(0xFF : Byte)].take 1) / 2 ^ 7 % 2 = 1) := by decide

theorem witness_EffectiveAddressWrapsAtAddressWidth :
    (⟨.a16, 3, some 5, some 5, none⟩ : Addr).disp = none ∧ (⟨.a16, 3, some 5, some 5, none⟩ : Addr).base = some (5 : Reg) ∧
    (⟨.a16, 3, some 5, some 5, none⟩ : Addr).index = some (5 : Reg) := by decide

theorem witness_StepRunsTheDecodedInstruction :
    (let s := { cpu [] with rip := 31, mem := [(31, 0x01)] }
     s.running = true ∧ s.suspendedRead = false ∧ s.rip.toNat < s.eb.toNat ∧
     decode (fetchWindow maxInstrBytes s) = .ok .hlt (List.replicate 12 0) ∧ Instr.hlt ≠ .syscall) ∧
    (let s := sysOwn 3 []
     s.running = true ∧ s.suspendedRead = false ∧ s.rip.toNat < s.eb.toNat ∧
     decode (fetchWindow maxInstrBytes s) = .ok .syscall (List.replicate 12 0)) := by decide

theorem witness_StepRunsTheEncodedInstruction :
    let s := { cpu [0x05, 0x0D, 0x00, 0x05] with eb := 1, rb := 1, sb := 1, len := 4 }
    let i := Instr.mov .w8 (.ri 0 ⟨false, .w1, 5⟩)
    s.running = true ∧ s.suspendedRead = false ∧ s.rip.toNat < s.eb.toNat ∧ i.wf = true ∧
    s.rip.toNat + (encode i).length ≤ s.len.toNat ∧
    (∀ k (h : k < (encode i).length), s.byte (s.rip.toNat + k) = (encode i)[k]) := by decide

theorem witness_GateAndExecuteCheckComeFirst :
    { cpu [] with running := false }.running = false ∧ { cpu [] with suspendedRead := true }.suspendedRead = true ∧
    (let s := { cpu [] with rip := 32 }
     s.running = true ∧ s.suspendedRead = false ∧ s.eb.toNat ≤ s.rip.toNat) := by decide

theorem witness_UndecodableBytesTerminate :
    (∀ op ∈ [(0x0E : Byte), 0x0F, 0x17, 0x1C, 0x1D, 0x1E, 0x1F, 0x27, 0xFF],
      let s := { cpu [] with rip := 31, mem := [(31, op)] }
      (op.toNat ∈ [0x0E, 0x0F, 0x17, 0x1C, 0x1D, 0x1E, 0x1F] ∨ 0x27 ≤ op.toNat) ∧ s.running = true ∧
      s.suspendedRead = false ∧ s.rip.toNat < s.eb.toNat ∧ s.rip.toNat < s.len.toNat ∧ s.byte s.rip.toNat = op) ∧
    (let s := { cpu [0x05] with len := 1 }
     s.running = true ∧ s.suspendedRead = false ∧ s.rip.toNat < s.eb.toNat ∧
     decode (fetchWindow maxInstrBytes s) = .bad .truncated []) ∧
    (let s := { cpu [0x07] with len := 3 }
     s.running = true ∧ s.suspendedRead = false ∧ s.rip.toNat < s.eb.toNat ∧
     decode (fetchWindow maxInstrBytes s) = .bad .valByteSize [0]) := by decide

theorem cpu_inv : (cpu [0x01]).Inv := by constructor <;> decide

theorem witness_StepKeepsInvariant :
    (cpu [0x01]).Inv ∧ (∃ t, step (cpu [0x01]) = .next t) ∧ ∃ t, stepWith own (cpu [0x01]) = .next t :=
  ⟨cpu_inv, ⟨_, rfl⟩, _, rfl⟩

theorem witness_StepKeepsBarriersAndReadonlyMemory :
    (∃ t, step (cpu [0x05, 0x0F, 0x88, 0x28, 0, 0, 0]) = .next t) ∧ 39 < (cpu []).rb.toNat ∧
    ∃ t, stepWith own (sysOwn 4 []) = .next t := ⟨⟨_, rfl⟩, by decide, _, rfl⟩

theorem witness_OtherInstructionsKeepRflags :
    (∃ t, exec (.mov .w8 (.rr 3 0)) (cpu []) = .next t) ∧
    (∀ w f, Instr.mov .w8 (.rr 3 0) ≠ .add w f ∧ Instr.mov .w8 (.rr 3 0) ≠ .sub w f ∧ Instr.mov .w8 (.rr 3 0) ≠ .cmp w f ∧
      Instr.mov .w8 (.rr 3 0) ≠ .and w f ∧ Instr.mov .w8 (.rr 3 0) ≠ .or w f ∧ Instr.mov .w8 (.rr 3 0) ≠ .xor w f ∧
      Instr.mov .w8 (.rr 3 0) ≠ .test w f) ∧
    (∀ w d, Instr.mov .w8 (.rr 3 0) ≠ .inc w d ∧ Instr.mov .w8 (.rr 3 0) ≠ .dec w d ∧ Instr.mov .w8 (.rr 3 0) ≠ .neg w d) ∧
    Instr.mov .w8 (.rr 3 0) ≠ .popf := by
  refine ⟨⟨_, rfl⟩, ?_, ?_, ?_⟩ <;> simp

theorem witness_StoppingClosesEveryDescriptor :
    (cpu [0x01]).running = true ∧ ∃ t, step (cpu [0x01]) = .next t ∧ t.running = false := ⟨rfl, _, rfl, rfl⟩

theorem witness_FirstTerminationStands :
    { cpu [] with running := false }.running = false ∧ (cpu []).running = true := by decide

theorem witness_ResumeClearsTheSuspension :
    ({ cpu [] with suspendedRead := true }.running = true ∧ { cpu [] with suspendedRead := true }.suspendedRead = true) ∧
    { cpu [] with running := false }.running = false ∧ (cpu []).suspendedRead = false := by decide

/-- A tick that suspends: a read of no bytes on the interactive slot. -/
theorem witness_ResumeClearsTheSuspension_retry :
    let s := sys 1 0 40 4 [reply [] 0]
    s.running = true ∧ s.suspendedRead = false ∧ s.eb.toNat ≤ s.rb.toNat ∧ ∃ t, step s = .next t ∧ t.suspendedRead = true :=
  ⟨rfl, rfl, by decide, _, rfl, rfl⟩

theorem witness_MemReadChecksBounds :
    4 ∈ [1, 2, 4, 8] ∧ small.len.toNat < 13 + 4 ∧ 12 + 4 ≤ small.len.toNat := by decide

theorem witness_MemWriteChecksReadonlyThenBounds :
    8 ∈ [1, 2, 4, 8] ∧ 3 < small.rb.toNat ∧ (small.rb.toNat ≤ 9 ∧ small.len.toNat < 9 + 8) ∧
    (small.rb.toNat ≤ 4 ∧ 4 + 8 ≤ small.len.toNat) ∧ (small.rb.toNat ≤ 8 ∧ 8 + 8 ≤ small.len.toNat) := by decide

theorem witness_StackPrimitivesCheckTheBarrier :
    8 ∈ [1, 2, 4, 8] ∧ (stk 0).rb.toNat ≤ (stk 0).sb.toNat ∧
    ((stk 39).reg rsp - BitVec.ofNat 64 8).toNat < (stk 39).sb.toNat ∧
    ((stk 49).sb.toNat ≤ ((stk 49).reg rsp - BitVec.ofNat 64 8).toNat ∧
      (stk 49).len.toNat < ((stk 49).reg rsp - BitVec.ofNat 64 8).toNat + 8) ∧
    ((stk 40).sb.toNat ≤ ((stk 40).reg rsp - BitVec.ofNat 64 8).toNat ∧
      ((stk 40).reg rsp - BitVec.ofNat 64 8).toNat + 8 ≤ (stk 40).len.toNat) ∧
    ((stk 31).reg rsp).toNat < (stk 31).sb.toNat ∧
    ((stk 41).sb.toNat ≤ ((stk 41).reg rsp).toNat ∧ (stk 41).len.toNat < ((stk 41).reg rsp).toNat + 8) ∧
    ((stk 32).sb.toNat ≤ ((stk 32).reg rsp).toNat ∧ ((stk 32).reg rsp).toNat + 8 ≤ (stk 32).len.toNat) ∧
    ((stk 40).sb.toNat ≤ ((stk 40).reg rsp).toNat ∧ ((stk 40).reg rsp).toNat + 8 ≤ (stk 40).len.toNat) := by decide

theorem witness_CStringPrimitives_found :
    10 + [(0x61 : Byte), 0x62].length < small.len.toNat ∧
    (∀ k (h : k < [(0x61 : Byte), 0x62].length), small.byte (10 + k) = [(0x61 : Byte), 0x62][k] ∧ [(0x61 : Byte), 0x62][k] ≠ 0) ∧
    small.byte (10 + [(0x61 : Byte), 0x62].length) = 0 := by decide

theorem witness_CStringPrimitives_unterminated (a : Nat) (h : 15 ≤ a)
    (h' : a < { small with mem := [(15, 1)] }.len.toNat) : { small with mem := [(15, 1)] }.byte a ≠ 0 := by
  have h' : a < 16 := h'
  obtain rfl : a = 15 := by omega
  decide

theorem witness_CStringPrimitives_write :
    3 < small.rb.toNat ∧ (small.rb.toNat ≤ 12 ∧ small.len.toNat < 12 + [(0x61 : Byte), 0x62, 0x63, 0x64].length + 1) ∧
    (small.rb.toNat ≤ 12 ∧ 12 + [(0x61 : Byte), 0x62, 0x63].length + 1 ≤ small.len.toNat) := by decide

/-- MOV and the other two-operand forms: each mode, memory at its first writable byte and at its last place. -/
theorem witness_MovCopiesTheSource :
    ∀ f ∈ [BinForm.rr 0 3, .ri 0 ⟨true, .w1, 0xFF⟩, .rm 0 (ad 88), .mr (ad 40) 0, .mr (ad 88) 0],
      operandReadable .w8 f.src (cpu []) = true ∧ (placeOf f.dst (cpu [])).writable .w8 (cpu []) = true := by decide

theorem witness_PushAndPushfStoreBelowTheStackTop :
    (∀ v ∈ [Operand.reg 4, .imm ⟨false, .w1, 7⟩, .mem (ad 88)], operandReadable .w8 v (cpu []) = true) ∧
    (cpu []).rb.toNat ≤ (cpu []).sb.toNat ∧ (cpu []).sb.toNat ≤ ((cpu []).reg rsp - BitVec.ofNat 64 8).toNat ∧
    ((cpu []).reg rsp - BitVec.ofNat 64 8).toNat + 8 ≤ (cpu []).len.toNat ∧
    (cpu []).sb.toNat ≤ ((cpu []).reg rsp - 8).toNat ∧ ((cpu []).reg rsp - 8).toNat + 8 ≤ (cpu []).len.toNat := by decide

theorem witness_PopLoadsTheStackTop :
    let s := (cpu []).putReg rsp 48
    s.sb.toNat ≤ (s.reg rsp).toNat ∧ (s.reg rsp).toNat + Width.w8.bytes ≤ s.len.toNat ∧ (3 : Reg) ≠ rsp ∧
    (Place.mem (effAddr (ad 40) s)).writable .w8 s = true := by decide

theorem witness_PopfRestoresThePublicFlags :
    let s := (cpu []).putReg rsp 88
    s.sb.toNat ≤ (s.reg rsp).toNat ∧ (s.reg rsp).toNat + 8 ≤ s.len.toNat := by decide

theorem witness_AddAndSubWriteResultAndFlags :
    ∀ f ∈ [BinForm.rr 0 3, .ri 0 ⟨true, .w1, 0xFF⟩, .rm 0 (ad 88), .mr (ad 40) 0, .mr (ad 88) 0],
      (placeOf f.dst (cpu [])).readable .w8 (cpu []) = true ∧ (placeOf f.dst (cpu [])).writable .w8 (cpu []) = true ∧
      operandReadable .w8 f.src (cpu []) = true := by decide

/-- CMP and TEST complete below RB too. -/
theorem witness_CmpAndTestSetFlagsOnly :
    ∀ f ∈ [BinForm.rr 0 3, .ri 0 ⟨true, .w1, 0xFF⟩, .rm 0 (ad 88), .mr (ad 0) 0, .mr (ad 88) 0],
      (placeOf f.dst (cpu [])).readable .w8 (cpu []) = true ∧ operandReadable .w8 f.src (cpu []) = true := by decide

theorem witness_LogicalOperationsWriteResultAndFlags :
    ∀ f ∈ [BinForm.rr 0 3, .ri 0 ⟨true, .w1, 0xFF⟩, .rm 0 (ad 94), .mr (ad 40) 0, .mr (ad 94) 0],
      (placeOf f.dst (cpu [])).readable .w2 (cpu []) = true ∧ (placeOf f.dst (cpu [])).writable .w2 (cpu []) = true ∧
      operandReadable .w2 f.src (cpu []) = true := by decide

theorem witness_UnaryAluWritesResultAndFlags :
    ∀ o ∈ [RegMem.reg 0, .mem (ad 40), .mem (ad 95)],
      (placeOf o (cpu [])).readable .w1 (cpu []) = true ∧ (placeOf o (cpu [])).writable .w1 (cpu []) = true := by decide

/-- JMP, Jcc, LOOP, LOOPE and LOOPNE: each mode of the target, memory at its last place. -/
theorem witness_JmpSetsRip :
    ∀ o ∈ [Operand.reg 0, .imm ⟨false, .w1, 0x40⟩, .mem (ad 0), .mem (ad 92)], operandReadable .w4 o (cpu []) = true := by decide

theorem witness_UnsignedConditionalJumps :
    ∀ o ∈ [Operand.reg 0, .imm ⟨false, .w1, 0x40⟩, .mem (ad 92)], operandReadable .w4 o (cpu []) = true := by decide

theorem witness_SignedConditionalJumps :
    ∀ o ∈ [Operand.reg 0, .imm ⟨false, .w1, 0x40⟩, .mem (ad 94)], operandReadable .w2 o (cpu []) = true := by decide

theorem witness_CompareThenConditionOrdersOperands :
    (placeOf (.reg 0) (cpu [])).readable .w8 (cpu []) = true ∧ operandReadable .w8 (.reg 3) (cpu []) = true ∧
    ∃ t, exec (.cmp .w8 (.rr 0 3)) (cpu []) = .next t := ⟨rfl, rfl, _, rfl⟩

theorem witness_LoopFamilyCountsDownRcx :
    ∀ o ∈ [Operand.reg 1, .imm ⟨false, .w1, 0x40⟩, .mem (ad 88)], operandReadable .w8 o (cpu []) = true := by decide

theorem witness_CallAndRetUseTheStack :
    operandReadable .w8 (.mem (ad 88)) (cpu []) = true ∧ (cpu []).rb.toNat ≤ (cpu []).sb.toNat ∧
    (cpu []).sb.toNat ≤ ((cpu []).reg rsp - 8).toNat ∧ ((cpu []).reg rsp - 8).toNat + 8 ≤ (cpu []).len.toNat ∧
    (cpu []).sb.toNat ≤ ((cpu []).reg rsp).toNat ∧ ((cpu []).reg rsp).toNat + 8 ≤ (cpu []).len.toNat := by decide

theorem witness_FldPushesTheSource :
    (fpuReadable (.st 0) (cpuS []) = true ∧ (cpuS []).inuseAt ((cpuS []).top - 1) = false) ∧
    (fpuReadable (.mem (ad 88)) (cpu []) = true ∧ (cpu []).inuseAt ((cpu []).top - 1) = false) := by decide

theorem witness_FstAndFstpStoreTheTop :
    (cpuS []).inuseAt (cpuS []).top = true ∧ (Place.mem (effAddr (ad 40) (cpuS []))).writable .w8 (cpuS []) = true ∧
    (Place.mem (effAddr (ad 88) (cpuS []))).writable .w8 (cpuS []) = true := by decide

theorem witness_EightPushesFillTheFpuStack :
    ([FpuForm.mem (ad 0), .st 0, .st 1, .mem (ad 88), .mem (ad 8), .st 4, .st 0, .st 6].length = 8 ∧
      (runAll ([FpuForm.mem (ad 0), .st 0, .st 1, .mem (ad 88), .mem (ad 8), .st 4, .st 0, .st 6].map Instr.fld
        ++ List.replicate 8 (Instr.fstp (.st 0))) (cpu [])).isSome = true) ∧
    ((List.replicate 8 (ad 88)).length = 8 ∧ (cpu []).running = true ∧ (∀ j, (cpu []).inuseAt j = false) ∧
      ∀ a ∈ List.replicate 8 (ad 88), (effAddr a (cpu [])).toNat + 8 ≤ (cpu []).len.toNat) ∧
    (∃ u, runAll ((List.replicate 8 (FpuForm.mem (ad 0))).map Instr.fld) (cpu []) = some u ∧
      ∀ a, FpuForm.mem (ad 88) = .mem a → (effAddr a u).toNat + 8 ≤ u.len.toNat) := by
  refine ⟨by decide, by decide, _, rfl, fun a h => ?_⟩
  cases h
  decide

theorem witness_NopAndHlt : (cpu []).running = true := by decide

theorem witness_SyscallRunsTheHandlerOfItsNumber :
    ((sys 0 7 0 0 []).running = true ∧ (sys 0 7 0 0 []).service = some .exit) ∧
    ((sys 12 7 0 0 []).running = true ∧ (sys 12 7 0 0 []).service = none) ∧
    (sys 0x100000000 7 0 0 []).service = none ∧ (sys 11 7 0 0 []).cfg.syscalls = referenceSyscalls := by decide

/-- Each ending of a handler of the host's own, and a store one byte below RB. -/
theorem witness_SyscallRunsTheHandlerOfItsNumber_own :
    (sysOwn 3 []).running = true ∧ (sysOwn 3 []).service = some (.own 0) ∧ 39 < (sysOwn 3 []).rb.toNat ∧
    ∀ h ∈ [Handler.writeResult 5 .finish, .suspend, .exit 5, .fail .ioFailure, .writeMem 39 .w1 5 .finish],
      ∃ H : HandlerTable, H 0 = h := ⟨rfl, rfl, by decide, fun h _ => ⟨fun _ => h, rfl⟩⟩

/-- Bytes stored up to the buffer's last byte; end of file on a slot that is not interactive; a suspension. -/
theorem witness_SyscallReadStoresOrSuspends :
    (∀ c ∈ [(sys 1 1 92 4 [reply [1, 2, 3, 4] 0], 1), (sys 1 1 40 4 [reply [] 0], 1), (sys 1 0 40 4 [reply [] 0], 0)],
      c.1.service = some .read ∧ c.1.arg0.toNat = c.2 ∧ c.2 < c.1.nfd ∧ (c.1.fdAt c.2).inUse = true ∧
      c.1.rb.toNat ≤ c.1.arg1.toNat ∧ c.1.arg1.toNat + c.1.arg2.toNat ≤ c.1.len.toNat ∧
      (askHost (.read (c.1.fdAt c.2).stream c.1.arg2.toNat) c.1).1.failed = false) ∧
    (let s := sys 1 1 92 4 [reply [1, 2, 3, 4] 0]
     ¬ ((askHost (.read (s.fdAt 1).stream 4) s).1.data.take 4 = [] ∧ (s.fdAt 1).interactive = true)) ∧
    (let s := sys 1 1 40 4 [reply [] 0]
     ¬ ((askHost (.read (s.fdAt 1).stream 4) s).1.data.take 4 = [] ∧ (s.fdAt 1).interactive = true)) ∧
    (let s := sys 1 0 40 4 [reply [] 0]
     (askHost (.read (s.fdAt 0).stream 4) s).1.data.take 4 = [] ∧ (s.fdAt 0).interactive = true) := by decide

theorem witness_SyscallStreamServicesReportTheirResult :
    (∀ s ∈ [sys 2 1 94 2 [reply [] 0], sys 5 1 0 0 [reply [] 0], sys 6 1 5 0 [reply [] 0], sys 6 1 5 1 [reply [] 0],
        sys 6 1 5 2 [reply [] 0], sys 7 1 0 0 [reply [] 0]],
      s.arg0.toNat = 1 ∧ 1 < s.nfd ∧ (s.fdAt 1).inUse = true ∧ (askHost (.tell 1) s).1.failed = false) ∧
    (let s := sys 2 1 94 2 [reply [] 0]
     s.service = some .write ∧ s.arg1.toNat + s.arg2.toNat ≤ s.len.toNat) ∧
    ((sys 5 1 0 0 []).service = some .flush ∧ (sys 6 1 5 0 []).service = some .seek ∧ (sys 6 1 5 0 []).arg2 = 0 ∧
      (sys 6 1 5 1 []).arg2 = 1 ∧ (sys 6 1 5 2 []).arg2 = 2 ∧ (sys 7 1 0 0 []).service = some .tell) := by decide

/-- The failure clauses of the read, stream, open, close and path statements: the same operands with a host that fails. The
answer does not depend on the call, since it is the next one lined up. -/
theorem witness_host_failure_clauses (n di si dx : Word) (c : HostCall) :
    let s := sys n di si dx [⟨true, [], 0, 0⟩]
    s.running = true ∧ (askHost c s).1.failed = true ∧ s.service = serviceOf referenceSyscalls n ∧ s.arg0 = di ∧
    s.arg1 = si ∧ s.arg2 = dx :=
  ⟨rfl, rfl, rfl, rfl, rfl, rfl⟩

/-- Open with slots 0 to 2 in use, and with only the table's last slot free; close of a slot in use. -/
theorem witness_SyscallOpenAndCloseManageSlots :
    (let s := (sys 3 40 0 0 [reply [] 9]).putBytes 40 [0x61]
     s.service = some .openFile ∧ s.cfg.fsEnabled = true ∧ readCString s.arg0.toNat s = .done [0x61] s ∧ 3 < s.nfd ∧
     (s.fdAt 3).inUse = false ∧ (∀ j, j < 3 → (s.fdAt j).inUse = true) ∧
     (askHost (.openFile [0x61] s.arg1) s).1.failed = false) ∧
    (let s := { sys 3 40 0 0 [] with fd := List.replicate 15 (FdSlot.mk true 0 false) ++ [FdSlot.free] }
     15 < s.nfd ∧ (s.fdAt 15).inUse = false ∧ ∀ j, j < 15 → (s.fdAt j).inUse = true) ∧
    (let s := sys 4 2 0 0 [reply [] 0]
     s.service = some .close ∧ s.arg0.toNat = 2 ∧ 2 < s.nfd ∧ (s.fdAt 2).inUse = true ∧
     (askHost (.close (s.fdAt 2).stream) s).1.failed = false) := by
  refine ⟨⟨rfl, rfl, rfl, by decide, rfl, by decide, rfl⟩, ⟨by decide, rfl, by decide⟩, rfl, rfl, by decide, rfl, rfl⟩

/-- For each of the numbers 8 to 11: two terminated paths, the second one empty at the end of the buffer. -/
theorem witness_SyscallPathServicesCallTheHost :
    (let s := fun n => (sys n 40 94 0 [reply [] 0]).putBytes 40 [0x61]
     ∀ n, (s n).cfg.fsEnabled = true ∧ readCString (s n).arg0.toNat (s n) = .done [0x61] (s n) ∧
      (s n).service = serviceOf referenceSyscalls n ∧ readCString (s n).arg1.toNat (s n) = .done [] (s n) ∧
      (askHost (.remove [0x61]) (s n)).1.failed = false) ∧
    serviceOf referenceSyscalls 8 = some .move ∧ serviceOf referenceSyscalls 9 = some .remove ∧
    serviceOf referenceSyscalls 10 = some .mkdir ∧ serviceOf referenceSyscalls 11 = some .rmdir :=
  ⟨fun _ => ⟨rfl, rfl, rfl, rfl, rfl⟩, rfl, rfl, rfl, rfl⟩

/-- An FD index of 16 and a free slot 15, for each service that takes one; a closed gate. -/
theorem witness_SyscallChecksComeBeforeTheHost :
    (∀ nv ∈ [((1 : Word), Service.read), (2, .write), (4, .close), (5, .flush), (6, .seek), (7, .tell)],
      (sys nv.1 16 0 0 []).running = true ∧ (sys nv.1 16 0 0 []).service = some nv.2 ∧
      (sys nv.1 16 0 0 []).nfd ≤ (sys nv.1 16 0 0 []).arg0.toNat ∧
      (sys nv.1 15 0 0 []).service = some nv.2 ∧ (sys nv.1 15 0 0 []).arg0.toNat < (sys nv.1 15 0 0 []).nfd ∧
      ((sys nv.1 15 0 0 []).fdAt (sys nv.1 15 0 0 []).arg0.toNat).inUse = false) ∧
    (∀ nv ∈ [((3 : Word), Service.openFile), (8, .move), (9, .remove), (10, .mkdir), (11, .rmdir)],
      let s := { sys nv.1 0 0 0 [] with cfg := ⟨false, referenceSyscalls⟩ }
      s.running = true ∧ s.service = some nv.2 ∧ s.cfg.fsEnabled = false) := by decide

/-- A read buffer one byte below RB, buffers one byte past the end, a seek from origin 3, and a full table. -/
theorem witness_SyscallChecksComeBeforeTheHost_operands :
    (∀ s ∈ [sys 1 0 39 0 [], sys 1 1 93 4 [], sys 2 1 95 2 [], sys 6 2 0 3 []],
      s.running = true ∧ s.arg0.toNat < s.nfd ∧ (s.fdAt s.arg0.toNat).inUse = true) ∧
    (let s := sys 1 0 39 0 []
     s.service = some .read ∧ s.arg1.toNat < s.rb.toNat) ∧
    (let s := sys 1 1 93 4 []
     s.service = some .read ∧ s.rb.toNat ≤ s.arg1.toNat ∧ s.len.toNat < s.arg1.toNat + s.arg2.toNat) ∧
    (let s := sys 2 1 95 2 []
     s.service = some .write ∧ s.len.toNat < s.arg1.toNat + s.arg2.toNat) ∧
    (let s := sys 6 2 0 3 []
     s.service = some .seek ∧ s.arg2 ≠ 0 ∧ s.arg2 ≠ 1 ∧ s.arg2 ≠ 2) ∧
    (let s := { sys 3 94 0 0 [] with fd := List.replicate 16 ⟨true, 0, false⟩ }
     s.running = true ∧ s.service = some .openFile ∧ s.cfg.fsEnabled = true ∧ ∀ k, k < s.nfd → (s.fdAt k).inUse = true) := by
  decide

/-- Unterminated paths: at the buffer's end, and on its last byte; for move also the second one, after a terminated first. -/
theorem witness_SyscallChecksComeBeforeTheHost_paths (n : Word) (a : Nat) :
    (let s := sys n 96 0 0 []
     s.running = true ∧ s.cfg.fsEnabled = true ∧ s.service = serviceOf referenceSyscalls n ∧
     (s.arg0.toNat ≤ a → a < s.len.toNat → s.byte a ≠ 0)) ∧
    (let s := (sys 8 94 95 0 []).putBytes 95 [0x61]
     s.service = some .move ∧ readCString s.arg0.toNat s = .done [] s ∧ (s.arg1.toNat ≤ a → a < s.len.toNat → s.byte a ≠ 0)) := by
  refine ⟨⟨rfl, rfl, rfl, fun h h' => ?_⟩, rfl, rfl, fun h h' => ?_⟩
  · have h : 96 ≤ a := h
    have h' : a < 96 := h'
    omega
  · have h : 95 ≤ a := h
    have h' : a < 96 := h'
    obtain rfl : a = 95 := by omega
    decide

theorem witness_SyscallKeepsRegistersFlagsAndFpu :
    (∃ t, execSyscallWith own (sys 1 0 40 4 [reply [0x68] 0]) = .next t) ∧
    (∃ t, execSyscallWith own (sysOwn 4 []) = .next t) ∧ 39 < (sysOwn 4 []).rb.toNat := ⟨⟨_, rfl⟩, ⟨_, rfl⟩, by decide⟩

theorem witness_StoresOutsideWritableMemoryTerminate :
    let s := cpu []
    s.running = true ∧ (effAddr (ad 39) s).toNat < s.rb.toNat ∧
    (s.rb.toNat ≤ (effAddr (ad 89) s).toNat ∧ s.len.toNat < (effAddr (ad 89) s).toNat + Width.w8.bytes) ∧
    ((effAddr (ad 39) s).toNat + Width.w8.bytes ≤ s.len.toNat) ∧
    Instr.not .w8 (.mem (ad 39)) ∈ [Instr.add .w8 (.mr (ad 39) 0), .sub .w8 (.mr (ad 39) 0), .and .w8 (.mr (ad 39) 0),
      .or .w8 (.mr (ad 39) 0), .xor .w8 (.mr (ad 39) 0), .inc .w8 (.mem (ad 39)), .dec .w8 (.mem (ad 39)),
      .neg .w8 (.mem (ad 39)), .not .w8 (.mem (ad 39))] := by decide

/-- POP with a full word at the top of the stack, and FST and FSTP with the top in use, each to the two addresses above. -/
theorem witness_StoresOutsideWritableMemoryTerminate_pop_and_fst :
    (let s := (cpu []).putReg rsp 88
     s.running = true ∧ s.sb.toNat ≤ (s.reg rsp).toNat ∧ (s.reg rsp).toNat + Width.w8.bytes ≤ s.len.toNat ∧
     (effAddr (ad 39) s).toNat < s.rb.toNat ∧
     (s.rb.toNat ≤ (effAddr (ad 89) s).toNat ∧ s.len.toNat < (effAddr (ad 89) s).toNat + Width.w8.bytes)) ∧
    (let s := cpuS []
     s.running = true ∧ s.inuseAt s.top = true ∧ (effAddr (ad 39) s).toNat < s.rb.toNat ∧
     (s.rb.toNat ≤ (effAddr (ad 89) s).toNat ∧ s.len.toNat < (effAddr (ad 89) s).toNat + 8)) := by decide

theorem witness_LoadsOutsideTheBufferTerminate :
    (cpu []).running = true ∧ (cpu []).len.toNat < (effAddr (ad 89) (cpu [])).toNat + Width.w8.bytes ∧
    (cpu []).len.toNat < (effAddr (ad 89) (cpu [])).toNat + 8 ∧
    (let s := (cpu []).putReg rsp 89
     s.running = true ∧ s.sb.toNat ≤ (s.reg rsp).toNat ∧ s.len.toNat < (s.reg rsp).toNat + Width.w8.bytes ∧
     s.len.toNat < (s.reg rsp).toNat + 8) := by decide

theorem witness_StackBarrierTerminates :
    let s := (cpu []).putReg rsp 55
    let s' := (cpu []).putReg rsp 47
    s.running = true ∧ operandReadable .w8 (.mem (ad 88)) s = true ∧
    (s.reg rsp - BitVec.ofNat 64 Width.w8.bytes).toNat < s.sb.toNat ∧ (s.reg rsp - BitVec.ofNat 64 8).toNat < s.sb.toNat ∧
    s'.running = true ∧ (s'.reg rsp).toNat < s'.sb.toNat := by decide

/-- A push whose value ends one byte past the buffer, and one whose new RSP has wrapped to the last address. -/
theorem witness_StackBarrierTerminates_outOfBounds :
    (let s := (cpu []).putReg rsp 97
     s.running = true ∧ operandReadable .w8 (.reg 0) s = true ∧ s.rb.toNat ≤ s.sb.toNat ∧
     s.sb.toNat ≤ (s.reg rsp - BitVec.ofNat 64 8).toNat ∧ s.len.toNat < (s.reg rsp - BitVec.ofNat 64 8).toNat + 8) ∧
    (let s := (cpu []).putReg rsp 7
     s.sb.toNat ≤ (s.reg rsp - BitVec.ofNat 64 8).toNat ∧ s.len.toNat < (s.reg rsp - BitVec.ofNat 64 8).toNat + 8) := by
  refine ⟨by decide, ?_⟩
  have e : ((cpu []).putReg rsp 7).reg rsp - BitVec.ofNat 64 8 = 0xFFFFFFFFFFFFFFFF := by decide
  have hs : ((cpu []).putReg rsp 7).sb = 48 := rfl
  have hl : ((cpu []).putReg rsp 7).len = 96 := rfl
  simp only [e, hs, hl]
  decide

theorem witness_InvalidFpuTransitionsTerminate :
    (cpuS []).running = true ∧ (cpuS []).inuseAt ((cpuS []).top + 1) = false ∧
    (let s := (cpuS []).putInuse 6 true
     s.running = true ∧ s.inuseAt (s.top + 0) = true ∧ s.inuseAt (s.top - 1) = true ∧
     (effAddr (ad 88) s).toNat + 8 ≤ s.len.toNat) ∧
    (cpu []).running = true ∧ (cpu []).inuseAt (cpu []).top = false := by decide

theorem of_bootSat {o : Option State} {p : State → Bool} (h : bootSat o p = true) : ∃ t, o = some t := by
  cases o with
  | none => cases h
  | some t => exact ⟨t, rfl⟩

/-- Also for ResetMeetsInvariant: an image that initializes without arguments, under any layout, and one with two. -/
theorem witness_InitializeLeavesTheResetTable :
    (([] : List (List Byte)) ≠ [] → prm.argLayout = referenceLayout) ∧
    (∃ t, bootstrap prm fil p1 [] 16 State.reset = some t) ∧
    (∃ t, bootstrap prm fil p1 [[0x61], [0x62, 0x62]] 37 State.reset = some t) ∧ [[(0x61 : Byte)], [0x62, 0x62]] ≠ [] ∧
    prm.argLayout = referenceLayout :=
  ⟨fun _ => rfl, of_bootSat test_bootstrap_p1, of_bootSat test_bootstrap_args.1, by decide, rfl⟩

theorem witness_InitializeFailsOnlyByItsChecks :
    (hostInitialize prm fil p1 [[0x61]] 25 State.reset).1 = false ∧ (hostInitialize prm fil p1 [[0x61]] 26 State.reset).1 = true ∧
    (checkImage prm p1 = .ok ∧ addressSpace (parseImage p1) 26 ≤ prm.maxMemSize.toNat ∧ (0 : Byte) ∉ [(0x61 : Byte)] ∧
      prm.argLayout.bytes [[0x61]] ≤ (26 : Word).toNat) := by
  decide

theorem witness_ArgumentsReadBackAsCStrings :
    [[(0x61 : Byte)], [0x62, 0x62]] ≠ [] ∧ prm.argLayout = referenceLayout ∧ (∃ t, bootstrap prm fil p1 [[0x61], [0x62, 0x62]] 37 State.reset = some t) ∧
    1 < [[(0x61 : Byte)], [0x62, 0x62]].length := ⟨by decide, rfl, of_bootSat test_bootstrap_args.1, by decide⟩

theorem witness_SavedImageLoadsBack :
    (parseImage p1).wf = true ∧ parseImage p1 ≠ Image.empty ∧ (loadImage prm none).1 ≠ .ok ∧
    (loadImage prm (some (p1.take 53))).1 ≠ .ok := by decide

theorem witness_ImageChecksRunInOrder :
    let word := fun (f : List Byte) k => leNat ((f.drop (8 * k)).take 8)
    let wrong := file 1 7 0 0 0 0 []
    let short := p1.take 15
    let old := (file 0x4853 8 0 0 0 0 []).take 16
    (p1.take 7).length < 8 ∧
    (8 ≤ wrong.length ∧ word wrong 0 ≠ prm.imageMagic.toNat) ∧
    (8 ≤ short.length ∧ word short 0 = prm.imageMagic.toNat ∧ short.length < 16) ∧
    (16 ≤ old.length ∧ word old 0 = prm.imageMagic.toNat ∧ word old 1 ≠ prm.imageVersion.toNat) ∧
    (16 ≤ (p1.take 47).length ∧ word (p1.take 47) 0 = prm.imageMagic.toNat ∧ word (p1.take 47) 1 = prm.imageVersion.toNat ∧
      (p1.take 47).length < 48) ∧
    ((p1.take 53).length ≠ 48 + word (p1.take 53) 2 + word (p1.take 53) 3 + word (p1.take 53) 4) ∧
    (48 ≤ p1.length ∧ word p1 0 = prm.imageMagic.toNat ∧ word p1 1 = prm.imageVersion.toNat ∧
      p1.length = 48 + word p1 2 + word p1 3 + word p1 4) := by decide

end Sys2Proof.Tests
end

section
/-! PROOFS. The statements of the state family (10_state.md): O14, O15, O16, O24 and O56. First that every step evolves, in
the sense of `Evolves`: it keeps the invariant, the barriers and readonly memory. -/

namespace Sys2Proof.Machine

/-! ### Every step evolves -/

/-- The end of a handler applied to a running engine; only a suspension asks that it runs (10_state.md R34). -/
theorem applySysEnd_evolves (v : SysEnd) (s : State) (h : s.running = true) : Evolves s (applySysEnd v s) := by
  cases v with
  | finished => exact .refl s
  | suspend =>
    exact ⟨fun hi => { hi with suspendedRuns := fun _ => h }, ⟨rfl, rfl, rfl, rfl, rfl, rfl⟩, fun _ _ => rfl⟩
  | exit v => exact exitWith_evolves v s

theorem execSyscallWith_evolves (H : HandlerTable) {s t : State} (h : s.running = true)
    (e : execSyscallWith H s = .next t) : Evolves s t := by
  rcases execSyscallWith_cases H s with ⟨_, e'⟩ | ⟨_, c, u, _, _, hf, e'⟩ | ⟨_, v, u, _, _, hf, e'⟩ <;>
    obtain rfl := Host.Outcome.next.inj (e'.symm.trans e)
  · exact terminate_evolves _ s
  · exact hf.evolves.trans (terminate_evolves c u)
  · exact hf.evolves.trans (applySysEnd_evolves v u (hf.run.1.trans h))

theorem readFpuForm_evolves (f : FpuForm) (s : State) : (readFpuForm f s).Ends (Evolves s) := by
  cases f with
  | st i => exact readSt_evolves i s
  | mem a => exact memRead_evolves _ _ s

/-- An instruction but SYSCALL evolves from every state, running or not. -/
theorem exec_evolves {i : Instr} {s t : State} (hi : i ≠ .syscall) (e : exec i s = .next t) : Evolves s t := by
  cases i with
  | nop => cases e; exact .refl s
  | hlt => cases e; exact terminate_evolves .abort s
  | syscall => exact absurd rfl hi
  | pushf => exact finish_evolves (push_evolves _ _ _) e
  | popf => refine finish_evolves ?_ e; exact (pop_evolves _ _).chain fun v u => restoreFlags_evolves u v
  | mov w f => exact finish_evolves ((readOperand_evolves _ _ _).chain fun _ _ => writePlace_evolves _ _ _ _) e
  | lea w r a => cases e; exact putReg_evolves s r _
  | push w v => exact finish_evolves ((readOperand_evolves _ _ _).chain fun _ _ => push_evolves _ _ _) e
  | pop w d => exact finish_evolves ((pop_evolves _ _).chain fun _ _ => writePlace_evolves _ _ _ _) e
  | jmp w o => refine finish_evolves ?_ e; exact (readTarget_evolves _ _ _).chain fun v u => jump_evolves u v
  | jo w o | jno w o | jb w o | jae w o | je w o | jne w o | jbe w o | ja w o | js w o | jns w o | jp w o | jnp w o
  | jl w o | jge w o | jle w o | jg w o => exact finish_evolves (jumpIf_evolves _ w o s) e
  | loop w o | loope w o | loopne w o => exact finish_evolves (loopIf_evolves _ w o s) e
  | call w o =>
    refine finish_evolves ?_ e
    exact (readTarget_evolves _ _ _).chain fun v _ => (push_evolves _ _ _).chain fun _ u => jump_evolves u v
  | ret => refine finish_evolves ?_ e; exact (pop_evolves _ _).chain fun v u => jump_evolves u v
  | add w f | sub w f => exact finish_evolves (binWrite_evolves w f _ s) e
  | and w f | or w f | xor w f => exact finish_evolves (binLogic_evolves w f _ s) e
  | cmp w f => refine finish_evolves ?_ e; exact (readBoth_evolves _ _ _).chain fun _ u => mergeFlags_evolves u _
  | test w f =>
    refine finish_evolves ?_ e
    exact (readBoth_evolves _ _ _).chain fun _ u => (drawAf_evolves u).trans (mergeFlags_evolves _ _)
  | inc w d | dec w d | neg w d | not w d => exact finish_evolves (unWrite_evolves w d _ _ s) e
  | fld f => exact finish_evolves ((readFpuForm_evolves f s).chain fun v u => fpuPush_evolves v u) e
  | fst f => exact finish_evolves (fpuStore_evolves f s) e
  | fstp f => exact finish_evolves ((fpuStore_evolves f s).chain fun _ u => fpuPop_evolves u) e
  | ffree i | fincstp | fdecstp | finit =>
    cases e; exact .of_same rfl ⟨rfl, rfl, rfl, rfl, rfl, rfl⟩ rfl rfl rfl rfl

theorem execWith_evolves (H : HandlerTable) {i : Instr} {s t : State} (h : s.running = true)
    (e : execWith H i s = .next t) : Evolves s t := by
  by_cases hi : i = .syscall
  · subst hi; exact execSyscallWith_evolves H h (execWith_syscall H s ▸ e)
  · exact exec_evolves hi (execWith_other H i s hi ▸ e)

/-- A step evolves from every state, whatever the host's own handlers are: past the gate the engine runs. -/
theorem stepWith_evolves (H : HandlerTable) {s t : State} (e : stepWith H s = .next t) : Evolves s t := by
  rcases tickWith_cases (execWith H) s with
    ⟨_, e'⟩ | ⟨_, _, e'⟩ | ⟨_, _, _, rest, _, e'⟩ | ⟨hr, _, i, rest, _, e'⟩ <;>
    have e' := e'.symm.trans e
  · cases e'; exact .refl s
  · cases e'; exact terminate_evolves _ s
  · cases e'; exact (advanceTo_evolves s rest).trans (terminate_evolves _ _)
  · exact (advanceTo_evolves s rest).trans (execWith_evolves H ((ready_iff s).mp hr).1 e')

theorem step_evolves {s t : State} (e : step s = .next t) : Evolves s t :=
  stepWith_evolves Config.ownHandlers ((stepWith_own s).trans e)

/-- Settles O14: a step evolves, and so keeps the invariant. -/
theorem stepKeepsInvariant : Obligations.StepKeepsInvariant :=
  ⟨fun _ _ hi e => (step_evolves e).inv hi, fun H _ _ hi e => (stepWith_evolves H e).inv hi⟩

/-- Settles O15: a step evolves, and so keeps the barriers, the configuration and readonly memory. -/
theorem stepKeepsBarriersAndReadonlyMemory : Obligations.StepKeepsBarriersAndReadonlyMemory :=
  ⟨fun _ _ e => ⟨(step_evolves e).barriers, (step_evolves e).readonly⟩,
    fun H _ _ e => ⟨(stepWith_evolves H e).barriers, (stepWith_evolves H e).readonly⟩⟩

end Sys2Proof.Machine
end

section
/-! PROOFS. O16: the operations that the instructions outside the ALU's writers are built from leave RFLAGS as it was
(10_state.md R27), a raised error included. -/

namespace Sys2Proof.Machine

/-! ### RFLAGS is written by few instructions -/

/-- A piece of pseudocode that, raised or not, ends with the flags of `s`. -/
def Res.KeepsRflags {α : Type} (s : State) (r : Res α) : Prop := r.Ends fun t => t.rflags = s.rflags

theorem Res.KeepsRflags.bind {α β : Type} {s : State} {r : Res α} {k : α → State → Res β} (h : r.KeepsRflags s)
    (hk : ∀ v t, (k v t).KeepsRflags t) : (r.bind k).KeepsRflags s :=
  Res.Ends.bind h fun v t (e : t.rflags = s.rflags) => by
    have hv : (k v t).Ends fun u => u.rflags = t.rflags := hk v t
    rwa [e] at hv

theorem finish_keepsRflags {r : Res Unit} {s t : State} (h : r.KeepsRflags s) (e : r.finish = .next t) :
    t.rflags = s.rflags := by
  cases r with
  | done v u => cases e; exact h
  | raised c u => cases e; exact (terminate_rflags c u).trans h

/-- What has the frame of a handler keeps RFLAGS. -/
theorem Res.Ends.keepsRflags {α : Type} {s : State} {r : Res α} (h : r.Ends (HandlerFrame s)) : r.KeepsRflags s := by
  cases r <;> exact HandlerFrame.rflags h

theorem memRead_keepsRflags (p n : Nat) (s : State) : (memRead p n s).KeepsRflags s := (memRead_frame p n s).keepsRflags

theorem memWrite_keepsRflags (p n : Nat) (v : BitVec (8 * n)) (s : State) : (memWrite p n v s).KeepsRflags s :=
  (memWrite_frame p n v s).keepsRflags

theorem push_keepsRflags (n : Nat) (v : BitVec (8 * n)) (s : State) : (push n v s).KeepsRflags s := by
  rcases push_cases n v s with ⟨_, e⟩ | ⟨_, _, e⟩ | ⟨_, _, _, e⟩ | ⟨_, _, _, e⟩ <;> rw [e] <;> rfl

theorem pop_keepsRflags (n : Nat) (s : State) : (pop n s).KeepsRflags s := by
  rcases pop_cases n s with ⟨_, e⟩ | ⟨_, _, e⟩ | ⟨_, _, e⟩ <;> rw [e] <;> rfl

theorem readPlace_keepsRflags (w : Width) (p : Place) (s : State) : (readPlace w p s).KeepsRflags s := by
  cases p with
  | reg i => rfl
  | mem a => exact memRead_keepsRflags _ _ s

theorem writePlace_keepsRflags (w : Width) (p : Place) (v : BitVec w.bits) (s : State) :
    (writePlace w p v s).KeepsRflags s := by
  cases p with
  | reg i => rfl
  | mem a => exact memWrite_keepsRflags _ _ v s

theorem readOperand_keepsRflags (w : Width) (o : Operand) (s : State) : (readOperand w o s).KeepsRflags s := by
  cases o with
  | reg r => rfl
  | imm v => rfl
  | mem a => exact memRead_keepsRflags _ _ s

theorem readTarget_keepsRflags (w : Width) (o : Operand) (s : State) : (readTarget w o s).KeepsRflags s :=
  (readOperand_keepsRflags w o s).bind fun _ _ => rfl

/-- A jump taken or not taken keeps RFLAGS (44_control.md R238). -/
theorem jumpIf_keepsRflags (c : Cond) (w : Width) (o : Operand) (s : State) : (jumpIf c w o s).KeepsRflags s := by
  refine (readTarget_keepsRflags w o s).bind fun v t => ?_
  show (if _ then _ else _ : State).rflags = t.rflags
  split <;> rfl

/-- The decrement of RCX writes no flag (44_control.md R239). -/
theorem loopIf_keepsRflags (test : Word → Bool) (w : Width) (o : Operand) (s : State) :
    (loopIf test w o s).KeepsRflags s := by
  refine (readTarget_keepsRflags w o s).bind fun v t => ?_
  show (if _ then _ else _ : State).rflags = t.rflags
  split <;> rfl

/-- A UN instruction that assigns no flag (43_alu.md R210). -/
theorem unWrite_keepsRflags (w : Width) (d : RegMem) (op : BitVec w.bits → BitVec w.bits) (s : State) :
    (unWrite w d op (fun _ => ⟨none, none, none, none, none, none⟩) s).KeepsRflags s :=
  (readPlace_keepsRflags _ _ s).bind fun _ _ => (writePlace_keepsRflags _ _ _ _).bind fun _ u => mergeFlags_none u.rflags

theorem readSt_keepsRflags (i : StIndex) (s : State) : (readSt i s).KeepsRflags s := by
  cases h : s.inuseAt (s.top + i) with
  | true => rw [readSt_done i s h]; rfl
  | false => rw [readSt_raised i s h]; rfl

theorem readFpuForm_keepsRflags (f : FpuForm) (s : State) : (readFpuForm f s).KeepsRflags s := by
  cases f with
  | st i => exact readSt_keepsRflags i s
  | mem a => exact memRead_keepsRflags _ _ s

theorem fpuPush_keepsRflags (v : Word) (s : State) : (fpuPush v s).KeepsRflags s := by
  cases h : s.inuseAt (s.top - 1) with
  | true => rw [fpuPush_raised v s h]; rfl
  | false => rw [fpuPush_done v s h]; rfl

theorem fpuPop_keepsRflags (s : State) : (fpuPop s).KeepsRflags s := by
  cases h : s.inuseAt s.top with
  | true => rw [fpuPop_done s h]; rfl
  | false => rw [fpuPop_raised s h]; rfl

theorem fpuStore_keepsRflags (f : FpuForm) (s : State) : (fpuStore f s).KeepsRflags s := by
  refine (readSt_keepsRflags 0 s).bind fun v t => ?_
  cases f with
  | st i => rfl
  | mem a => exact memWrite_keepsRflags (effAddr a t).toNat 8 v t

theorem exitWith_rflags (v : Word) (s : State) : (exitWith v s).rflags = s.rflags := by
  unfold exitWith; split <;> rfl

theorem applySysEnd_rflags (v : SysEnd) (s : State) : (applySysEnd v s).rflags = s.rflags := by
  cases v with
  | finished => rfl
  | suspend => rfl
  | exit v => exact exitWith_rflags v s

/-- SYSCALL keeps RFLAGS, whether its handler completes, suspends, exits or raises (60_exceptions.md R303). -/
theorem execSyscallWith_rflags (H : HandlerTable) {s t : State} (e : execSyscallWith H s = .next t) :
    t.rflags = s.rflags := by
  rcases execSyscallWith_cases H s with ⟨_, e'⟩ | ⟨_, c, u, _, _, hf, e'⟩ | ⟨_, v, u, _, _, hf, e'⟩ <;>
    obtain rfl := Host.Outcome.next.inj (e'.symm.trans e)
  · exact terminate_rflags _ s
  · exact (terminate_rflags c u).trans hf.rflags
  · exact (applySysEnd_rflags v u).trans hf.rflags

/-- Settles O16: the instructions that may write RFLAGS are excluded by hypothesis, every other one is built from pieces
that keep it. -/
theorem otherInstructionsKeepRflags : Obligations.OtherInstructionsKeepRflags := by
  intro i s t e hBin hUn hPopf
  cases i with
  | add w f | sub w f | cmp w f | and w f | or w f | xor w f | test w f => exact absurd (hBin w f) (by simp)
  | inc w d | dec w d | neg w d => exact absurd (hUn w d) (by simp)
  | popf => exact absurd rfl hPopf
  | nop | lea w r a | ffree j | fincstp | fdecstp | finit => cases e; rfl
  | hlt => cases e; exact terminate_rflags .abort s
  | syscall => exact execSyscallWith_rflags _ e
  | pushf => exact finish_keepsRflags (push_keepsRflags _ _ _) e
  | mov w f =>
    refine finish_keepsRflags ?_ e
    exact (readOperand_keepsRflags _ _ _).bind fun _ _ => writePlace_keepsRflags _ _ _ _
  | push w v =>
    refine finish_keepsRflags ?_ e
    exact (readOperand_keepsRflags _ _ _).bind fun _ _ => push_keepsRflags _ _ _
  | pop w d =>
    refine finish_keepsRflags ?_ e
    exact (pop_keepsRflags _ _).bind fun _ _ => writePlace_keepsRflags _ _ _ _
  | jmp w o =>
    refine finish_keepsRflags ?_ e
    exact (readTarget_keepsRflags _ _ _).bind fun _ _ => rfl
  | jo w o | jno w o | jb w o | jae w o | je w o | jne w o | jbe w o | ja w o | js w o | jns w o | jp w o | jnp w o
  | jl w o | jge w o | jle w o | jg w o => exact finish_keepsRflags (jumpIf_keepsRflags _ w o s) e
  | loop w o | loope w o | loopne w o => exact finish_keepsRflags (loopIf_keepsRflags _ w o s) e
  | call w o =>
    refine finish_keepsRflags ?_ e
    exact (readTarget_keepsRflags _ _ _).bind fun _ _ => (push_keepsRflags _ _ _).bind fun _ _ => rfl
  | ret =>
    refine finish_keepsRflags ?_ e
    exact (pop_keepsRflags _ _).bind fun _ _ => rfl
  | not w d => exact finish_keepsRflags (unWrite_keepsRflags w d _ s) e
  | fld f =>
    refine finish_keepsRflags ?_ e
    exact (readFpuForm_keepsRflags f s).bind fun _ _ => fpuPush_keepsRflags _ _
  | fst f => exact finish_keepsRflags (fpuStore_keepsRflags f s) e
  | fstp f =>
    refine finish_keepsRflags ?_ e
    exact (fpuStore_keepsRflags f s).bind fun _ _ => fpuPop_keepsRflags _

end Sys2Proof.Machine
end

section
/-! PROOFS. O24: the sub-view rule (10_state.md R23) in numbers. -/

namespace Sys2Proof.Machine

/-! ### Sub-views of a register -/

/-- A 4-byte value clears the upper half. -/
theorem subView_w4_toNat (old : Word) (v : BitVec 32) : (subView old .w4 v).toNat = v.toNat :=
  BitVec.toNat_setWidth_of_le (by decide)

/-- The low `k` bits of a word replaced, its upper `n` bits kept. -/
theorem extractUpper_append_toNat {n k : Nat} (old : BitVec (n + k)) (v : BitVec k) :
    (old.extractLsb' k n ++ v).toNat = old.toNat / 2 ^ k * 2 ^ k + v.toNat := by
  have hq : old.toNat / 2 ^ k < 2 ^ n := Nat.div_lt_of_lt_mul (by rw [← pow_add, Nat.add_comm k]; exact old.isLt)
  rw [BitVec.toNat_append, ← Nat.shiftLeft_add_eq_or_of_lt v.isLt, BitVec.extractLsb'_toNat, Nat.shiftRight_eq_div_pow,
    Nat.mod_eq_of_lt hq, Nat.shiftLeft_eq]

/-- A 2-byte value keeps the upper 48 bits. -/
theorem subView_w2_toNat (old : Word) (v : BitVec 16) :
    (subView old .w2 v).toNat = old.toNat / 2 ^ 16 * 2 ^ 16 + v.toNat :=
  (extractUpper_append_toNat (n := 48) (k := 16) old (v.setWidth 16)).trans (by rw [BitVec.setWidth_eq])

/-- A 1-byte value keeps the upper 56 bits. -/
theorem subView_w1_toNat (old : Word) (v : BitVec 8) :
    (subView old .w1 v).toNat = old.toNat / 2 ^ 8 * 2 ^ 8 + v.toNat :=
  (extractUpper_append_toNat (n := 56) (k := 8) old (v.setWidth 8)).trans (by rw [BitVec.setWidth_eq])

/-- Settles O24. -/
theorem subViewWritesKeepOrClearUpperBits : Obligations.SubViewWritesKeepOrClearUpperBits := by
  intro i s
  refine ⟨fun v => ?_, fun v => ?_, fun v => ?_, fun v => ?_, fun w v j hj => ?_, fun w => BitVec.toNat_setWidth _ _⟩
  · rw [setReg_reg, if_pos rfl, subView_w8]
  · rw [setReg_reg, if_pos rfl, subView_w4_toNat]
  · rw [setReg_reg, if_pos rfl, subView_w2_toNat]
  · rw [setReg_reg, if_pos rfl, subView_w1_toNat]
  · rw [setReg_reg, if_neg hj]

end Sys2Proof.Machine
end

section
/-! PROOFS. O56: what the commit of `Initialize` leaves in memory (70_reset_and_hazards.md R341), what the reference
placement of arguments leaves (R343), and the reset table (10_state.md R40) from the two. -/

namespace Sys2Proof.Machine

/-! ### The commit -/

section Commit
variable (fill : Fill) (i : Image) (reserve : Word) (s : State)

/-- The bytes the commit stores from address 0: text, rodata and data. -/
def Image.content (i : Image) : List Byte := i.text ++ i.rodata ++ i.data

/-- The end of data and bss, before it is a 64-bit word. -/
def Image.dataEnd (i : Image) : Nat := i.content.length + i.bss.toNat

theorem Image.content_length (i : Image) : i.content.length = i.text.length + i.rodata.length + i.data.length := by
  simp [Image.content]; omega

theorem Image.rodataEnd_le_dataEnd (i : Image) : i.text.length + i.rodata.length ≤ i.dataEnd := by
  simp [Image.dataEnd, Image.content_length]; omega

theorem addressSpace_eq : addressSpace i reserve = i.dataEnd + reserve.toNat := by
  simp [addressSpace, Image.dataEnd, Image.content_length]

theorem commitImage_mem : (commitImage fill i reserve s).mem =
    memSetBytes (memSetBytes [] 0 i.content) i.dataEnd (fill.heap.take reserve.toNat) := by
  unfold Image.dataEnd; rw [Image.content_length]; rfl

/-- The image's bytes stand verbatim. -/
theorem commitImage_byte_content (a : Nat) (h : a < i.content.length) :
    (commitImage fill i reserve s).byte a = i.content[a] := by
  unfold State.byte
  rw [commitImage_mem, memByte_memSetBytes_outside _ _ _ _ (.inl (by unfold Image.dataEnd; omega)), memByte_memSetBytes,
    dif_pos (by omega)]
  rfl

/-- The bss is zero. -/
theorem commitImage_byte_bss (a : Nat) (h : i.content.length ≤ a) (h' : a < i.dataEnd) :
    (commitImage fill i reserve s).byte a = 0 := by
  unfold State.byte
  rw [commitImage_mem, memByte_memSetBytes_outside _ _ _ _ (.inl h'),
    memByte_memSetBytes_outside _ _ _ _ (.inr (by omega))]
  rfl

/-- Above the bss stand the draws. -/
theorem commitImage_byte_heap (a : Nat) (h : i.dataEnd ≤ a) (h' : a < i.dataEnd + reserve.toNat)
    (hl : a - i.dataEnd < fill.heap.length) :
    (commitImage fill i reserve s).byte a = fill.heap[a - i.dataEnd] := by
  unfold State.byte
  rw [commitImage_mem, memByte_memSetBytes, dif_pos (by simp; omega), List.getElem_take]

/-- The barriers and the length, where the address space is a 64-bit word (70_reset_and_hazards.md R340). -/
theorem commitImage_barriers (h : addressSpace i reserve < 2 ^ 64) :
    (commitImage fill i reserve s).len.toNat = i.dataEnd + reserve.toNat ∧
    (commitImage fill i reserve s).eb.toNat = i.text.length ∧
    (commitImage fill i reserve s).rb.toNat = i.text.length + i.rodata.length ∧
    (commitImage fill i reserve s).sb.toNat = i.dataEnd := by
  have hc := i.content_length
  rw [addressSpace_eq] at h
  unfold Image.dataEnd at h ⊢
  simp only [commitImage, addressSpace_eq, Image.dataEnd, BitVec.toNat_ofNat]
  refine ⟨Nat.mod_eq_of_lt h, Nat.mod_eq_of_lt ?_, Nat.mod_eq_of_lt ?_, ?_⟩
  · omega
  · omega
  · rw [Nat.mod_eq_of_lt] <;> omega

theorem commitImage_reg (j : Reg) : (commitImage fill i reserve s).reg j =
    if j = rsp then BitVec.ofNat 64 (addressSpace i reserve) else fill.regs[j] :=
  putReg_reg { s with x := fill.regs } rsp j _

end Commit

/-! ### The reference placement of arguments -/

/-- Push where its checks pass (20_memory.md R72); `q` is RSP after it. -/
theorem push_done {n : Nat} {s : State} {q : Word} (v : BitVec (8 * n)) (hq : s.reg rsp - BitVec.ofNat 64 n = q)
    (hsb : s.sb.toNat ≤ q.toNat) (hrb : s.rb.toNat ≤ q.toNat) (hlen : q.toNat + n ≤ s.len.toNat) :
    push n v s = .done () ((s.putReg rsp q).putValue q.toNat n v) := by
  subst hq
  rcases push_cases n v s with ⟨h, _⟩ | ⟨_, h, _⟩ | ⟨_, _, h, _⟩ | ⟨_, _, _, e⟩
  · omega
  · omega
  · omega
  · exact e

theorem ofNat_add_sub_cancel (a c : Nat) : BitVec.ofNat 64 (a + c) - BitVec.ofNat 64 c = BitVec.ofNat 64 a := by
  rw [BitVec.ofNat_add, BitVec.add_sub_cancel]

/-- Two pushes of 8 bytes into the 16 bytes from `b` upward. -/
theorem push_push_done {s : State} {b : Nat} (u v : Word) (hr : s.reg rsp = BitVec.ofNat 64 (b + 16))
    (hsb : s.sb.toNat ≤ b) (hrb : s.rb.toNat ≤ b) (hlen : b + 16 ≤ s.len.toNat) :
    ((push 8 u s).bind fun _ t => push 8 v t) =
      .done () (((s.putReg rsp (BitVec.ofNat 64 b)).putValue (b + 8) 8 u).putValue b 8 v) := by
  have hL := s.len.isLt
  have h₀ : (BitVec.ofNat 64 b).toNat = b := Nat.mod_eq_of_lt (by omega)
  have h₈ : (BitVec.ofNat 64 (b + 8)).toNat = b + 8 := Nat.mod_eq_of_lt (by omega)
  have e₁ := push_done (s := s) (n := 8) u ((congrArg (· - BitVec.ofNat 64 8) hr).trans (ofNat_add_sub_cancel (b + 8) 8))
    (by omega) (by omega) (by omega)
  rw [h₈] at e₁
  have e₂ := push_done (s := (s.putReg rsp (BitVec.ofNat 64 (b + 8))).putValue (b + 8) 8 u) (n := 8)
    (q := BitVec.ofNat 64 b) v (by rw [putValue_reg, putReg_reg, if_pos rfl]; exact ofNat_add_sub_cancel b 8)
    (by rw [h₀]; exact hsb) (by rw [h₀]; exact hrb) (by rw [h₀]; exact Nat.le_trans (by omega) hlen)
  rw [h₀] at e₂
  rw [e₁, Res.bind_done, e₂]
  simp [State.putReg, State.putValue, State.putBytes]

theorem argBytes_eq {args : List (List Byte)} (h : args ≠ []) :
    argBytes args = 16 + 8 * args.length + strSize args := by
  unfold argBytes strSize; rw [if_neg (by simpa using h)]; omega

/-- In `t` the pointer array stands 16 bytes above `b`, the strings above it, and memory outside the argument area from `b`
upward is that of `s`. -/
structure ArrayPlaced (args : List (List Byte)) (b : Nat) (s t : State) : Prop where
  outside : keepsMemBut b (argBytes args) s t
  pointers : ∀ k (h : k < (strAddrs args (b + 16 + 8 * args.length)).length),
    t.value (b + 16 + 8 * k) 8 = BitVec.ofNat 64 (strAddrs args (b + 16 + 8 * args.length))[k]
  strings : ∀ k (h : k < (strBytes args).length), t.byte (b + 16 + 8 * args.length + k) = (strBytes args)[k]

/-- The 16 bytes from `b` upward are not of the array. -/
theorem ArrayPlaced.congr {args : List (List Byte)} {b : Nat} {s t u : State} (hne : args ≠ [])
    (h : ArrayPlaced args b s t) (hu : keepsMemBut b 16 t u) : ArrayPlaced args b s u := by
  have hA := argBytes_eq hne
  refine ⟨fun a ha => ?_, fun k hk => ?_, fun k hk => ?_⟩
  · rw [hu a (by omega), h.outside a ha]
  · rw [value_congr t u _ _ fun j _ => hu _ (by omega), h.pointers k hk]
  · rw [hu _ (by omega), h.strings k hk]

/-- The state `PlaceArgs` pushes in, from `s` and the memory `m` with the array: RSP and RSI at the array, RDI the count. -/
def beforeArgPushes (args : List (List Byte)) (b : Nat) (m : List Host.Cell) (s : State) : State :=
  ((({ s with mem := m } : State).putReg rsp (BitVec.ofNat 64 (b + 16))).putReg rdi (BitVec.ofNat 64 args.length)).putReg
    rsi (BitVec.ofNat 64 (b + 16))

theorem beforeArgPushes_reg (args : List (List Byte)) (b : Nat) (m : List Host.Cell) (s : State) (j : Reg) :
    (beforeArgPushes args b m s).reg j =
      if j = rsi then BitVec.ofNat 64 (b + 16) else if j = rdi then BitVec.ofNat 64 args.length
      else if j = rsp then BitVec.ofNat 64 (b + 16) else s.reg j := by
  unfold beforeArgPushes
  rw [putReg_reg, putReg_reg, putReg_reg]; rfl

theorem putReg_putReg (s : State) (i : Reg) (u v : Word) : (s.putReg i u).putReg i v = s.putReg i v := by
  simp [State.putReg]

/-- PlaceArgs from its two parts, with `argv` the address of the array (70_reset_and_hazards.md R343). -/
theorem placeArgs_of_parts {args : List (List Byte)} {s s₁ s₂ : State} {ptrs : List Word} {argv : Word}
    (e₁ : placeStrings args.reverse [] s = .done ptrs s₁)
    (hr₁ : s₁.reg rsp - BitVec.ofNat 64 (8 * args.length) = argv)
    (e₂ : placePointers ptrs argv.toNat (s₁.putReg rsp argv) = .done () s₂) (hr₂ : s₂.reg rsp = argv) :
    placeArgs args s = (push 8 argv ((s₂.putReg rdi (BitVec.ofNat 64 args.length)).putReg rsi argv)).bind fun _ t =>
      push 8 (BitVec.ofNat 64 args.length) t := by
  unfold placeArgs
  rw [e₁, Res.bind_done]
  dsimp only
  rw [hr₁, putReg_reg, if_pos rfl, e₂, Res.bind_done, hr₂]

/-- Up to the two pushes, where the argument area, whose lowest address is `b`, lies above RB and inside the buffer. -/
theorem placeArgs_eq_pushes {args : List (List Byte)} {s : State} {b : Nat} (hne : args ≠ [])
    (hp : (s.reg rsp).toNat = b + argBytes args) (hrb : s.rb.toNat ≤ b) (hlen : b + argBytes args ≤ s.len.toNat) :
    ∃ m, ArrayPlaced args b s (beforeArgPushes args b m s) ∧ placeArgs args s =
      (push 8 (BitVec.ofNat 64 (b + 16)) (beforeArgPushes args b m s)).bind fun _ t =>
        push 8 (BitVec.ofNat 64 args.length) t := by
  have hA := argBytes_eq hne
  have hL := s.len.isLt
  obtain ⟨m₁, e₁, hm₁⟩ := placeStrings_done args.reverse [] s (b + argBytes args) hp
    (by rw [strSize_reverse]; omega) hlen
  rw [strSize_reverse, List.reverse_reverse,
    show b + argBytes args - strSize args = b + 16 + 8 * args.length by omega] at e₁ hm₁
  rw [List.append_nil] at e₁
  obtain ⟨m₂, e₂, hout₂, hval₂⟩ := placePointers_done
    ((strAddrs args (b + 16 + 8 * args.length)).map (BitVec.ofNat 64)) (b + 16)
    (({ s with mem := m₁ } : State).putReg rsp (BitVec.ofNat 64 (b + 16)))
    (by show s.rb.toNat ≤ _; omega) (by rw [List.length_map, strAddrs_length]; show _ ≤ s.len.toNat; omega)
  rw [List.length_map, strAddrs_length] at hout₂
  refine ⟨m₂, ⟨fun a ha => ?_, fun k hk => ?_, fun k hk => ?_⟩, ?_⟩
  · exact (hout₂ a (by omega)).trans ((hm₁ a).trans (memByte_memSetBytes_outside _ _ _ _
      (by rw [strBytes_length]; omega)))
  · exact (hval₂ k (by simpa using hk)).trans (List.getElem_map _)
  · refine (hout₂ _ (by omega)).trans ((hm₁ _).trans ?_)
    rw [memByte_memSetBytes, dif_pos (by omega)]
    simp
  · have hr₁ : (({ s with mem := m₁ } : State).putReg rsp (BitVec.ofNat 64 (b + 16 + 8 * args.length))).reg rsp
        - BitVec.ofNat 64 (8 * args.length) = BitVec.ofNat 64 (b + 16) := by
      rw [putReg_reg, if_pos rfl]; exact ofNat_add_sub_cancel _ _
    refine placeArgs_of_parts e₁ hr₁ (s₂ := ({ s with mem := m₂ } : State).putReg rsp (BitVec.ofNat 64 (b + 16))) ?_
      ((putReg_reg _ _ _ _).trans (if_pos rfl))
    rw [show (BitVec.ofNat 64 (b + 16)).toNat = b + 16 from Nat.mod_eq_of_lt (by omega)]
    exact (congrArg _ (putReg_putReg { s with mem := m₁ } rsp _ _)).trans e₂

/-- What the reference placement leaves in `t`, from `s` with RSP `argBytes args` above `b`: from `b` upward the count, the
address of the argument array, the array and the strings; RDI and RSI; nothing else of registers and memory. -/
structure ArgsPlaced (args : List (List Byte)) (b : Nat) (s t : State) : Prop extends ArrayPlaced args b s t where
  rsp : t.reg rsp = BitVec.ofNat 64 b
  rdi : t.reg rdi = BitVec.ofNat 64 args.length
  rsi : t.reg rsi = BitVec.ofNat 64 (b + 16)
  regs : ∀ j, j ≠ Machine.rsp → j ≠ Machine.rdi → j ≠ Machine.rsi → t.reg j = s.reg j
  count : t.value b 8 = BitVec.ofNat 64 args.length
  argv : t.value (b + 8) 8 = BitVec.ofNat 64 (b + 16)

/-- The placement completes where its area lies above the barriers and inside the buffer (R343), and writes registers and
memory only. -/
theorem placeArgs_done {args : List (List Byte)} {s : State} {b : Nat} (hne : args ≠ [])
    (hp : (s.reg rsp).toNat = b + argBytes args) (hrb : s.rb.toNat ≤ b) (hsb : s.sb.toNat ≤ b)
    (hlen : b + argBytes args ≤ s.len.toNat) :
    ∃ x m, placeArgs args s = .done () { s with x := x, mem := m } ∧
      ArgsPlaced args b s { s with x := x, mem := m } := by
  obtain ⟨m, hm, e⟩ := placeArgs_eq_pushes hne hp hrb hlen
  have hA := argBytes_eq hne
  rw [push_push_done (s := beforeArgPushes args b m s) _ _ (by rw [beforeArgPushes_reg]; rfl) hsb hrb
    (show _ ≤ s.len.toNat by omega)] at e
  refine ⟨_, _, e, ⟨hm.congr hne fun a ha => ?_, ?_, ?_, ?_, fun j h₁ h₂ h₃ => ?_, ?_, ?_⟩⟩
  · exact (putValue_byte_outside _ _ _ _ _ (by omega)).trans (putValue_byte_outside _ _ _ _ _ (by omega))
  · exact (putReg_reg _ _ _ _).trans (if_pos rfl)
  · exact (putReg_reg _ _ _ _).trans ((if_neg (by decide)).trans (beforeArgPushes_reg args b m s rdi))
  · exact (putReg_reg _ _ _ _).trans ((if_neg (by decide)).trans (beforeArgPushes_reg args b m s rsi))
  · refine (putReg_reg _ _ _ _).trans ((if_neg h₁).trans ((beforeArgPushes_reg args b m s j).trans ?_))
    rw [if_neg h₃, if_neg h₂, if_neg h₁]
  · exact putValue_value _ b 8 _
  · exact (putValue_value_outside _ b 8 (b + 8) 8 _ (by omega)).trans (putValue_value _ (b + 8) 8 _)

/-! ### A successful Initialize -/

/-- What a successful `Initialize` leaves in `t` where `c` is the state after the commit and `b` is RSP: the argument area
from `b` upward, RSP, RDI and RSI are the placement's, where there are arguments, and all else is the commit's. -/
structure Initialized (args : List (List Byte)) (b : Nat) (c t : State) : Prop where
  outside : keepsMemBut b (argBytes args) c t
  rsp : t.reg rsp = BitVec.ofNat 64 b
  regs : ∀ j, j ≠ Machine.rsp → (args ≠ [] → j ≠ rdi ∧ j ≠ rsi) → t.reg j = c.reg j
  placed : args ≠ [] → ArgsPlaced args b c t
  others : ∃ x m, t = { c with x := x, mem := m }

theorem initialized_noArgs {b : Nat} {c : State} (h : c.reg rsp = BitVec.ofNat 64 b) : Initialized [] b c c :=
  ⟨fun _ _ => rfl, h, fun _ _ _ => rfl, fun h => absurd rfl h, _, _, rfl⟩

theorem ArgsPlaced.initialized {args : List (List Byte)} {b : Nat} {c : State} {x : Vector Word 16} {m : List Host.Cell}
    (hne : args ≠ []) (h : ArgsPlaced args b c { c with x := x, mem := m }) :
    Initialized args b c { c with x := x, mem := m } :=
  ⟨h.outside, h.rsp, fun j hj hn => h.regs j hj (hn hne).1 (hn hne).2, fun _ => h, x, m, rfl⟩

/-- The address space of a successful `Initialize` is a 64-bit word and the arguments fit the reserve
(70_reset_and_hazards.md R341). -/
theorem bootstrap_initialized {P : EngineParams} {fill : Fill} {file : List Byte} {args : List (List Byte)} {reserve : Word}
    {s t : State} (hl : args ≠ [] → P.argLayout = referenceLayout) (h : bootstrap P fill file args reserve s = some t) :
    addressSpace (parseImage file) reserve < 2 ^ 64 ∧ argBytes args ≤ reserve.toNat ∧
    Initialized args (addressSpace (parseImage file) reserve - argBytes args)
      (commitImage fill (parseImage file) reserve s) t := by
  unfold bootstrap at h
  split at h
  case isFalse => cases h
  case isTrue hc =>
    simp only [initChecks, Bool.and_eq_true, decide_eq_true_eq] at hc
    obtain ⟨⟨⟨_, hspace⟩, _⟩, hbytes⟩ := hc
    have hL : addressSpace (parseImage file) reserve < 2 ^ 64 := Nat.lt_of_le_of_lt hspace P.maxMemSize.isLt
    refine ⟨hL, ?_⟩
    have hrsp := (commitImage_reg fill (parseImage file) reserve s rsp).trans (if_pos rfl)
    by_cases hne : args = []
    · subst hne
      cases h
      exact ⟨Nat.zero_le _, initialized_noArgs hrsp⟩
    · have hA : argBytes args ≤ reserve.toNat := by rwa [hl hne] at hbytes
      obtain ⟨hlen, _, hrb, hsb⟩ := commitImage_barriers fill (parseImage file) reserve s hL
      have hs := addressSpace_eq (parseImage file) reserve
      have hd := (parseImage file).rodataEnd_le_dataEnd
      obtain ⟨x, m, e, hp⟩ := placeArgs_done (b := addressSpace (parseImage file) reserve - argBytes args) hne
        (by rw [hrsp, BitVec.toNat_ofNat, Nat.mod_eq_of_lt hL]; omega) (by omega) (by omega) (by omega)
      rw [if_neg (by simpa using hne), hl hne] at h
      simp only [referenceLayout, e] at h
      cases h
      exact ⟨hA, hp.initialized hne⟩

/-- Settles O56: memory and registers are the commit's outside what the placement writes, every other component is the
commit's. -/
theorem initializeLeavesTheResetTable : Obligations.InitializeLeavesTheResetTable := by
  intro P fill file args reserve s t hl h i content sb len
  obtain ⟨hL, hA, hout, hrsp, hregs, hplaced, x, m, rfl⟩ := bootstrap_initialized hl h
  obtain ⟨hlen, heb, hrb, hsb⟩ := commitImage_barriers fill i reserve s hL
  have hspace : addressSpace i reserve = len := addressSpace_eq i reserve
  rw [hspace] at hL hout hrsp hplaced
  have hb : (BitVec.ofNat 64 (len - argBytes args)).toNat = len - argBytes args := Nat.mod_eq_of_lt (by omega)
  have hsl : len = sb + reserve.toNat := rfl
  have hcs : sb = content.length + i.bss.toNat := rfl
  refine ⟨fun a ha => ?_, fun a ha ha' => ?_, fun a ha ha' hh => ?_, hlen, heb, hrb, hsb, ?_, fun j hj hn => ?_,
    fun hne => ?_, rfl, rfl, fun j => ?_, rfl, rfl, rfl, rfl, rfl, rfl, rfl⟩
  · exact (hout a (.inl (by omega))).trans (commitImage_byte_content fill i reserve s a ha)
  · exact (hout a (.inl (by omega))).trans (commitImage_byte_bss fill i reserve s a ha ha')
  · exact (hout a (.inl ha')).trans (commitImage_byte_heap fill i reserve s a ha (by show a < len; omega) hh)
  · rw [hrsp, hb]
  · exact (hregs j hj hn).trans ((commitImage_reg fill i reserve s j).trans (if_neg hj))
  · have hp := hplaced hne
    have hn : args.length < 2 ^ 64 := by have := argBytes_eq hne; omega
    rw [hp.rdi, hp.rsi, hp.rsp, BitVec.ofNat_add]
    exact ⟨Nat.mod_eq_of_lt hn, rfl⟩
  · exact Vector.getElem_replicate _

end Sys2Proof.Machine
end

section
/-! PROOFS. The statements of the memory family (20_memory.md), first those on the primitives: O20 to O23. -/

namespace Sys2Proof

/-- The value of bytes in little-endian order as a sum over their places (20_memory.md R62). -/
theorem leNat_map_range (f : Nat → Byte) (n : Nat) :
    leNat ((List.range n).map f) = ((List.range n).map fun k => (f k).toNat * 2 ^ (8 * k)).sum := by
  induction n generalizing f with
  | zero => rfl
  | succ n ih =>
    have hpow : ∀ k, 2 ^ (8 * (k + 1)) = 256 * 2 ^ (8 * k) := fun k => by ring
    simp only [List.range_succ_eq_map, List.map_cons, List.map_map, List.sum_cons, leNat, Function.comp_def, ih,
      Nat.mul_zero, pow_zero, Nat.mul_one, hpow, Nat.mul_left_comm _ 256, List.sum_map_mul_left]

end Sys2Proof

namespace Sys2Proof.Machine

/-! ### Reads and writes -/

/-- The value of `n` bytes in numbers: their little-endian sum fits the width. -/
theorem value_toNat (s : State) (p n : Nat) :
    (s.value p n).toNat = ((List.range n).map fun k => (s.byte (p + k)).toNat * 2 ^ (8 * k)).sum := by
  have hlt : leNat (s.bytes p n) < 2 ^ (8 * n) := by simpa using leNat_lt (s.bytes p n)
  rw [State.value, BitVec.toNat_ofNat, Nat.mod_eq_of_lt hlt, State.bytes, leNat_map_range]

/-- A change of registers and memory alone is in the frame of the integer instructions. -/
theorem keepsEngine_of_regs_mem (s : State) (x : Vector Word 16) (m : List Host.Cell) :
    keepsEngine s { s with x := x, mem := m } :=
  ⟨⟨rfl, rfl, rfl⟩, ⟨rfl, rfl, rfl, rfl, rfl, rfl⟩, ⟨rfl, rfl, rfl, rfl, rfl, rfl, rfl⟩⟩

/-- Settles O20. -/
theorem memReadChecksBounds : Obligations.MemReadChecksBounds := by
  intro p n s _
  exact ⟨memRead_raised p n s, fun h => ⟨s.value p n, memRead_done p n s h, value_toNat s p n⟩⟩

/-- Settles O21: the checks are those of `memWrite_cases`, and a stored value reads back. -/
theorem memWriteChecksReadonlyThenBounds : Obligations.MemWriteChecksReadonlyThenBounds := by
  intro p n v s _
  refine ⟨memWrite_readonly p n v s, memWrite_outside p n v s, fun hrb hlen => ?_⟩
  have hread : memRead p n (s.putValue p n v) = .done v (s.putValue p n v) := by
    rw [memRead_done p n (s.putValue p n v) hlen, putValue_value]
  exact ⟨s.putValue p n v, memWrite_done p n v s hrb hlen, hread, fun k hk => putValue_byte_inside s p n k v hk,
    fun a ha => putValue_byte_outside s p n a v ha, fun _ => rfl, rfl, rfl, keepsEngine_of_regs_mem s _ _⟩

/-! ### The stack primitives -/

/-- A push whose new RSP is below the stack barrier (20_memory.md R72). -/
theorem push_overflow {n : Nat} (v : BitVec (8 * n)) {s : State}
    (h : (s.reg rsp - BitVec.ofNat 64 n).toNat < s.sb.toNat) :
    push n v s = .raised .stackOverflow (s.putReg rsp (s.reg rsp - BitVec.ofNat 64 n)) := by
  rcases push_cases n v s with ⟨_, e⟩ | ⟨h', _⟩ | ⟨h', _⟩ | ⟨h', _⟩
  · exact e
  all_goals omega

/-- A push past the buffer's end, where the barriers are in order (R72). -/
theorem push_outside {n : Nat} (v : BitVec (8 * n)) {s : State} (hrb : s.rb.toNat ≤ s.sb.toNat)
    (hsb : s.sb.toNat ≤ (s.reg rsp - BitVec.ofNat 64 n).toNat)
    (hlen : s.len.toNat < (s.reg rsp - BitVec.ofNat 64 n).toNat + n) :
    push n v s = .raised .outOfBounds (s.putReg rsp (s.reg rsp - BitVec.ofNat 64 n)) := by
  rcases push_cases n v s with ⟨h, _⟩ | ⟨_, h, _⟩ | ⟨_, _, _, e⟩ | ⟨_, _, h, _⟩
  · omega
  · omega
  · exact e
  · omega

/-- A pop with RSP below the stack barrier (20_memory.md R73). -/
theorem pop_overflow {n : Nat} {s : State} (h : (s.reg rsp).toNat < s.sb.toNat) :
    pop n s = .raised .stackOverflow s := by
  rcases pop_cases n s with ⟨_, e⟩ | ⟨h', _⟩ | ⟨h', _⟩
  · exact e
  all_goals omega

/-- A pop past the buffer's end (R73). -/
theorem pop_outside {n : Nat} {s : State} (hsb : s.sb.toNat ≤ (s.reg rsp).toNat)
    (hlen : s.len.toNat < (s.reg rsp).toNat + n) : pop n s = .raised .outOfBounds s := by
  rcases pop_cases n s with ⟨h, _⟩ | ⟨_, _, e⟩ | ⟨_, h, _⟩
  · omega
  · exact e
  · omega

/-- A pop where its checks pass (R73). -/
theorem pop_done {n : Nat} {s : State} (hsb : s.sb.toNat ≤ (s.reg rsp).toNat)
    (hlen : (s.reg rsp).toNat + n ≤ s.len.toNat) :
    pop n s = .done (s.value (s.reg rsp).toNat n) (s.putReg rsp (s.reg rsp + BitVec.ofNat 64 n)) := by
  rcases pop_cases n s with ⟨h, _⟩ | ⟨_, h, _⟩ | ⟨_, _, e⟩
  · omega
  · omega
  · exact e

/-- Settles O22: with the barriers in order a push at or above SB is at or above RB. -/
theorem stackPrimitivesCheckTheBarrier : Obligations.StackPrimitivesCheckTheBarrier := by
  refine ⟨fun n v s _ hrb => ⟨push_overflow v, push_outside v hrb, fun hsb hlen => ?_⟩,
    fun n s _ => ⟨pop_overflow, pop_outside, pop_done⟩⟩
  refine ⟨_, push_done v rfl hsb (Nat.le_trans hrb hsb) hlen, ?_, fun j hj => ?_, putValue_value _ _ n v,
    fun a ha => putValue_byte_outside _ _ n a v ha, rfl, rfl, keepsEngine_of_regs_mem s _ _⟩
  · rw [putValue_reg, putReg_reg, if_pos rfl]
  · rw [putValue_reg, putReg_reg, if_neg hj]

/-! ### C strings -/

/-- The scan finds a string that its zero byte ends within the fuel (20_memory.md R68). -/
theorem scanCString_found (m : List Host.Cell) (str : List Byte) (fuel p : Nat) (hf : str.length < fuel)
    (hs : ∀ k (h : k < str.length), memByte m (p + k) = str[k] ∧ str[k] ≠ 0) (hz : memByte m (p + str.length) = 0) :
    scanCString m fuel p = some str := by
  induction str generalizing fuel p with
  | nil =>
    obtain ⟨fuel, rfl⟩ := Nat.exists_eq_add_one_of_ne_zero (Nat.ne_zero_of_lt hf)
    exact if_pos hz
  | cons b str ih =>
    rw [List.length_cons] at hf hz
    obtain ⟨fuel, rfl⟩ := Nat.exists_eq_add_one_of_ne_zero (Nat.ne_zero_of_lt hf)
    obtain ⟨hb, hb0⟩ : memByte m p = b ∧ b ≠ 0 := hs 0 (Nat.succ_pos _)
    have htail : scanCString m fuel (p + 1) = some str := by
      refine ih fuel (p + 1) (by omega) (fun k hk => ?_) (by rw [← hz]; congr 1; omega)
      rw [Nat.add_assoc, Nat.add_comm 1]
      exact hs (k + 1) (Nat.succ_lt_succ hk)
    rw [scanCString, hb, if_neg hb0, htail, Option.map_some]

/-- The scan of bytes none of which is zero (R68). -/
theorem scanCString_none (m : List Host.Cell) (fuel p : Nat) (h : ∀ a, p ≤ a → a < p + fuel → memByte m a ≠ 0) :
    scanCString m fuel p = none := by
  induction fuel generalizing p with
  | zero => rfl
  | succ fuel ih =>
    have htail := ih (p + 1) fun a h1 h2 => h a (by omega) (by omega)
    rw [scanCString, if_neg (h p (by omega) (by omega)), htail, Option.map_none]

theorem readCString_of_scan {p : Nat} {s : State} {str : List Byte}
    (h : scanCString s.mem (s.len.toNat - p) p = some str) : readCString p s = .done str s := by
  unfold readCString; rw [h]

theorem readCString_of_scan_none {p : Nat} {s : State} (h : scanCString s.mem (s.len.toNat - p) p = none) :
    readCString p s = .raised .outOfBounds s := by
  unfold readCString; rw [h]

/-- A string and its terminator stored: their bytes, and nothing else changes (20_memory.md R69). -/
theorem putCString_bytes (s : State) (p : Nat) (str : List Byte) :
    (∀ k (h : k < str.length), (s.putBytes p (str ++ [0])).byte (p + k) = str[k]) ∧
    (s.putBytes p (str ++ [0])).byte (p + str.length) = 0 ∧
    keepsMemBut p (str.length + 1) s (s.putBytes p (str ++ [0])) := by
  have hlen : (str ++ [(0 : Byte)]).length = str.length + 1 := by simp
  refine ⟨fun k hk => ?_, ?_, fun a ha => putBytes_byte_outside s p a _ (by rwa [hlen])⟩
  · rw [putBytes_byte_inside s p k _ (by omega), List.getElem_append_left hk]
  · rw [putBytes_byte_inside s p _ _ (by omega)]; simp

/-- Settles O23. -/
theorem cStringPrimitives : Obligations.CStringPrimitives := by
  refine ⟨fun p str s hlen hstr hz => ?_, fun p s hne => ?_, fun p str s => ?_⟩
  · exact readCString_of_scan (scanCString_found s.mem str _ p (by omega) hstr hz)
  · exact readCString_of_scan_none (scanCString_none s.mem _ p fun a h1 h2 => hne a h1 (by omega))
  · obtain ⟨hbytes, hzero, hframe⟩ := putCString_bytes s p str
    rcases writeCString_cases p str s with ⟨h, e⟩ | ⟨h1, h2, e⟩ | ⟨h1, h2, e⟩
    · exact ⟨fun _ => e, fun _ _ => by omega, fun _ _ => by omega⟩
    · exact ⟨fun _ => by omega, fun _ _ => e, fun _ _ => by omega⟩
    · exact ⟨fun _ => by omega, fun _ _ => by omega, fun _ _ =>
        ⟨_, e, hbytes, hzero, hframe, fun _ => rfl, rfl, rfl, keepsEngine_of_regs_mem s _ _⟩⟩

end Sys2Proof.Machine
end

section
/-! PROOFS. Where stores, loads, pushes and pops terminate: O52, O53 and O54. Each statement comes from the piece of the
instruction that raises: every piece after it is skipped, and the instruction ends in the termination. -/

namespace Sys2Proof.Machine

/-! ### An instruction that raises -/

theorem finish_of_raised {r : Res Unit} {e : ErrorCode} {u : State} (h : r = .raised e u) :
    r.finish = .next (terminate e u) := by
  rw [h, Res.finish_raised]

/-- A raise in the first piece ends the instruction (00_scope.md R17). -/
theorem bind_finish_of_raised {α : Type} {r : Res α} {k : α → State → Res Unit} {e : ErrorCode} {u : State}
    (h : r = .raised e u) : (r.bind k).finish = .next (terminate e u) := by
  rw [h, Res.bind_raised, Res.finish_raised]

section Raising
variable {e : ErrorCode} {i : Instr} {s : State}

/-- An instruction that raises before it changes anything. -/
theorem stops_of_exec_terminates (h : s.running = true) (he : exec i s = .next (terminate e s)) :
    ∃ t, exec i s = .next t ∧ stopsWith e s t ∧ keepsRegs s t ∧ t.rip = s.rip :=
  ⟨_, he, terminate_stopsWith e s h, terminate_reg e s, terminate_rip e s⟩

/-- The same, with nothing said of RIP. -/
theorem stops_keepsRegs_of_exec_terminates (h : s.running = true) (he : exec i s = .next (terminate e s)) :
    ∃ t, exec i s = .next t ∧ stopsWith e s t ∧ keepsRegs s t :=
  ⟨_, he, terminate_stopsWith e s h, terminate_reg e s⟩

/-- An instruction that raises when it has moved RSP and changed nothing else. -/
theorem stops_of_exec_terminates_rsp_moved {p : Word} (h : s.running = true)
    (he : exec i s = .next (terminate e (s.putReg rsp p))) :
    ∃ t, exec i s = .next t ∧ stopsWith e s t ∧ t.reg rsp = p ∧ keepsRegsBut rsp s t ∧ t.rip = s.rip := by
  refine ⟨_, he, ?_, ?_, fun j hj => ?_, terminate_rip e _⟩
  · exact terminate_stopsWith_of e s (s.putReg rsp p) h (fun _ => rfl) rfl ⟨rfl, rfl, rfl⟩ (keepsBarriers_refl s) rfl
  · rw [terminate_reg, putReg_reg, if_pos rfl]
  · rw [terminate_reg, putReg_reg, if_neg hj]

/-! ### The ALU's operand accesses (43_alu.md R196, R198) -/

/-- Both reads of a BIN instruction come before its write; the destination's is checked first. -/
theorem readBoth_raised {w : Width} {f : BinForm}
    (h : (placeOf f.dst s).readable w s = false ∨ operandReadable w f.src s = false) :
    readBoth w f s = .raised .outOfBounds s := by
  unfold readBoth
  cases hd : (placeOf f.dst s).readable w s with
  | false => rw [readPlace_raised _ _ _ hd, Res.bind_raised]
  | true =>
    have hsrc : operandReadable w f.src s = false := h.resolve_left (by rw [hd]; decide)
    rw [readPlace_done _ _ _ hd, Res.bind_done, readOperand_raised _ _ _ hsrc, Res.bind_raised]

/-- A BIN instruction whose operand reads raise ends there, whether it writes a result or not. -/
theorem exec_bin_of_read_raised {w : Width} {f : BinForm} (h : readBoth w f s = .raised e s) :
    ∀ i ∈ [Instr.add w f, .sub w f, .cmp w f, .and w f, .or w f, .xor w f, .test w f],
      exec i s = .next (terminate e s) := by
  simp only [List.forall_mem_cons]
  have hstop : ∀ k, ((readBoth w f s).bind k).finish = .next (terminate e s) := fun _ => bind_finish_of_raised h
  exact ⟨hstop _, hstop _, hstop _, hstop _, hstop _, hstop _, hstop _, List.forall_mem_nil _⟩

/-- A UN instruction whose operand read raises ends there. -/
theorem exec_un_of_read_raised {w : Width} {d : RegMem} (h : readPlace w (placeOf d s) s = .raised e s) :
    ∀ i ∈ [Instr.inc w d, .dec w d, .neg w d, .not w d], exec i s = .next (terminate e s) := by
  simp only [List.forall_mem_cons]
  have hstop : ∀ k, ((readPlace w (placeOf d s) s).bind k).finish = .next (terminate e s) := fun _ =>
    bind_finish_of_raised h
  exact ⟨hstop _, hstop _, hstop _, hstop _, List.forall_mem_nil _⟩

/-! ### Stores outside writable memory -/

/-- A BIN instruction whose reads pass and whose write raises. -/
theorem binWrite_raised {w : Width} {f : BinForm} {op : BitVec w.bits → BitVec w.bits → BitVec w.bits × FlagSet}
    (h1 : (placeOf f.dst s).readable w s = true) (h2 : operandReadable w f.src s = true)
    (hw : ∀ v, writePlace w (placeOf f.dst s) v s = .raised e s) : binWrite w f op s = .raised e s := by
  unfold binWrite
  rw [readBoth_done _ _ _ h1 h2, Res.bind_done, hw, Res.bind_raised]

/-- A logical instruction whose reads pass and whose write raises: no draw is taken. -/
theorem binLogic_raised {w : Width} {f : BinForm} {op : BitVec w.bits → BitVec w.bits → BitVec w.bits}
    (h1 : (placeOf f.dst s).readable w s = true) (h2 : operandReadable w f.src s = true)
    (hw : ∀ v, writePlace w (placeOf f.dst s) v s = .raised e s) : binLogic w f op s = .raised e s := by
  unfold binLogic
  rw [readBoth_done _ _ _ h1 h2, Res.bind_done, hw, Res.bind_raised]

/-- A UN instruction whose read passes and whose write raises. -/
theorem unWrite_raised {w : Width} {d : RegMem} {op : BitVec w.bits → BitVec w.bits} {fl : BitVec w.bits → FlagSet}
    (h1 : (placeOf d s).readable w s = true) (hw : ∀ v, writePlace w (placeOf d s) v s = .raised e s) :
    unWrite w d op fl s = .raised e s := by
  simp only [unWrite, readPlace_done _ _ _ h1, Res.bind_done, hw, Res.bind_raised]

/-- The instructions that read, change and write back memory at an address. -/
def memUpdates (w : Width) (a : Addr) (r : Reg) : List Instr :=
  [.add w (.mr a r), .sub w (.mr a r), .and w (.mr a r), .or w (.mr a r), .xor w (.mr a r),
    .inc w (.mem a), .dec w (.mem a), .neg w (.mem a), .not w (.mem a)]

/-- The read of an update is checked first. -/
theorem exec_memUpdate_of_unreadable {w : Width} {a : Addr} {r : Reg}
    (h : s.len.toNat < (effAddr a s).toNat + w.bytes) :
    ∀ i ∈ memUpdates w a r, exec i s = .next (terminate .outOfBounds s) := by
  have hread : (Place.mem (effAddr a s)).readable w s = false := decide_eq_false (Nat.not_le_of_lt h)
  have hbin := exec_bin_of_read_raised (readBoth_raised (f := .mr a r) (.inl hread))
  have hun := exec_un_of_read_raised (d := .mem a) (readPlace_raised _ _ _ hread)
  simp only [memUpdates, List.forall_mem_cons] at hbin hun ⊢
  obtain ⟨hadd, hsub, _, hand, hor, hxor, _⟩ := hbin
  exact ⟨hadd, hsub, hand, hor, hxor, hun⟩

/-- An update whose read passes ends where its write raises. -/
theorem exec_memUpdate_of_write_raised {w : Width} {a : Addr} {r : Reg}
    (h : (effAddr a s).toNat + w.bytes ≤ s.len.toNat)
    (hw : ∀ v, memWrite (effAddr a s).toNat w.bytes v s = .raised e s) :
    ∀ i ∈ memUpdates w a r, exec i s = .next (terminate e s) := by
  have hread : (Place.mem (effAddr a s)).readable w s = true := decide_eq_true h
  have hbin : ∀ op, (binWrite w (.mr a r) op s).finish = .next (terminate e s) := fun _ =>
    finish_of_raised (binWrite_raised hread rfl hw)
  have hlogic : ∀ op, (binLogic w (.mr a r) op s).finish = .next (terminate e s) := fun _ =>
    finish_of_raised (binLogic_raised hread rfl hw)
  have hun : ∀ op fl, (unWrite w (.mem a) op fl s).finish = .next (terminate e s) := fun _ _ =>
    finish_of_raised (unWrite_raised hread hw)
  simp only [memUpdates, List.forall_mem_cons]
  exact ⟨hbin _, hbin _, hlogic _, hlogic _, hlogic _, hun _ _, hun _ _, hun _ _, hun _ _, List.forall_mem_nil _⟩

/-- MOV to memory ends where its write raises (42_data_movement.md R170). -/
theorem exec_movStore_of_write_raised {w : Width} {a : Addr} {r : Reg}
    (hw : ∀ v, memWrite (effAddr a s).toNat w.bytes v s = .raised e s) :
    exec (.mov w (.mr a r)) s = .next (terminate e s) :=
  finish_of_raised (hw (s.regW r w))

/-- POP to memory ends where its write raises; RSP has moved, the address is the one from before (R173). -/
theorem exec_popStore_of_write_raised {w : Width} {a : Addr} (hsb : s.sb.toNat ≤ (s.reg rsp).toNat)
    (hlen : (s.reg rsp).toNat + w.bytes ≤ s.len.toNat) :
    let u := s.putReg rsp (s.reg rsp + BitVec.ofNat 64 w.bytes)
    (∀ v, memWrite (effAddr a s).toNat w.bytes v u = .raised e u) →
      exec (.pop w (.mem a)) s = .next (terminate e u) := by
  intro u hw
  refine finish_of_raised ?_
  rw [pop_done hsb hlen, Res.bind_done]
  exact hw _

/-- FST and FSTP to memory end where the write raises: no slot changes, nothing is popped (45_fpu.md R266, R267). -/
theorem exec_fpuStore_of_write_raised {a : Addr} (htop : s.inuseAt s.top = true)
    (hw : ∀ v, memWrite (effAddr a s).toNat 8 v s = .raised e s) :
    ∀ i ∈ [Instr.fst (.mem a), .fstp (.mem a)], exec i s = .next (terminate e s) := by
  have hstore : fpuStore (.mem a) s = .raised e s := by
    unfold fpuStore
    rw [readSt_done 0 s (by simpa using htop), Res.bind_done]
    exact hw _
  simp only [List.forall_mem_cons]
  exact ⟨finish_of_raised hstore, bind_finish_of_raised hstore, List.forall_mem_nil _⟩

/-! ### Loads outside the buffer -/

/-- The meaning of a Jcc row, by its condition (44_control.md R238). -/
theorem exec_jcc (c : Cond) (w : Width) (o : Operand) (s : State) : exec (jcc c w o) s = (jumpIf c w o s).finish := by
  cases c <;> rfl

/-- A control transfer whose target cannot be read ends there, taken or not (44_control.md R236, R238). -/
theorem exec_transfer_of_unreadable {w : Width} {o : Operand} (h : operandReadable w o s = false) :
    (∀ i ∈ [Instr.jmp w o, .call w o, .loop w o, .loope w o, .loopne w o],
      exec i s = .next (terminate .outOfBounds s)) ∧
    ∀ c, exec (jcc c w o) s = .next (terminate .outOfBounds s) := by
  have hstop : ∀ k, ((readTarget w o s).bind k).finish = .next (terminate .outOfBounds s) := fun _ =>
    bind_finish_of_raised (readTarget_raised w o s h)
  simp only [List.forall_mem_cons]
  exact ⟨⟨hstop _, hstop _, hstop _, hstop _, hstop _, List.forall_mem_nil _⟩,
    fun c => (exec_jcc c w o s).trans (hstop _)⟩

theorem operandReadable_mem_eq_false {w : Width} {a : Addr} (h : s.len.toNat < (effAddr a s).toNat + w.bytes) :
    operandReadable w (.mem a) s = false := decide_eq_false (Nat.not_le_of_lt h)

/-- The instructions that load `w.bytes` bytes of memory at an address, but for Jcc. -/
def memLoads (w : Width) (a : Addr) (r : Reg) : List Instr :=
  [.mov w (.rm r a), .add w (.rm r a), .sub w (.rm r a), .cmp w (.rm r a), .and w (.rm r a),
    .or w (.rm r a), .xor w (.rm r a), .test w (.rm r a), .cmp w (.mr a r), .test w (.mr a r), .push w (.mem a),
    .jmp w (.mem a), .call w (.mem a), .loop w (.mem a), .loope w (.mem a), .loopne w (.mem a)]

theorem exec_memLoad_of_unreadable {w : Width} {a : Addr} {r : Reg}
    (h : s.len.toNat < (effAddr a s).toNat + w.bytes) :
    ∀ i ∈ memLoads w a r, exec i s = .next (terminate .outOfBounds s) := by
  have hread := operandReadable_mem_eq_false h
  have hoperand := readOperand_raised _ _ _ hread
  have hsrc := exec_bin_of_read_raised (readBoth_raised (f := .rm r a) (.inr hread))
  have hdst := exec_bin_of_read_raised (readBoth_raised (f := .mr a r) (.inl hread))
  have htransfer := (exec_transfer_of_unreadable hread).1
  simp only [memLoads, List.forall_mem_cons] at hsrc hdst htransfer ⊢
  obtain ⟨hadd, hsub, hcmp, hand, hor, hxor, htest, _⟩ := hsrc
  obtain ⟨_, _, hcmpDst, _, _, _, htestDst, _⟩ := hdst
  exact ⟨bind_finish_of_raised hoperand, hadd, hsub, hcmp, hand, hor, hxor, htest, hcmpDst, htestDst,
    bind_finish_of_raised hoperand, htransfer⟩

theorem readFpuForm_mem_raised {a : Addr} (h : s.len.toNat < (effAddr a s).toNat + 8) :
    readFpuForm (.mem a) s = .raised .outOfBounds s := memRead_raised _ 8 s h

/-- The instructions that pop end where their pop raises. -/
theorem exec_pop_of_raised {w : Width} (d : RegMem) (h : pop w.bytes s = .raised e s) :
    exec (.pop w d) s = .next (terminate e s) := bind_finish_of_raised h

theorem exec_popf_of_raised (h : pop 8 s = .raised e s) : exec .popf s = .next (terminate e s) :=
  bind_finish_of_raised h

theorem exec_ret_of_raised (h : pop 8 s = .raised e s) : exec .ret s = .next (terminate e s) :=
  bind_finish_of_raised h

/-! ### The stack barrier -/

/-- PUSH whose operand can be read ends where its push raises (42_data_movement.md R172). -/
theorem exec_push_of_raised {w : Width} {v : Operand} {u : State} (hv : operandReadable w v s = true)
    (h : push w.bytes (operandHolds w v s) s = .raised e u) : exec (.push w v) s = .next (terminate e u) := by
  refine finish_of_raised ?_
  rw [readOperand_done _ _ _ hv, Res.bind_done, h]

/-- CALL whose target can be read ends where its push raises: the jump is not taken (44_control.md R242). -/
theorem exec_call_of_raised {w : Width} {o : Operand} {u : State} (ho : operandReadable w o s = true)
    (h : push 8 s.rip s = .raised e u) : exec (.call w o) s = .next (terminate e u) := by
  refine finish_of_raised ?_
  rw [readTarget_done _ _ _ ho, Res.bind_done, h, Res.bind_raised]

end Raising

/-! ### The statements -/

/-- Settles O52: in each form the write is the piece that raises, or the read before it. -/
theorem storesOutsideWritableMemoryTerminate : Obligations.StoresOutsideWritableMemoryTerminate := by
  intro w a r s h p
  have hstop {e : ErrorCode} {i : Instr} := stops_keepsRegs_of_exec_terminates (e := e) (i := i) h
  refine ⟨fun hrb => ?_, fun hrb hlen => ?_, fun i hi => ⟨fun hread hrb => ?_, fun hlen => ?_⟩,
    fun hsb hpop => ?_, fun htop i hi => ⟨fun hrb => ?_, fun hrb hlen => ?_⟩⟩
  · exact hstop (exec_movStore_of_write_raised fun v => memWrite_readonly _ _ v s hrb)
  · exact hstop (exec_movStore_of_write_raised fun v => memWrite_outside _ _ v s hrb hlen)
  · exact hstop (exec_memUpdate_of_write_raised hread (fun v => memWrite_readonly _ _ v s hrb) i hi)
  · exact hstop (exec_memUpdate_of_unreadable hlen i hi)
  · intro popStops
    let u := s.putReg rsp (s.reg rsp + BitVec.ofNat 64 w.bytes)
    have hpopStop {e : ErrorCode} (hw : ∀ v, memWrite p w.bytes v u = .raised e u) : popStops e := by
      obtain ⟨t, he, hs, hr, hk, _⟩ := stops_of_exec_terminates_rsp_moved h (exec_popStore_of_write_raised hsb hpop hw)
      exact ⟨t, he, hs, hr, hk⟩
    exact ⟨fun hrb => hpopStop fun v => memWrite_readonly p _ v u hrb,
      fun hrb hlen => hpopStop fun v => memWrite_outside p _ v u hrb hlen⟩
  · exact hstop (exec_fpuStore_of_write_raised htop (fun v => memWrite_readonly _ _ v s hrb) i hi)
  · exact hstop (exec_fpuStore_of_write_raised htop (fun v => memWrite_outside _ _ v s hrb hlen) i hi)

/-- Settles O53: each form's read is the first piece of it that can raise. -/
theorem loadsOutsideTheBufferTerminate : Obligations.LoadsOutsideTheBufferTerminate := by
  intro w a r s h stops
  have hstop : ∀ {i}, exec i s = .next (terminate .outOfBounds s) → stops i := stops_of_exec_terminates h
  refine ⟨fun hlen => ⟨fun i hi => ?_, fun c => ?_⟩, fun hlen => ?_,
    fun hsb => ⟨fun hlen d => ?_, fun hlen => ⟨?_, ?_⟩⟩⟩
  · exact hstop (exec_memLoad_of_unreadable hlen i hi)
  · exact hstop ((exec_transfer_of_unreadable (operandReadable_mem_eq_false hlen)).2 c)
  · exact hstop (bind_finish_of_raised (readFpuForm_mem_raised hlen))
  · exact hstop (exec_pop_of_raised d (pop_outside hsb hlen))
  · exact hstop (exec_popf_of_raised (pop_outside hsb hlen))
  · exact hstop (exec_ret_of_raised (pop_outside hsb hlen))

/-- Settles O54: the operand is read first, then the push or the pop raises. -/
theorem stackBarrierTerminates : Obligations.StackBarrierTerminates := by
  intro s h pushStops
  have hpush {i : Instr} {n : Nat} (v : BitVec (8 * n))
      (he : ∀ {e u}, push n v s = .raised e u → exec i s = .next (terminate e u)) : pushStops i n :=
    ⟨fun hsb => stops_of_exec_terminates_rsp_moved h (he (push_overflow v hsb)),
      fun hrb hsb hlen => stops_of_exec_terminates_rsp_moved h (he (push_outside v hrb hsb hlen))⟩
  refine ⟨fun w v hv => hpush _ (exec_push_of_raised hv), hpush (n := 8) s.rflags finish_of_raised,
    fun w o ho => hpush (n := 8) s.rip (exec_call_of_raised ho), fun hsb => ⟨fun w d => ?_, ?_, ?_⟩⟩
  · exact stops_keepsRegs_of_exec_terminates h (exec_pop_of_raised d (pop_overflow hsb))
  · exact stops_keepsRegs_of_exec_terminates h (exec_popf_of_raised (pop_overflow hsb))
  · exact stops_of_exec_terminates h (exec_ret_of_raised (pop_overflow hsb))

end Sys2Proof.Machine
end

section
/-! PROOFS. The statements of the encoding family (30_encoding.md). First O1: each format's parser gives back what its encoder
wrote, after the opcode that selects it. -/

namespace Sys2Proof

/-! ### Decoding what was encoded -/

/-- An assigned opcode hands the bytes after it to its operand parser (30_encoding.md R100, R130). -/
theorem decode_cons {op : Byte} {p : Parser Instr} (h : operandsOf op = some p) (bs : List Byte) :
    decode (op :: bs) = p bs := by
  simp only [decode, fetchByte_cons, andThen_ok, h]

theorem decodeLea_encodeAddr (w : Width) (r : Reg) (a : Addr) (tail : List Byte) (hw : w.notByte = true)
    (ha : a.wf = true) :
    decodeLea (settings (regCode r) (widthCode w) 0#2 :: encodeAddr a ++ tail) = .ok (.lea w r a) tail := by
  simp [decodeLea, widthCode_ne_zero w hw, decodeAddr_encodeAddr a tail ha]

theorem decodeCond_encodeVal {c : Byte} (hc : hiNibble c = 0#4) (w : Width) (t : Operand) (tail : List Byte)
    (h : valWf w t = true) : decodeCond (c :: encodeVal w t ++ tail) = .ok (jccOf (loNibble c) w t) tail := by
  simp [decodeCond, hc, decodeVal_encodeVal _ w t tail h]

theorem decodeFi_cons (i : StIndex) (tail : List Byte) : decodeFi ((0#5 ++ i : BitVec 8) :: tail) = .ok (.ffree i) tail := by
  have hfields : ∀ i : BitVec 3, (0#5 ++ i : BitVec 8).extractLsb' 3 5 = 0#5 ∧ (0#5 ++ i : BitVec 8).extractLsb' 0 3 = i := by
    decide
  obtain ⟨hreserved, hindex⟩ := hfields i
  simp [decodeFi, hreserved, hindex]

/-- Settles O1: the opcode selects the parser, and the parser of each format gives back its operands. -/
theorem decodeAfterEncodeIsIdentity : Obligations.DecodeAfterEncodeIsIdentity := by
  intro i tail h
  cases i with
  | nop | hlt | syscall | pushf | popf | ret | fincstp | fdecstp | finit => exact decode_cons rfl tail
  | mov w f | add w f | sub w f | cmp w f | and w f | or w f | xor w f | test w f =>
    exact (decode_cons rfl _).trans (decodeBin_encodeBin _ w f tail h)
  | inc w d | dec w d | neg w d | not w d => exact (decode_cons rfl _).trans (decodeUn_encodeUn _ w d tail h)
  | lea w r a =>
    obtain ⟨hw, ha⟩ := (Bool.and_eq_true _ _).mp h
    exact (decode_cons rfl _).trans (decodeLea_encodeAddr w r a tail hw ha)
  | pop w d =>
    obtain ⟨hw, hd⟩ := (Bool.and_eq_true _ _).mp h
    exact (decode_cons rfl _).trans (decodePop_encodeUn w d tail hw hd)
  | push w t | jmp w t | call w t => exact (decode_cons rfl _).trans (decodeVal_encodeVal _ w t tail h)
  | jo w t | jno w t | jb w t | jae w t | je w t | jne w t | jbe w t | ja w t
  | js w t | jns w t | jp w t | jnp w t | jl w t | jge w t | jle w t | jg w t =>
    exact (decode_cons rfl _).trans (decodeCond_encodeVal (by decide) w t tail h)
  | loop w t | loope w t | loopne w t => exact (decode_cons rfl _).trans (decodeVal_encodeVal _ w t tail h)
  | fld f | fst f | fstp f => exact (decode_cons rfl _).trans (decodeFrm_encodeFrm _ f tail h)
  | ffree i => exact (decode_cons rfl _).trans (decodeFi_cons i tail)

end Sys2Proof
end

section
/-! PROOFS. O2: what each operand parser reads is the encoding of what it answers, and OPCODE_MAP read once, by format. -/

namespace Sys2Proof

/-! ### What a parser that answers has read -/

theorem andThen_eq_ok {α β : Type} {p : Parsed α} {k : α → Parser β} {v : β} {rest : List Byte} :
    p.andThen k = .ok v rest ↔ ∃ a mid, p = .ok a mid ∧ k a mid = .ok v rest := by
  cases p <;> simp

theorem fetchByte_eq_ok {bs rest : List Byte} {b : Byte} : fetchByte bs = .ok b rest ↔ bs = b :: rest := by
  cases bs <;> simp

/-- A check that passes goes on. -/
theorem ite_bad_eq_ok {α : Type} {c : Prop} [Decidable c] {why : DecodeFault} {bs rest : List Byte} {p : Parsed α} {v : α} :
    (if c then .bad why bs else p) = .ok v rest ↔ ¬ c ∧ p = .ok v rest := by
  by_cases h : c <;> simp [h]

/-- A fetched number fits its bytes, and they are its little-endian bytes. -/
theorem fetch_eq_ok {n v : Nat} {bs rest : List Byte} (h : fetch n bs = .ok v rest) :
    v < 2 ^ (8 * n) ∧ bs = leBytes n v ++ rest := by
  simp only [fetch, ite_bad_eq_ok, Parsed.ok.injEq] at h
  obtain ⟨hlen, rfl, rfl⟩ := h
  have htake : (bs.take n).length = n := List.length_take_of_le (by omega)
  have hlt := leNat_lt (bs.take n)
  have hbytes := leBytes_leNat (bs.take n)
  rw [htake] at hlt hbytes
  exact ⟨hlt, by rw [hbytes, List.take_append_drop]⟩

/-- A fetched number, held in a word. -/
theorem fetch_word_eq_ok {n v : Nat} {bs rest : List Byte} (hn : n ≤ 8) (h : fetch n bs = .ok v rest) :
    (BitVec.ofNat 64 v).toNat < 2 ^ (8 * n) ∧ bs = leBytes n (BitVec.ofNat 64 v).toNat ++ rest := by
  obtain ⟨hlt, hbs⟩ := fetch_eq_ok h
  have hword : (BitVec.ofNat 64 v).toNat = v :=
    Nat.mod_eq_of_lt (Nat.lt_of_lt_of_le hlt (Nat.pow_le_pow_right (by omega) (by omega)))
  rw [hword]
  exact ⟨hlt, hbs⟩

theorem decodeImm_eq_ok {bs rest : List Byte} {v : Imm} (h : decodeImm bs = .ok v rest) :
    v.wf = true ∧ bs = encodeImm v ++ rest := by
  have hbyte : ∀ p : Byte, p.extractLsb' 2 5 = 0#5 → (BitVec.ofBool (p.getLsbD 7) ++ 0#5 ++ p.extractLsb' 0 2 : BitVec 8) = p := by
    decide
  simp only [decodeImm, andThen_eq_ok, fetchByte_eq_ok, ite_bad_eq_ok, not_not, Parsed.ok.injEq] at h
  obtain ⟨p, mid, rfl, hp, body, rest, hbody, rfl, rfl⟩ := h
  obtain ⟨hlt, rfl⟩ := fetch_word_eq_ok (Width.bytes_le _) hbody
  exact ⟨decide_eq_true hlt, by simp only [encodeImm, widthCode_widthOf, hbyte p hp, List.cons_append]⟩

/-- The register byte of an address operand, where it has one (30_encoding.md R107). -/
def encodeRegs (base index : Option Reg) : List Byte :=
  if base.isSome || index.isSome then [nibbles ((base.map regCode).getD 0#4) ((index.map regCode).getD 0#4)] else []

/-- The first byte of an address operand (30_encoding.md R106). -/
def addrByte (d : Bool) (scale size : BitVec 2) (b x : Bool) : Byte :=
  BitVec.ofBool d ++ 0#1 ++ scale ++ size ++ BitVec.ofBool b ++ BitVec.ofBool x

theorem encodeAddr_eq (a : Addr) :
    encodeAddr a = addrByte a.disp.isSome a.scale (addrSizeCode a.size) a.base.isSome a.index.isSome ::
      (encodeRegs a.base a.index ++ encodeDisp a.size a.disp) := rfl

/-- A byte whose reserved bit is clear is put together again from its fields. -/
theorem addrByte_fields (a : Byte) (h : a.getLsbD 6 = false) :
    addrByte (a.getLsbD 7) (a.extractLsb' 4 2) (a.extractLsb' 2 2) (a.getLsbD 1) (a.getLsbD 0) = a := by
  revert a; decide

theorem decodeDisp_eq_ok {d : Bool} {size : AddrSize} {bs rest : List Byte} {disp : Option Word}
    (h : decodeDisp d size bs = .ok disp rest) :
    disp.isSome = d ∧ (∀ v, disp = some v → v.toNat < 2 ^ (8 * size.bytes)) ∧ bs = encodeDisp size disp ++ rest := by
  cases d with
  | false => cases h; simp [encodeDisp]
  | true =>
    simp only [decodeDisp, if_true, andThen_eq_ok, Parsed.ok.injEq] at h
    obtain ⟨v, rest, hv, rfl, rfl⟩ := h
    obtain ⟨hlt, hbs⟩ := fetch_word_eq_ok (AddrSize.bytes_le _) hv
    exact ⟨rfl, by rintro _ ⟨⟩; exact hlt, hbs⟩

/-- A nibble is the number of the register it selects, or 0 where none is read (30_encoding.md R107, R109). -/
theorem regCode_of_nibble {present : Bool} {n : BitVec 4} (h : present = false → n = 0#4) :
    ((if present then some (regOf n) else none).map regCode).getD 0#4 = n := by
  cases present with
  | false => exact (h rfl).symm
  | true => rfl

theorem decodeRegs_eq_ok {b x : Bool} {bs rest : List Byte} {regs : Option Reg × Option Reg}
    (h : decodeRegs b x bs = .ok regs rest) :
    regs.1.isSome = b ∧ regs.2.isSome = x ∧ bs = encodeRegs regs.1 regs.2 ++ rest := by
  cases hbx : b || x with
  | false =>
    obtain ⟨rfl, rfl⟩ := Bool.or_eq_false_iff.mp hbx
    cases h
    exact ⟨rfl, rfl, rfl⟩
  | true =>
    simp only [decodeRegs, hbx, if_true, andThen_eq_ok, fetchByte_eq_ok, ite_bad_eq_ok, Parsed.ok.injEq] at h
    obtain ⟨rr, mid, rfl, hb, hx, rfl, rfl⟩ := h
    have hbase := regCode_of_nibble (present := b) (n := hiNibble rr) (by rintro rfl; simpa using hb)
    have hindex := regCode_of_nibble (present := x) (n := loNibble rr) (by rintro rfl; simpa using hx)
    have hb : (if b then some (regOf (hiNibble rr)) else none).isSome = b := by cases b <;> rfl
    have hx : (if x then some (regOf (loNibble rr)) else none).isSome = x := by cases x <;> rfl
    refine ⟨hb, hx, ?_⟩
    simp only [encodeRegs, hb, hx, hbx, if_true, hbase, hindex, nibbles_fields, List.singleton_append]

theorem decodeAddr_eq_ok {bs rest : List Byte} {a : Addr} (h : decodeAddr bs = .ok a rest) :
    a.wf = true ∧ bs = encodeAddr a ++ rest := by
  simp only [decodeAddr, andThen_eq_ok, fetchByte_eq_ok, ite_bad_eq_ok] at h
  obtain ⟨A, mid, rfl, hreserved, h⟩ := h
  cases hsize : addrSizeOf (A.extractLsb' 2 2) with
  | none => simp [hsize] at h
  | some size =>
    simp only [hsize, andThen_eq_ok, Parsed.ok.injEq] at h
    obtain ⟨⟨base, index⟩, mid, hregs, disp, rest, hdisp, rfl, rfl⟩ := h
    obtain ⟨hb, hx, rfl⟩ := decodeRegs_eq_ok hregs
    obtain ⟨hd, hlt, rfl⟩ := decodeDisp_eq_ok hdisp
    refine ⟨?_, ?_⟩
    · cases disp with
      | none => rfl
      | some v => simpa [Addr.wf] using hlt v rfl
    · have hA := addrByte_fields A (by simpa using hreserved)
      rw [encodeAddr_eq]
      simp only [hd, hb, hx, addrSizeCode_of_some _ _ hsize, hA, List.cons_append, List.append_assoc]

/-! ### The operand formats -/

theorem settings_surjective (s : Byte) : ∃ r sz m, s = settings r sz m := ⟨_, _, _, (settings_fields s).symm⟩

theorem twoBits_cases (m : BitVec 2) : m = 0#2 ∨ m = 1#2 ∨ m = 2#2 ∨ m = 3#2 := by revert m; decide

theorem notByte_widthOf {sz : BitVec 2} (h : sz ≠ 0#2) : (widthOf sz).notByte = true := by revert sz; decide

theorem decodeBin_eq_ok {mk : Width → BinForm → Instr} {bs rest : List Byte} {i : Instr}
    (h : decodeBin mk bs = .ok i rest) : ∃ w f, i = mk w f ∧ f.wf = true ∧ bs = encodeBin w f ++ rest := by
  simp only [decodeBin, andThen_eq_ok, fetchByte_eq_ok] at h
  obtain ⟨s, mid, rfl, h⟩ := h
  obtain ⟨r, sz, m, rfl⟩ := settings_surjective s
  simp only [hiNibble_settings, sizeField_settings, modeField_settings] at h
  obtain rfl | rfl | rfl | rfl := twoBits_cases m
  · simp only [if_true, andThen_eq_ok, fetchByte_eq_ok, ite_bad_eq_ok, not_not, Parsed.ok.injEq] at h
    obtain ⟨r2, mid, rfl, hr2, rfl, rfl⟩ := h
    have hbyte : nibbles 0#4 (loNibble r2) = r2 := by rw [← hr2, nibbles_fields]
    exact ⟨_, _, rfl, rfl, by simp [encodeBin, hbyte]⟩
  · simp only [BitVec.reduceEq, if_false, if_true, andThen_eq_ok, Parsed.ok.injEq] at h
    obtain ⟨v, mid, hv, rfl, rfl⟩ := h
    obtain ⟨hwf, rfl⟩ := decodeImm_eq_ok hv
    exact ⟨_, _, rfl, hwf, by simp [encodeBin]⟩
  · simp only [BitVec.reduceEq, if_false, if_true, andThen_eq_ok, Parsed.ok.injEq] at h
    obtain ⟨a, mid, ha, rfl, rfl⟩ := h
    obtain ⟨hwf, rfl⟩ := decodeAddr_eq_ok ha
    exact ⟨_, _, rfl, hwf, by simp [encodeBin]⟩
  · simp only [BitVec.reduceEq, if_false, andThen_eq_ok, Parsed.ok.injEq] at h
    obtain ⟨a, mid, ha, rfl, rfl⟩ := h
    obtain ⟨hwf, rfl⟩ := decodeAddr_eq_ok ha
    exact ⟨_, _, rfl, hwf, by simp [encodeBin]⟩

theorem decodeUnTail_eq_ok {s : Byte} {mk : Width → RegMem → Instr} {bs rest : List Byte} {i : Instr}
    (h : decodeUnTail s mk bs = .ok i rest) :
    ∃ d, i = mk (widthOf (sizeField s)) d ∧ d.wf = true ∧ s :: bs = encodeUn (widthOf (sizeField s)) d ++ rest := by
  obtain ⟨r, sz, m, rfl⟩ := settings_surjective s
  simp only [decodeUnTail, hiNibble_settings, sizeField_settings, modeField_settings] at h ⊢
  obtain rfl | rfl | rfl | rfl := twoBits_cases m
  · cases h
    exact ⟨_, rfl, rfl, by simp [encodeUn]⟩
  · simp only [BitVec.reduceEq, if_false, if_true, ite_bad_eq_ok, not_not, andThen_eq_ok, Parsed.ok.injEq] at h
    obtain ⟨rfl, a, mid, ha, rfl, rfl⟩ := h
    obtain ⟨hwf, rfl⟩ := decodeAddr_eq_ok ha
    exact ⟨_, rfl, hwf, by simp [encodeUn]⟩
  · simp at h
  · simp at h

theorem decodeUn_eq_ok {mk : Width → RegMem → Instr} {bs rest : List Byte} {i : Instr}
    (h : decodeUn mk bs = .ok i rest) : ∃ w d, i = mk w d ∧ d.wf = true ∧ bs = encodeUn w d ++ rest := by
  simp only [decodeUn, andThen_eq_ok, fetchByte_eq_ok] at h
  obtain ⟨s, mid, rfl, h⟩ := h
  exact ⟨_, decodeUnTail_eq_ok h⟩

theorem decodePop_eq_ok {bs rest : List Byte} {i : Instr} (h : decodePop bs = .ok i rest) :
    ∃ w d, i = .pop w d ∧ (Instr.pop w d).wf = true ∧ bs = encodeUn w d ++ rest := by
  simp only [decodePop, andThen_eq_ok, fetchByte_eq_ok, ite_bad_eq_ok] at h
  obtain ⟨s, mid, rfl, hsz, h⟩ := h
  obtain ⟨d, hi, hwf, hbs⟩ := decodeUnTail_eq_ok h
  exact ⟨_, d, hi, by simp [Instr.wf, notByte_widthOf hsz, hwf], hbs⟩

theorem decodeVal_eq_ok {mk : Width → Operand → Instr} {bs rest : List Byte} {i : Instr}
    (h : decodeVal mk bs = .ok i rest) : ∃ w t, i = mk w t ∧ valWf w t = true ∧ bs = encodeVal w t ++ rest := by
  simp only [decodeVal, andThen_eq_ok, fetchByte_eq_ok, ite_bad_eq_ok] at h
  obtain ⟨s, mid, rfl, hsz, h⟩ := h
  obtain ⟨r, sz, m, rfl⟩ := settings_surjective s
  simp only [hiNibble_settings, sizeField_settings, modeField_settings] at h hsz
  have hvalWf {t : Operand} (ht : t.wf = true) : valWf (widthOf sz) t = true := by
    simp [valWf, notByte_widthOf hsz, ht]
  obtain rfl | rfl | rfl | rfl := twoBits_cases m
  · cases h
    exact ⟨_, _, rfl, hvalWf rfl, by simp [encodeVal]⟩
  · simp only [BitVec.reduceEq, if_false, if_true, ite_bad_eq_ok, not_not, andThen_eq_ok, Parsed.ok.injEq] at h
    obtain ⟨rfl, v, mid, hv, rfl, rfl⟩ := h
    obtain ⟨hwf, rfl⟩ := decodeImm_eq_ok hv
    exact ⟨_, _, rfl, hvalWf hwf, by simp [encodeVal]⟩
  · simp only [BitVec.reduceEq, if_false, if_true, ite_bad_eq_ok, not_not, andThen_eq_ok, Parsed.ok.injEq] at h
    obtain ⟨rfl, a, mid, ha, rfl, rfl⟩ := h
    obtain ⟨hwf, rfl⟩ := decodeAddr_eq_ok ha
    exact ⟨_, _, rfl, hvalWf hwf, by simp [encodeVal]⟩
  · simp at h

theorem decodeLea_eq_ok {bs rest : List Byte} {i : Instr} (h : decodeLea bs = .ok i rest) :
    i.wf = true ∧ 0x06 :: bs = encode i ++ rest := by
  simp only [decodeLea, andThen_eq_ok, fetchByte_eq_ok, ite_bad_eq_ok, not_or, not_not] at h
  obtain ⟨s, mid, rfl, ⟨hsz, hm⟩, a, mid, ha, h⟩ := h
  obtain ⟨hwf, rfl⟩ := decodeAddr_eq_ok ha
  cases h
  have hs : settings (hiNibble s) (sizeField s) 0#2 = s := by rw [← hm, settings_fields]
  exact ⟨by simp [Instr.wf, notByte_widthOf hsz, hwf], by simp [encode, hs]⟩

/-- The Jcc of a condition number takes a value operand and has the number in its condition byte (30_encoding.md R120). -/
theorem jccOf_encoding (cc : BitVec 4) (w : Width) (t : Operand) :
    (jccOf cc w t).wf = valWf w t ∧ encode (jccOf cc w t) = 0x0A :: nibbles 0#4 cc :: encodeVal w t := by
  obtain ⟨n⟩ := cc
  fin_cases n <;> exact ⟨rfl, rfl⟩

theorem decodeCond_eq_ok {bs rest : List Byte} {i : Instr} (h : decodeCond bs = .ok i rest) :
    i.wf = true ∧ 0x0A :: bs = encode i ++ rest := by
  simp only [decodeCond, andThen_eq_ok, fetchByte_eq_ok, ite_bad_eq_ok, not_not] at h
  obtain ⟨c, mid, rfl, hc, h⟩ := h
  obtain ⟨w, t, rfl, hwf, rfl⟩ := decodeVal_eq_ok h
  have hbyte : nibbles 0#4 (loNibble c) = c := by rw [← hc, nibbles_fields]
  obtain ⟨hjcc, henc⟩ := jccOf_encoding (loNibble c) w t
  exact ⟨hjcc.trans hwf, by rw [henc, hbyte]; rfl⟩

theorem decodeLoop_eq_ok {bs rest : List Byte} {i : Instr} (h : decodeLoop bs = .ok i rest) :
    i.wf = true ∧ 0x0B :: bs = encode i ++ rest := by
  have hfields : ∀ k : Byte, k.extractLsb' 2 6 = 0#6 → (0#6 ++ k.extractLsb' 0 2 : BitVec 8) = k := by decide
  simp only [decodeLoop, andThen_eq_ok, fetchByte_eq_ok, ite_bad_eq_ok, not_not] at h
  obtain ⟨k, mid, rfl, hk, h⟩ := h
  have hbyte := hfields k hk
  generalize k.extractLsb' 0 2 = kind at h hbyte
  subst hbyte
  obtain rfl | rfl | rfl | rfl := twoBits_cases kind
  · obtain ⟨w, t, rfl, hwf, rfl⟩ := decodeVal_eq_ok h
    exact ⟨hwf, rfl⟩
  · obtain ⟨w, t, rfl, hwf, rfl⟩ := decodeVal_eq_ok h
    exact ⟨hwf, rfl⟩
  · obtain ⟨w, t, rfl, hwf, rfl⟩ := decodeVal_eq_ok h
    exact ⟨hwf, rfl⟩
  · simp at h

theorem decodeFrm_eq_ok {mk : FpuForm → Instr} {bs rest : List Byte} {i : Instr}
    (h : decodeFrm mk bs = .ok i rest) : ∃ f, i = mk f ∧ f.wf = true ∧ bs = encodeFrm f ++ rest := by
  have hst : ∀ f : Byte, hiNibble f = 0#4 → f.getLsbD 3 = false → (0#5 ++ f.extractLsb' 0 3 : BitVec 8) = f := by decide
  have hmem : ∀ f : Byte, hiNibble f = 0#4 → f.getLsbD 3 = true → f.extractLsb' 0 3 = 0#3 → f = 0x08#8 := by decide
  simp only [decodeFrm, andThen_eq_ok, fetchByte_eq_ok, ite_bad_eq_ok, not_not] at h
  obtain ⟨f, mid, rfl, hf, h⟩ := h
  cases hmode : f.getLsbD 3 with
  | false =>
    simp only [hmode] at h
    cases h
    exact ⟨_, rfl, rfl, by simp [encodeFrm, hst f hf hmode]⟩
  | true =>
    simp only [hmode, if_true, ite_bad_eq_ok, not_not, andThen_eq_ok, Parsed.ok.injEq] at h
    obtain ⟨hidx, a, mid, ha, rfl, rfl⟩ := h
    obtain ⟨hwf, rfl⟩ := decodeAddr_eq_ok ha
    exact ⟨_, rfl, hwf, by simp [encodeFrm, hmem f hf hmode hidx]⟩

theorem decodeFi_eq_ok {bs rest : List Byte} {i : Instr} (h : decodeFi bs = .ok i rest) :
    i.wf = true ∧ 0x23 :: bs = encode i ++ rest := by
  have hfields : ∀ f : Byte, f.extractLsb' 3 5 = 0#5 → (0#5 ++ f.extractLsb' 0 3 : BitVec 8) = f := by decide
  simp only [decodeFi, andThen_eq_ok, fetchByte_eq_ok, ite_bad_eq_ok, not_not, Parsed.ok.injEq] at h
  obtain ⟨f, mid, rfl, hf, rfl, rfl⟩ := h
  exact ⟨rfl, by simp [encode, hfields f hf]⟩

/-! ### OPCODE_MAP by format -/

/-- The operand parser of an opcode, by its format (30_encoding.md R130), with what the encoder writes for the opcode. -/
inductive OpcodeRow : Byte → Parser Instr → Prop
  | none {op : Byte} (i : Instr) (hwf : i.wf = true) (henc : encode i = [op]) : OpcodeRow op (decodeNone i)
  | bin {op : Byte} (mk : Width → BinForm → Instr) (hwf : ∀ w f, (mk w f).wf = f.wf)
      (henc : ∀ w f, encode (mk w f) = op :: encodeBin w f) : OpcodeRow op (decodeBin mk)
  | un {op : Byte} (mk : Width → RegMem → Instr) (hwf : ∀ w d, (mk w d).wf = d.wf)
      (henc : ∀ w d, encode (mk w d) = op :: encodeUn w d) : OpcodeRow op (decodeUn mk)
  | val {op : Byte} (mk : Width → Operand → Instr) (hwf : ∀ w t, (mk w t).wf = valWf w t)
      (henc : ∀ w t, encode (mk w t) = op :: encodeVal w t) : OpcodeRow op (decodeVal mk)
  | frm {op : Byte} (mk : FpuForm → Instr) (hwf : ∀ f, (mk f).wf = f.wf)
      (henc : ∀ f, encode (mk f) = op :: encodeFrm f) : OpcodeRow op (decodeFrm mk)
  | lea : OpcodeRow 0x06 decodeLea
  | pop : OpcodeRow 0x08 decodePop
  | cond : OpcodeRow 0x0A decodeCond
  | loop : OpcodeRow 0x0B decodeLoop
  | fi : OpcodeRow 0x23 decodeFi

theorem opcodeRow_of_operandsOf {op : Byte} {p : Parser Instr} (h : operandsOf op = some p) : OpcodeRow op p := by
  obtain ⟨⟨n, hn⟩⟩ := op
  simp only [operandsOf, BitVec.toNat_ofFin] at h
  split at h <;> cases h
  case h_7 => exact .lea
  case h_9 => exact .pop
  case h_11 => exact .cond
  case h_12 => exact .loop
  case h_29 => exact .fi
  case h_1 | h_2 | h_3 | h_4 | h_5 | h_14 | h_30 | h_31 | h_32 => exact .none _ rfl rfl
  case h_6 | h_15 | h_16 | h_17 | h_18 | h_19 | h_20 | h_21 => exact .bin _ (fun _ _ => rfl) fun _ _ => rfl
  case h_22 | h_23 | h_24 | h_25 => exact .un _ (fun _ _ => rfl) fun _ _ => rfl
  case h_8 | h_10 | h_13 => exact .val _ (fun _ _ => rfl) fun _ _ => rfl
  case h_26 | h_27 | h_28 => exact .frm _ (fun _ => rfl) fun _ => rfl

theorem OpcodeRow.eq_ok {op : Byte} {p : Parser Instr} (hrow : OpcodeRow op p) {bs rest : List Byte} {i : Instr}
    (h : p bs = .ok i rest) : i.wf = true ∧ op :: bs = encode i ++ rest := by
  cases hrow with
  | none i hwf henc => cases h; exact ⟨hwf, by rw [henc]; rfl⟩
  | bin mk hwf henc =>
    obtain ⟨w, f, rfl, hf, rfl⟩ := decodeBin_eq_ok h
    exact ⟨(hwf w f).trans hf, by rw [henc]; rfl⟩
  | un mk hwf henc =>
    obtain ⟨w, d, rfl, hd, rfl⟩ := decodeUn_eq_ok h
    exact ⟨(hwf w d).trans hd, by rw [henc]; rfl⟩
  | val mk hwf henc =>
    obtain ⟨w, t, rfl, ht, rfl⟩ := decodeVal_eq_ok h
    exact ⟨(hwf w t).trans ht, by rw [henc]; rfl⟩
  | frm mk hwf henc =>
    obtain ⟨f, rfl, hf, rfl⟩ := decodeFrm_eq_ok h
    exact ⟨(hwf f).trans hf, by rw [henc]; rfl⟩
  | lea => exact decodeLea_eq_ok h
  | pop =>
    obtain ⟨w, d, rfl, hwf, rfl⟩ := decodePop_eq_ok h
    exact ⟨hwf, rfl⟩
  | cond => exact decodeCond_eq_ok h
  | loop => exact decodeLoop_eq_ok h
  | fi => exact decodeFi_eq_ok h

/-- An answer of the decoder is the answer of the opcode's operand parser. -/
theorem decode_eq_ok {bs rest : List Byte} {i : Instr} (h : decode bs = .ok i rest) :
    ∃ op mid p, bs = op :: mid ∧ operandsOf op = some p ∧ p mid = .ok i rest := by
  simp only [decode, andThen_eq_ok, fetchByte_eq_ok] at h
  obtain ⟨op, mid, rfl, h⟩ := h
  cases hp : operandsOf op with
  | none => simp [hp] at h
  | some p => exact ⟨op, mid, p, rfl, hp, by simpa only [hp] using h⟩

/-- Settles O2: the opcode's row names a format, and each format's parser reads what its encoder writes. -/
theorem decodedBytesAreTheEncoding : Obligations.DecodedBytesAreTheEncoding := by
  intro bs i rest h
  obtain ⟨op, mid, p, rfl, hp, hi⟩ := decode_eq_ok h
  exact (opcodeRow_of_operandsOf hp).eq_ok hi

end Sys2Proof
end

section
/-! PROOFS. O3, O4 and O5: how many bytes an instruction takes and which bytes decide its decoding (30_encoding.md R129), and
the words the spec writes out. -/

namespace Sys2Proof

theorem OpcodeRow.readsAtMost {op : Byte} {p : Parser Instr} (hrow : OpcodeRow op p) : ReadsAtMost 12 p := by
  cases hrow with
  | none i => exact (readsAtMost_ok i).mono (by omega)
  | bin mk => exact (readsAtMost_decodeBin mk).mono (by omega)
  | un mk => exact (readsAtMost_decodeUn mk).mono (by omega)
  | val mk => exact (readsAtMost_decodeVal mk).mono (by omega)
  | frm mk => exact (readsAtMost_decodeFrm mk).mono (by omega)
  | lea => exact readsAtMost_decodeLea.mono (by omega)
  | pop => exact readsAtMost_decodePop.mono (by omega)
  | cond => exact readsAtMost_decodeCond
  | loop => exact readsAtMost_decodeLoop
  | fi => exact readsAtMost_decodeFi.mono (by omega)

/-- The opcode byte and at most 12 operand bytes (30_encoding.md R129). -/
theorem readsAtMost_decode : ReadsAtMost 13 decode := by
  refine readsAtMost_fetchByte.andThen (l := 12) fun op => ?_
  cases hp : operandsOf op with
  | none => exact (readsAtMost_bad _).mono (by omega)
  | some p => exact (opcodeRow_of_operandsOf hp).readsAtMost

/-- What a bounded parser leaves is the input without the bytes it fetched, whether it answers or fails, and so it is over
the first `m` bytes. -/
theorem ReadsAtMost.ok {α : Type} {k m : Nat} {p : Parser α} (hp : ReadsAtMost k p) (hm : k ≤ m) {bs rest : List Byte}
    {v : α} (h : p bs = .ok v rest) :
    bs.length - rest.length ≤ k ∧ p (bs.take m) = .ok v (rest.take (m - (bs.length - rest.length))) := by
  obtain ⟨c, hck, hcl, ⟨v', e, e'⟩ | ⟨why, e, _⟩⟩ := hp bs m hm
  · obtain ⟨rfl, rfl⟩ := Parsed.ok.inj (e.symm.trans h)
    have hfetched : bs.length - (bs.drop c).length = c := by rw [List.length_drop]; omega
    rw [hfetched]
    exact ⟨hck, e'⟩
  · cases e.symm.trans h

theorem ReadsAtMost.bad {α : Type} {k m : Nat} {p : Parser α} (hp : ReadsAtMost k p) (hm : k ≤ m) {bs rest : List Byte}
    {why : DecodeFault} (h : p bs = .bad why rest) :
    p (bs.take m) = .bad why (rest.take (m - (bs.length - rest.length))) := by
  obtain ⟨c, _, hcl, ⟨v, e, _⟩ | ⟨why', e, e'⟩⟩ := hp bs m hm
  · cases e.symm.trans h
  · obtain ⟨rfl, rfl⟩ := Parsed.bad.inj (e.symm.trans h)
    have hfetched : bs.length - (bs.drop c).length = c := by rw [List.length_drop]; omega
    rw [hfetched]
    exact e'

theorem encode_ne_nil (i : Instr) : encode i ≠ [] := by
  cases i <;> exact List.cons_ne_nil _ _

/-- A 64-bit address with base, index and displacement takes 10 bytes, and so a value operand of it 11. -/
theorem encodeVal_mem_length_full (w : Width) (k : BitVec 2) (b x : Reg) (d : Word) :
    (encodeVal w (.mem ⟨.a64, k, some b, some x, some d⟩)).length = 11 := by
  simp [encodeVal, encodeAddr, encodeDisp]

theorem encode_jcc_length (c : Cond) (w : Width) (t : Operand) :
    (encode (Machine.jcc c w t)).length = (encodeVal w t).length + 2 := by
  cases c <;> rfl

/-- Settles O4: the decoder is a parser of at most 13 bytes. -/
theorem thirteenBytesDecideTheDecoding : Obligations.ThirteenBytesDecideTheDecoding := fun _ =>
  ⟨fun _ _ h => (readsAtMost_decode.ok (Nat.le_refl 13) h).2, fun _ _ h => readsAtMost_decode.bad (Nat.le_refl 13) h⟩

/-- Settles O3: the bytes read are an encoding, which is not empty, and the decoder reads at most 13. -/
theorem instructionsHaveOneToThirteenBytes : Obligations.InstructionsHaveOneToThirteenBytes := by
  refine ⟨fun bs i rest h => ⟨?_, (readsAtMost_decode.ok (Nat.le_refl 13) h).1⟩, by decide, fun w k b x d => ?_⟩
  · obtain ⟨_, rfl⟩ := decodedBytesAreTheEncoding bs i rest h
    have hpos := List.length_pos_of_ne_nil (encode_ne_nil i)
    rw [List.length_append]
    omega
  · have hval := encodeVal_mem_length_full w k b x d
    exact ⟨fun c => by rw [encode_jcc_length, hval], congrArg (· + 2) hval, congrArg (· + 2) hval, congrArg (· + 2) hval⟩

/-- Settles O5: closed words, decoded by evaluation. -/
theorem specExampleWordsDecode : Obligations.SpecExampleWordsDecode := by
  unfold Obligations.SpecExampleWordsDecode
  decide

end Sys2Proof
end

section
/-! PROOFS. O6: the fields of a compact immediate in numbers (30_encoding.md R103, R104). -/

namespace Sys2Proof

/-- The fields of the first byte of a compact immediate in numbers (30_encoding.md R103). -/
theorem immByte_fields (p : Byte) :
    (p.extractLsb' 2 5 = 0#5 ↔ p.toNat / 4 % 32 = 0) ∧ (widthOf (p.extractLsb' 0 2)).bytes = 2 ^ (p.toNat % 4) ∧
      (p.getLsbD 7 = true ↔ 128 ≤ p.toNat) := by
  revert p; decide

/-- Up to 8 bytes fit a word. -/
theorem leNat_take_fits {n : Nat} (hn : n ≤ 8) (bs : List Byte) : leNat (bs.take n) < 2 ^ 64 :=
  have hlen : (bs.take n).length ≤ n := List.length_take_le n bs
  Nat.lt_of_lt_of_le (leNat_lt _) (Nat.pow_le_pow_right (by decide) (by omega))

/-- The value of an immediate in numbers: the high-bit mask is OR-ed in where the flag is set, the body is narrower than 64
bits and its top bit is 1 (30_encoding.md R104). -/
theorem immValue_toNat (i : Imm) :
    (immValue i).toNat =
      if i.sx = true ∧ i.size.bytes < 8 ∧ i.body.toNat / 2 ^ (i.size.bits - 1) % 2 = 1 then
        i.body.toNat ||| (2 ^ 64 - 2 ^ i.size.bits)
      else i.body.toNat := by
  have hmask : (2 ^ 64 - 2 ^ i.size.bits) % 2 ^ 64 = 2 ^ 64 - 2 ^ i.size.bits :=
    Nat.mod_eq_of_lt (Nat.sub_lt (by decide) (Nat.two_pow_pos _))
  simp only [immValue, BitVec.getLsbD, Nat.testBit_eq_decide_div_mod_eq, Bool.and_eq_true, decide_eq_true_eq, and_assoc]
  split
  · rw [BitVec.toNat_or, BitVec.toNat_ofNat, hmask]
  · rfl

/-- `decodeImm` after its first byte: the reserved bits, the body, then the immediate of the fields and the body. -/
theorem decodeImm_cons (p : Byte) (bs : List Byte) :
    decodeImm (p :: bs) =
      if p.extractLsb' 2 5 ≠ 0#5 then .bad .immReserved bs else
      if bs.length < (widthOf (p.extractLsb' 0 2)).bytes then .bad .truncated bs else
      .ok ⟨p.getLsbD 7, widthOf (p.extractLsb' 0 2), BitVec.ofNat 64 (leNat (bs.take (widthOf (p.extractLsb' 0 2)).bytes))⟩
        (bs.drop (widthOf (p.extractLsb' 0 2)).bytes) := by
  simp only [decodeImm, fetchByte_cons, andThen_ok, fetch]
  split
  · rfl
  · split <;> rfl

/-- Settles O6: the three outcomes of `decodeImm_cons`, and the value of the decoded immediate in numbers. -/
theorem compactImmediateDecodesAndExtends : Obligations.CompactImmediateDecodesAndExtends := by
  refine ⟨rfl, rfl, rfl, ?_⟩
  intro p bs
  dsimp only
  obtain ⟨hreserved, hbytes, hsx⟩ := immByte_fields p
  rw [← hbytes, decodeImm_cons]
  refine ⟨fun h => if_pos (mt hreserved.mp h), fun h hlen => ?_, fun h hlen => ?_⟩
  · rw [if_neg (not_not.mpr (hreserved.mpr h)), if_pos hlen]
  · rw [if_neg (not_not.mpr (hreserved.mpr h)), if_neg (Nat.not_lt.mpr hlen)]
    have hfits := leNat_take_fits (widthOf (p.extractLsb' 0 2)).bytes_le bs
    refine ⟨_, rfl, ?_⟩
    simp only [immValue_toNat, hsx, BitVec.toNat_ofNat, Nat.mod_eq_of_lt hfits]

end Sys2Proof
end

section
/-! PROOFS. O7: the effective address as a sum of bit vectors (30_encoding.md R110, R111). -/

namespace Sys2Proof.Machine

/-- A sum wrapped at `m` bits and zero-extended is a bit vector of width `m`, zero-extended. -/
theorem ofNat_mod_eq_setWidth (m n v : Nat) : BitVec.ofNat n (v % 2 ^ m) = (BitVec.ofNat m v).setWidth n := by
  apply BitVec.eq_of_toNat_eq
  simp only [BitVec.toNat_setWidth, BitVec.toNat_ofNat]

/-- A base register read at an address width of `n` bytes and shifted by its scale. -/
theorem ofNat_addrReg_mul (s : State) (i : Reg) (n k : Nat) :
    BitVec.ofNat (8 * n) (s.addrReg i n * 2 ^ k) = (s.reg i).setWidth (8 * n) <<< k := by
  apply BitVec.eq_of_toNat_eq
  simp only [State.addrReg, BitVec.toNat_ofNat, BitVec.toNat_shiftLeft, BitVec.toNat_setWidth, Nat.shiftLeft_eq]

/-- An index register read at an address width of `n` bytes. -/
theorem ofNat_addrReg (s : State) (i : Reg) (n : Nat) :
    BitVec.ofNat (8 * n) (s.addrReg i n) = (s.reg i).setWidth (8 * n) := by
  simpa using ofNat_addrReg_mul s i n 0

/-- Settles O7: the sum is taken part by part at the address width; the wrapped sum fits 64 bits. -/
theorem effectiveAddressWrapsAtAddressWidth : Obligations.EffectiveAddressWrapsAtAddressWidth := by
  rintro ⟨size, k, base, index, disp⟩ s
  refine ⟨?_, ?_⟩
  · simp only [effAddr, ofNat_mod_eq_setWidth, BitVec.ofNat_add]
    refine congrArg (BitVec.setWidth 64) (congrArg₂ (· + ·) (congrArg₂ (· + ·) ?_ ?_) ?_)
    · cases disp with
      | none => rfl
      | some d => exact BitVec.ofNat_toNat _ d
    · cases base with
      | none => rfl
      | some b => exact ofNat_addrReg_mul s b _ _
    · cases index with
      | none => rfl
      | some x => exact ofNat_addrReg s x _
  · rintro i rfl rfl rfl
    have hfits : ∀ v, v % 2 ^ (8 * size.bytes) < 2 ^ 64 := fun v =>
      Nat.lt_of_lt_of_le (Nat.mod_lt v (Nat.two_pow_pos _))
        (Nat.pow_le_pow_right (by decide) (by have := size.bytes_le; omega))
    simp only [effAddr, State.addrReg, BitVec.toNat_ofNat, Nat.mod_eq_of_lt (hfits _)]
    congr 1
    ring

end Sys2Proof.Machine
end

section
/-! PROOFS. O11: a failed decode terminates the process (30_encoding.md R101, R131, R132; 60_exceptions.md R288). -/

namespace Sys2Proof.Machine

/-- The bytes of OPCODE_MAP that have no row (30_encoding.md R131). -/
theorem operandsOf_eq_none {op : Byte} (h : op.toNat ∈ [0x0E, 0x0F, 0x17, 0x1C, 0x1D, 0x1E, 0x1F] ∨ 0x27 ≤ op.toNat) :
    operandsOf op = none := by
  simp only [List.mem_cons, List.not_mem_nil, or_false] at h
  unfold operandsOf
  split
  case h_33 => rfl
  all_goals omega

/-- Where RIP is inside the buffer, the first byte fetched is the byte at RIP. -/
theorem fetchWindow_eq_cons {s : State} (h : s.rip.toNat < s.len.toNat) :
    ∃ rest, fetchWindow maxInstrBytes s = s.byte s.rip.toNat :: rest := by
  have hne : min maxInstrBytes (s.len.toNat - s.rip.toNat) ≠ 0 := by unfold maxInstrBytes; omega
  obtain ⟨n, hn⟩ := Nat.exists_eq_succ_of_ne_zero hne
  rw [fetchWindow, hn, State.bytes, List.range_succ_eq_map, List.map_cons]
  exact ⟨_, rfl⟩

theorem step_of_decode_bad {s : State} {why : DecodeFault} {rest : List Byte} (hrun : s.running = true)
    (hsus : s.suspendedRead = false) (heb : s.rip.toNat < s.eb.toNat)
    (hbad : decode (fetchWindow maxInstrBytes s) = .bad why rest) :
    step s = .next (terminate (decodeError why) (s.advanceTo rest)) := by
  unfold step tickWith
  rw [if_pos ((ready_iff s).mpr ⟨hrun, hsus⟩), if_pos ((mayFetch_iff s).mpr heb)]
  simp only [decodeAt, hbad]

theorem terminate_advanceTo_stopsWith (e : ErrorCode) {s : State} (rest : List Byte) (h : s.running = true) :
    stopsWith e s (terminate e (s.advanceTo rest)) :=
  terminate_stopsWith_of e s (s.advanceTo rest) h (fun _ => rfl) rfl ⟨rfl, rfl, rfl⟩ (keepsBarriers_refl s) rfl

theorem decodeError_of_ne_truncated {why : DecodeFault} (h : why ≠ .truncated) : decodeError why = .undefinedBehavior := by
  cases why with
  | truncated => contradiction
  | _ => rfl

/-- Settles O11: the step on a failed decode is the termination of the state with RIP past the bytes fetched. -/
theorem undecodableBytesTerminate : Obligations.UndecodableBytesTerminate := by
  refine ⟨fun s op hop hrun hsus heb hlen hbyte => ?_, fun s why rest hrun hsus heb hbad => ?_⟩
  · obtain ⟨rest, hwin⟩ := fetchWindow_eq_cons hlen
    have hbad : decode (fetchWindow maxInstrBytes s) = .bad .unassignedOpcode rest := by
      rw [hwin, hbyte, decode, fetchByte_cons, andThen_ok, operandsOf_eq_none hop]
    have hstop := terminate_advanceTo_stopsWith .undefinedBehavior rest hrun
    refine ⟨_, step_of_decode_bad hrun hsus heb hbad, hstop, fun j => ?_, ?_, ?_⟩
    · rw [terminate_reg, advanceTo_reg]
    · rw [terminate_rip, advanceTo_rip, hwin, List.length_cons, Nat.add_sub_cancel_left]
      rfl
    · exact Bool.and_eq_false_iff.mpr (.inr hstop.1)
  · refine ⟨_, step_of_decode_bad hrun hsus heb hbad, fun j => ?_, ?_, fun hwhy => ?_, ?_⟩
    · rw [terminate_reg, advanceTo_reg]
    · rintro rfl
      exact terminate_advanceTo_stopsWith _ rest hrun
    · rw [decodeError_of_ne_truncated hwhy]
      exact terminate_advanceTo_stopsWith _ rest hrun
    · rw [terminate_rip, advanceTo_rip]

end Sys2Proof.Machine
end

section
/-! PROOFS. The statements of the engine family (40_engine.md): O8, O9, O10 and O12. What a ready tick does with the bytes at
RIP, where those bytes are an encoding, what the gate and the execute check do, and that every instruction's meaning ends in a
next state. -/

namespace Sys2Proof.Machine

/-! ### A tick whose bytes decode -/

/-- Past the gate and the execute check, a tick runs the instruction decoded at RIP, whatever runs the instructions. -/
theorem tickWith_of_decode_ok (run : Instr → State → Host.Outcome State Fault Refusal) {s : State} {i : Instr}
    {rest : List Byte} (hrun : s.running = true) (hsus : s.suspendedRead = false) (heb : s.rip.toNat < s.eb.toNat)
    (hok : decode (fetchWindow maxInstrBytes s) = .ok i rest) : tickWith run s = run i (s.advanceTo rest) := by
  unfold tickWith
  rw [if_pos ((ready_iff s).mpr ⟨hrun, hsus⟩), if_pos ((mayFetch_iff s).mpr heb)]
  simp only [decodeAt, hok]

/-- Settles O8: the tick runs the decoded instruction by `exec`, or by `execWith H`, which differ at SYSCALL alone. -/
theorem stepRunsTheDecodedInstruction : Obligations.StepRunsTheDecodedInstruction := by
  refine ⟨fun s i rest hrun hsus heb hok => ⟨tickWith_of_decode_ok exec hrun hsus heb hok, fun H => ?_⟩,
    fun s => (stepWith_own s).symm⟩
  have hstep : stepWith H s = execWith H i (s.advanceTo rest) := tickWith_of_decode_ok _ hrun hsus heb hok
  refine ⟨fun hi => hstep.trans (execWith_other H i _ hi), ?_⟩
  rintro rfl
  exact hstep.trans (execWith_syscall H _)

/-! ### Memory that holds an encoding -/

/-- The bytes from an address upward, cut in two. -/
theorem bytes_add (s : State) (p n m : Nat) : s.bytes p (n + m) = s.bytes p n ++ s.bytes (p + n) m := by
  simp [State.bytes, List.range_add, Nat.add_assoc]

/-- Memory that holds a list of bytes one by one reads back as the list. -/
theorem bytes_eq_of_getElem {s : State} {p : Nat} {bs : List Byte}
    (h : ∀ k (hk : k < bs.length), s.byte (p + k) = bs[k]) : s.bytes p bs.length = bs :=
  List.ext_getElem (bytes_length s p bs.length) fun k hk hk' => (bytes_getElem s p _ k hk).trans (h k hk')

/-- The encoding of a well-formed instruction fits the fetch window (30_encoding.md R129). -/
theorem encode_length_le {i : Instr} (h : i.wf = true) : (encode i).length ≤ maxInstrBytes := by
  have hlen := (instructionsHaveOneToThirteenBytes.1 _ i [] (decodeAfterEncodeIsIdentity i [] h)).2
  simpa [maxInstrBytes] using hlen

/-- The window starts with the bytes in memory at RIP, as far as they fit it and lie in the buffer. -/
theorem fetchWindow_eq_append {s : State} {bs : List Byte} (hmax : bs.length ≤ maxInstrBytes)
    (hlen : s.rip.toNat + bs.length ≤ s.len.toNat)
    (hbytes : ∀ k (hk : k < bs.length), s.byte (s.rip.toNat + k) = bs[k]) :
    ∃ tail, fetchWindow maxInstrBytes s = bs ++ tail := by
  obtain ⟨m, hm⟩ := Nat.exists_eq_add_of_le (Nat.le_min.mpr ⟨hmax, Nat.le_sub_of_add_le' hlen⟩)
  exact ⟨_, by rw [fetchWindow, hm, bytes_add, bytes_eq_of_getElem hbytes]⟩

/-- Settles O9: the window is the encoding and a tail, the decoder gives back the instruction and leaves the tail (O1), and
the tick runs what was decoded (O8). -/
theorem stepRunsTheEncodedInstruction : Obligations.StepRunsTheEncodedInstruction := by
  intro s i hrun hsus heb hwf hlen hbytes
  obtain ⟨tail, hwin⟩ := fetchWindow_eq_append (encode_length_le hwf) hlen hbytes
  have hok : decode (fetchWindow maxInstrBytes s) = .ok i tail := hwin ▸ decodeAfterEncodeIsIdentity i tail hwf
  have hfetched : (fetchWindow maxInstrBytes s).length - tail.length = (encode i).length := by
    rw [hwin, List.length_append, Nat.add_sub_cancel]
  rw [← hfetched]
  exact (stepRunsTheDecodedInstruction.1 s i tail hrun hsus heb hok).1

/-! ### The gate and the execute check -/

/-- A stopped or suspended engine is not Ready (40_engine.md R140). -/
theorem ready_eq_false {s : State} (h : s.running = false ∨ s.suspendedRead = true) : s.ready = false := by
  rcases h with h | h <;> simp [State.ready, h]

theorem step_of_not_ready {s : State} (h : s.ready = false) : step s = .next s :=
  if_neg (Bool.eq_false_iff.mp h)

theorem step_of_not_mayFetch {s : State} (hready : s.ready = true) (h : s.mayFetch = false) :
    step s = .next (terminate .accessViolation s) :=
  (if_pos hready).trans (if_neg (Bool.eq_false_iff.mp h))

/-- Settles O10: neither the gate nor the execute check lets an instruction run. -/
theorem gateAndExecuteCheckComeFirst : Obligations.GateAndExecuteCheckComeFirst := by
  refine ⟨fun s h => ?_, fun s hrun hsus heb => ?_⟩
  · have hready := ready_eq_false h
    exact ⟨step_of_not_ready hready, Bool.and_eq_false_iff.mpr (.inl hready)⟩
  · have hfetch : s.mayFetch = false := decide_eq_false (Nat.not_lt.mpr heb)
    have hstop := terminate_stopsWith .accessViolation s hrun
    exact ⟨_, step_of_not_mayFetch ((ready_iff s).mpr ⟨hrun, hsus⟩) hfetch, hstop, terminate_reg _ s, terminate_rip _ s,
      Bool.and_eq_false_iff.mpr (.inr hstop.1)⟩

/-! ### Every step answers a next state -/

/-- An instruction's pseudocode, raised or not, ends in a next state: a raised error is a termination (60_exceptions.md
R283). -/
theorem finish_answersNext (r : Res Unit) : ∃ t, r.finish = .next t := by
  cases r with
  | done v s => exact ⟨_, rfl⟩
  | raised e s => exact ⟨_, rfl⟩

theorem execSyscallWith_answersNext (H : HandlerTable) (s : State) : ∃ t, execSyscallWith H s = .next t := by
  rcases execSyscallWith_cases H s with ⟨_, e⟩ | ⟨_, _, _, _, _, _, e⟩ | ⟨_, _, _, _, _, _, e⟩ <;> exact ⟨_, e⟩

/-- Each meaning but that of SYSCALL is a next state (that of HLT a termination, 41_system.md R161) or pseudocode under
`finish`. -/
theorem exec_answersNext (i : Instr) (s : State) : ∃ t, exec i s = .next t := by
  cases i with
  | nop | hlt | lea w r a | ffree i | fincstp | fdecstp | finit => exact ⟨_, rfl⟩
  | syscall => exact execSyscallWith_answersNext _ s
  | _ => exact finish_answersNext _

theorem execWith_answersNext (H : HandlerTable) (i : Instr) (s : State) : ∃ t, execWith H i s = .next t := by
  by_cases hi : i = .syscall
  · subst hi; exact execWith_syscall H s ▸ execSyscallWith_answersNext H s
  · exact execWith_other H i s hi ▸ exec_answersNext i s

theorem stepWith_answersNext (H : HandlerTable) (s : State) : ∃ t, stepWith H s = .next t := by
  rcases tickWith_cases (execWith H) s with
    ⟨_, e⟩ | ⟨_, _, e⟩ | ⟨_, _, _, _, _, e⟩ | ⟨_, _, i, rest, _, e⟩
  · exact ⟨_, e⟩
  · exact ⟨_, e⟩
  · exact ⟨_, e⟩
  · exact (execWith_answersNext H i (s.advanceTo rest)).imp fun _ => e.trans

/-- Settles O12: the checks of the tick end in a next state, and so does every instruction. -/
theorem everyStepAnswersNext : Obligations.EveryStepAnswersNext :=
  ⟨fun s => stepWith_own s ▸ stepWith_answersNext _ s, stepWith_answersNext⟩

end Sys2Proof.Machine
end

section
/-! PROOFS. The statements of the system family (41_system.md): O44 and O45. What SYSCALL answers where its handler's
outcome is known, what an exit leaves, and the reference table read by number. -/

namespace Sys2Proof.Machine

/-! ### NOP and HLT -/

theorem exec_nop (s : State) : exec .nop s = .next s := rfl

theorem exec_hlt (s : State) : exec .hlt s = .next (terminate .abort s) := rfl

/-- Settles O44. -/
theorem nopAndHlt : Obligations.NopAndHlt :=
  ⟨exec_nop, fun s h => stops_of_exec_terminates h (exec_hlt s)⟩

/-! ### SYSCALL by its handler's outcome (41_system.md R162) -/

theorem exec_syscall (s : State) : exec .syscall s = execSyscallWith Config.ownHandlers s := rfl

section Outcome
variable {H : HandlerTable} {s u : State} {v : Service}

theorem execSyscallWith_of_service_eq_none (hv : s.service = none) :
    execSyscallWith H s = .next (terminate .unhandledSyscall s) := by
  simp only [execSyscallWith, hv, Res.finish_raised]

theorem execSyscallWith_of_handler_done {e : SysEnd} (hv : s.service = some v) (hh : handler H v s = .done e u) :
    execSyscallWith H s = .next (applySysEnd e u) := by
  simp only [execSyscallWith, hv, hh, Res.bind_done, Res.finish_done]

theorem execSyscallWith_of_handler_raised {e : ErrorCode} (hv : s.service = some v) (hh : handler H v s = .raised e u) :
    execSyscallWith H s = .next (terminate e u) := by
  simp only [execSyscallWith, hv, hh, Res.bind_raised, Res.finish_raised]

/-- A handler that raises before it changes anything. -/
theorem stops_of_handler_raised {e : ErrorCode} (h : s.running = true) (hv : s.service = some v)
    (hh : handler H v s = .raised e s) :
    ∃ t, execSyscallWith H s = .next t ∧ stopsWith e s t ∧ keepsRegs s t ∧ t.rip = s.rip :=
  ⟨_, execSyscallWith_of_handler_raised hv hh, terminate_stopsWith e s h, terminate_reg e s, terminate_rip e s⟩

end Outcome

/-! ### Exit (60_exceptions.md R285) -/

/-- Exit is the termination with error None of the state that holds the exit value. -/
theorem exitWith_eq_terminate (v : Word) (s : State) (h : s.running = true) :
    exitWith v s = terminate .none { s with returnValue := v } := by
  rw [exitWith_running v s h, terminate_running .none { s with returnValue := v } h]

/-- What an exit leaves: the frame of a termination, with the exit value as ReturnValue. -/
theorem exitWith_stopsWith (v : Word) (s : State) (h : s.running = true) :
    stopsWith .none { s with returnValue := v } (exitWith v s) :=
  exitWith_eq_terminate v s h ▸ terminate_stopsWith .none { s with returnValue := v } h

theorem exitWith_rip (v : Word) (s : State) : (exitWith v s).rip = s.rip := by
  unfold exitWith; split <;> rfl

/-! ### The host's own handlers (60_exceptions.md R298) -/

theorem putReg_regGets (i : Reg) (v : Word) (s : State) : regGets i v s (s.putReg i v) :=
  ⟨by rw [putReg_reg, if_pos rfl], fun j hj => by rw [putReg_reg, if_neg hj], putReg_byte s i v⟩

/-- A handler whose first operation is a store below RB ends there (20_memory.md R64, R76). -/
theorem runHandler_writeMem_readonly {p : Nat} {w : Width} (v : BitVec w.bits) (next : Handler) {s : State}
    (h : p < s.rb.toNat) : runHandler (.writeMem p w v next) s = .raised .accessViolation s := by
  rw [runHandler, memWrite_readonly p w.bytes v s h, Res.bind_raised]

/-! ### The reference SYSCALL_MAP (60_exceptions.md R303, R304) -/

/-- A number past the table's end stands in no entry: the lookup compares all 64 bits. -/
theorem serviceOf_reference_eq_none {num : Word} (h : 12 ≤ num.toNat) : serviceOf referenceSyscalls num = none := by
  have hkeys : ∀ p ∈ referenceSyscalls.handlers, p.1.toNat < 12 := by decide
  refine List.lookup_eq_none_iff.mpr fun p hp => bne_iff_ne.mpr fun hnum => ?_
  have := hkeys p hp
  rw [← hnum] at this
  omega

/-- Each number below 12 names the entry at its own place in the table. -/
theorem serviceOf_reference_ofNat : ∀ k : Fin 12,
    serviceOf referenceSyscalls (BitVec.ofNat 64 k) = (referenceSyscalls.handlers.map Prod.snd)[k.val]? := by decide

/-- The reference table is read by position. -/
theorem serviceOf_reference (num : Word) :
    serviceOf referenceSyscalls num = (referenceSyscalls.handlers.map Prod.snd)[num.toNat]? := by
  by_cases h : num.toNat < 12
  · have hk := serviceOf_reference_ofNat ⟨num.toNat, h⟩
    rwa [BitVec.ofNat_toNat, BitVec.setWidth_eq] at hk
  · have hend : 12 ≤ num.toNat := Nat.le_of_not_lt h
    rw [serviceOf_reference_eq_none hend, List.getElem?_eq_none hend]

/-! ### The statement -/

theorem syscall_exit {s : State} (h : s.running = true) (hv : s.service = some .exit) :
    ∃ t, exec .syscall s = .next t ∧ t.running = false ∧ t.suspendedRead = false ∧ t.error = .none ∧
      t.returnValue = s.arg0 ∧ (∀ k, (t.fdAt k).inUse = false) ∧ keepsRegs s t ∧ keepsMem s t ∧ t.rip = s.rip ∧
      t.rflags = s.rflags ∧ keepsFpu s t ∧ keepsBarriers s t := by
  obtain ⟨hrun, hsus, herr, hret, hfd, hmem, hflags, hfpu, hbar⟩ := exitWith_stopsWith s.arg0 s h
  exact ⟨_, execSyscallWith_of_handler_done hv rfl, hrun, hsus, herr, hret, hfd, exitWith_reg s.arg0 s, hmem,
    exitWith_rip s.arg0 s, hflags, hfpu, hbar⟩

/-- Settles O45: the handler's outcome is applied; a handler of the host's own is run from its first operation; the reference
table is read by position. -/
theorem syscallRunsTheHandlerOfItsNumber : Obligations.SyscallRunsTheHandlerOfItsNumber := by
  refine ⟨fun s h => ⟨syscall_exit h, fun hv => ?_⟩, fun H n s h hv => ?_, fun s hcfg => ?_⟩
  · exact stops_of_exec_terminates h ((exec_syscall s).trans (execSyscallWith_of_service_eq_none hv))
  · have hown {a : Handler} (ha : H n = a) : handler H (.own n) s = runHandler a s := congrArg (runHandler · s) ha
    refine ⟨fun v ha => ?result, fun ha => ?suspend, fun v ha => ?exit, fun e ha => ?fail,
      fun p w v next ha hp => ?store⟩
    case result =>
      exact ⟨_, execSyscallWith_of_handler_done hv (hown ha), putReg_regGets s.resultReg v s, rfl, rfl,
        keepsEngine_of_regs_mem s _ _⟩
    case suspend =>
      exact ⟨_, execSyscallWith_of_handler_done hv (hown ha), rfl, rfl, ⟨rfl, rfl, rfl⟩, fun _ => rfl, fun _ => rfl, rfl,
        ⟨rfl, rfl, rfl⟩, keepsBarriers_refl s, rfl, rfl⟩
    case exit => exact execSyscallWith_of_handler_done hv (hown ha)
    case fail => exact stops_of_handler_raised h hv (hown ha)
    case store => exact stops_of_handler_raised h hv ((hown ha).trans (runHandler_writeMem_readonly v next hp))
  · refine ⟨?_, ?_, ?_, ?_, ?_⟩
    · rw [State.arg0, hcfg]; rfl
    · rw [State.arg1, hcfg]; rfl
    · rw [State.arg2, hcfg]; rfl
    · rw [State.resultReg, hcfg]; rfl
    · rw [State.service, hcfg]; exact serviceOf_reference _

end Sys2Proof.Machine
end

section
/-! PROOFS. The statements of the data movement family (42_data_movement.md): O25 to O29. What each instruction answers where
its accesses pass, as one equation; the claim's frame is then that of the write it ends in. -/

namespace Sys2Proof.Machine

/-! ### A write of a place as the end of an instruction -/

/-- An instruction that ends in the write of a place completes with that write and nothing else. -/
theorem completes_of_exec_placeWritten {i : Instr} {w : Width} {p : Place} {v : BitVec w.bits} {s : State}
    (h : exec i s = .next (placeWritten w p v s)) :
    ∃ t, exec i s = .next t ∧ placeGets w p v s t ∧ t.rip = s.rip ∧ t.rflags = s.rflags ∧ keepsEngine s t := by
  obtain ⟨hengine, hrip, hflags⟩ := placeWritten_keeps w p v s
  exact ⟨_, h, placeWritten_gets w p v s, hrip, hflags, hengine⟩

/-! ### MOV and LEA (42_data_movement.md R170, R171) -/

theorem exec_mov_done {w : Width} {f : BinForm} {s : State} (hsrc : operandReadable w f.src s = true)
    (hdst : (placeOf f.dst s).writable w s = true) :
    exec (.mov w f) s = .next (placeWritten w (placeOf f.dst s) (operandHolds w f.src s) s) := by
  show ((readOperand w f.src s).bind fun v u => writePlace w (placeOf f.dst s) v u).finish = _
  rw [readOperand_done _ _ _ hsrc, Res.bind_done, writePlace_done _ _ _ _ hdst, Res.finish_done]

/-- Settles O25. -/
theorem movCopiesTheSource : Obligations.MovCopiesTheSource := fun _ _ _ hsrc hdst =>
  completes_of_exec_placeWritten (exec_mov_done hsrc hdst)

theorem exec_lea (w : Width) (r : Reg) (a : Addr) (s : State) :
    exec (.lea w r a) s = .next (placeWritten w (.reg r) ((effAddr a s).setWidth w.bits) s) := rfl

/-- Settles O26: the write of a register place is the claim's register write. -/
theorem leaLoadsTheAddress : Obligations.LeaLoadsTheAddress := fun w r a s =>
  completes_of_exec_placeWritten (exec_lea w r a s)

/-! ### PUSH and PUSHF (R172, R174) -/

theorem width_bytes_mem (w : Width) : w.bytes ∈ [1, 2, 4, 8] := by cases w <;> decide

/-- PUSH of a readable operand is the push of its value, read before RSP moves. -/
theorem exec_push_of_readable {w : Width} {v : Operand} {s : State} (h : operandReadable w v s = true) :
    exec (.push w v) s = (push w.bytes (operandHolds w v s) s).finish := by
  show ((readOperand w v s).bind fun v u => push w.bytes v u).finish = _
  rw [readOperand_done _ _ _ h, Res.bind_done]

theorem exec_pushf (s : State) : exec .pushf s = (push 8 s.rflags s).finish := rfl

/-- An instruction that is a push with room above SB completes with the push's frame (20_memory.md R72). -/
theorem completes_of_exec_push {i : Instr} {n : Nat} {v : BitVec (8 * n)} {s : State} (hn : n ∈ [1, 2, 4, 8])
    (h : exec i s = (push n v s).finish) (hrb : s.rb.toNat ≤ s.sb.toNat)
    (hsb : s.sb.toNat ≤ (s.reg rsp - BitVec.ofNat 64 n).toNat)
    (hlen : (s.reg rsp - BitVec.ofNat 64 n).toNat + n ≤ s.len.toNat) :
    ∃ t, exec i s = .next t ∧ t.reg rsp = s.reg rsp - BitVec.ofNat 64 n ∧ keepsRegsBut rsp s t ∧
      t.value (s.reg rsp - BitVec.ofNat 64 n).toNat n = v ∧
      keepsMemBut (s.reg rsp - BitVec.ofNat 64 n).toNat n s t ∧
      t.rip = s.rip ∧ t.rflags = s.rflags ∧ keepsEngine s t := by
  obtain ⟨-, -, hdone⟩ := stackPrimitivesCheckTheBarrier.1 n v s hn hrb
  obtain ⟨t, hpush, hframe⟩ := hdone hsb hlen
  exact ⟨t, by rw [h, hpush, Res.finish_done], hframe⟩

/-- Settles O27: both instructions are a push, whose outcome is that of O22. -/
theorem pushAndPushfStoreBelowTheStackTop : Obligations.PushAndPushfStoreBelowTheStackTop :=
  ⟨fun w _ _ hread => completes_of_exec_push (width_bytes_mem w) (exec_push_of_readable hread),
    fun s => completes_of_exec_push (width_bytes_mem .w8) (exec_pushf s)⟩

/-! ### POP and POPF (R173, R175) -/

/-- POP writes the popped value to the place computed before RSP moved, in the state with RSP moved up. -/
theorem exec_pop_done {w : Width} {d : RegMem} {s : State} (hsb : s.sb.toNat ≤ (s.reg rsp).toNat)
    (hlen : (s.reg rsp).toNat + w.bytes ≤ s.len.toNat) :
    let u := s.putReg rsp (s.reg rsp + BitVec.ofNat 64 w.bytes)
    (placeOf d s).writable w u = true →
      exec (.pop w d) s = .next (placeWritten w (placeOf d s) (s.value (s.reg rsp).toNat w.bytes) u) := by
  intro u hdst
  show ((pop w.bytes s).bind fun v u => writePlace w (placeOf d s) v u).finish = _
  rw [pop_done hsb hlen, Res.bind_done, writePlace_done _ _ _ _ hdst, Res.finish_done]

/-- Settles O28: RSP moves up and then the place is written, over the increment where the place is RSP itself. -/
theorem popLoadsTheStackTop : Obligations.PopLoadsTheStackTop := by
  intro w s p up hsb hlen
  have hpop (d : RegMem) := exec_pop_done (d := d) hsb hlen
  have hmoved (j : Reg) : (s.putReg rsp up).reg j = if j = rsp then up else s.reg j := putReg_reg s rsp j up
  refine ⟨fun r => ?toReg, fun a hdst => ?toMem⟩
  case toReg =>
    obtain ⟨hval, hregs, hmem⟩ := placeWritten_gets w (.reg r) (s.value p.toNat w.bytes) (s.putReg rsp up)
    refine ⟨_, hpop (.reg r) rfl, ?_, fun hr => ?_, fun j hj hjsp => ?_, hmem, rfl, rfl, keepsEngine_of_regs_mem s _ _⟩
    · rw [← hmoved]; exact hval
    · exact (hregs rsp hr.symm).trans ((hmoved rsp).trans (if_pos rfl))
    · exact (hregs j hj).trans ((hmoved j).trans (if_neg hjsp))
  case toMem =>
    obtain ⟨hregs, hval, hmem⟩ :=
      placeWritten_gets w (.mem (effAddr a s)) (s.value p.toNat w.bytes) (s.putReg rsp up)
    refine ⟨_, hpop (.mem a) hdst, ?_, fun j hj => ?_, hval, hmem, rfl, rfl, keepsEngine_of_regs_mem s _ _⟩
    · exact (hregs rsp).trans ((hmoved rsp).trans (if_pos rfl))
    · exact (hregs j).trans ((hmoved j).trans (if_neg hj))

theorem exec_popf_done {s : State} (hsb : s.sb.toNat ≤ (s.reg rsp).toNat)
    (hlen : (s.reg rsp).toNat + 8 ≤ s.len.toNat) :
    exec .popf s = .next { s.putReg rsp (s.reg rsp + 8) with
      rflags := restoreFlags s.rflags (s.value (s.reg rsp).toNat 8) } := by
  show ((pop 8 s).bind fun v u => .done () { u with rflags := restoreFlags u.rflags v }).finish = _
  rw [pop_done hsb hlen, Res.bind_done, Res.finish_done]
  rfl

/-- Settles O29: the flag-restoring write bit by bit (10_state.md R28), over the move of RSP. -/
theorem popfRestoresThePublicFlags : Obligations.PopfRestoresThePublicFlags := by
  intro s p hsb hlen
  obtain ⟨hrsp, hregs, hmem⟩ := putReg_regGets rsp (p + 8) s
  refine ⟨_, exec_popf_done hsb hlen, fun b hb => ?_, fun b hb => ?_, hrsp, hregs, hmem, rfl,
    ⟨rfl, rfl, rfl⟩, keepsBarriers_refl s, ⟨rfl, rfl, rfl, rfl, rfl, rfl, rfl⟩⟩
  · exact (restoreFlags_getLsbD _ _ b).trans (if_pos hb)
  · exact (restoreFlags_getLsbD _ _ b).trans (if_neg hb)

end Sys2Proof.Machine
end

section
/-! PROOFS. The statements of the ALU family (43_alu.md): O30 to O33 and O37. First what a merge of flag assignments leaves in
RFLAGS and what the flag computations are in numbers, then one completion lemma per operand format; each instruction's
claim is its format's completion with its own flags. -/

namespace Sys2Proof.Machine

/-! ### RFLAGS after a merge of flag assignments (40_engine.md R150) -/

section Merged
variable {fl : FlagSet} {v : Bool} {s t : State} (ht : t.rflags = mergeFlags fl s.rflags)
include ht

theorem cf_of_merge (h : fl.cf = some v) : t.rflags.getLsbD 0 = v := by rw [ht, mergeFlags_getLsbD]; simp [h]

theorem af_of_merge (h : fl.af = some v) : t.rflags.getLsbD 4 = v := by rw [ht, mergeFlags_getLsbD]; simp [h]

theorem zf_of_merge (h : fl.zf = some v) : t.rflags.getLsbD 6 = v := by rw [ht, mergeFlags_getLsbD]; simp [h]

theorem sf_of_merge (h : fl.sf = some v) : t.rflags.getLsbD 7 = v := by rw [ht, mergeFlags_getLsbD]; simp [h]

theorem of_of_merge (h : fl.of = some v) : t.rflags.getLsbD 11 = v := by rw [ht, mergeFlags_getLsbD]; simp [h]

theorem keepsFlagsBut_of_merge : keepsFlagsBut arithmeticBits s t := fun b hb => by
  rw [ht, mergeFlags_keeps fl s.rflags b hb]

/-- A merge that assigns no CF keeps CF too. -/
theorem keepsFlagsBut_of_merge_keepCf (h : fl.cf = none) : keepsFlagsBut incDecBits s t := fun b hb => by
  by_cases h0 : b = 0
  · subst h0
    rw [ht, mergeFlags_getLsbD, if_pos rfl, h, Option.getD_none]
  · exact keepsFlagsBut_of_merge ht b (List.not_mem_cons_of_ne_of_not_mem h0 hb)

end Merged

/-! ### The flag computations in numbers (43_alu.md R192, R193) -/

section Computed
variable {n : Nat} (a b : BitVec n)

/-- AF of an addition is the carry out of bit 3. -/
theorem afOf_add (hn : 4 < n) : afOf a b (a + b) = decide (16 ≤ a.toNat % 16 + b.toNat % 16) := by
  have hcarry : BitVec.carry 4 a b false = decide (16 ≤ a.toNat % 16 + b.toNat % 16) := by simp [BitVec.carry]
  rw [← hcarry, afOf, BitVec.getLsbD_xor, BitVec.getLsbD_xor, BitVec.getLsbD_add hn]
  cases a.getLsbD 4 <;> cases b.getLsbD 4 <;> simp

/-- AF of a subtraction is the borrow into bit 3: the bit is that of the addition which undoes the subtraction. -/
theorem afOf_sub (hn : 4 < n) : afOf a b (a - b) = decide (a.toNat % 16 < b.toNat % 16) := by
  obtain ⟨r, rfl⟩ : ∃ r, a = r + b := ⟨a - b, (BitVec.sub_add_cancel a b).symm⟩
  have hswap : afOf (r + b) b r = afOf r b (r + b) := by
    rw [afOf, afOf, show r + b ^^^ b ^^^ r = r ^^^ b ^^^ (r + b) by ac_rfl]
  have hmod : (r + b).toNat % 16 = (r.toNat + b.toNat) % 16 := by
    rw [BitVec.toNat_add]; exact Nat.mod_mod_of_dvd _ (pow_dvd_pow 2 (show 4 ≤ n by omega))
  rw [BitVec.add_sub_cancel, hswap, afOf_add r b hn, hmod, decide_eq_decide]
  omega

/-- The sign bit halves the `2 ^ n` values. -/
theorem two_pow_eq_halves (hn : 1 < n) : 2 ^ n = 2 * 2 ^ (n - 1) ∧ 1 < 2 ^ (n - 1) :=
  ⟨by rw [Nat.mul_comm, Nat.two_pow_pred_mul_two (by omega)], Nat.one_lt_two_pow (by omega)⟩

theorem msb_one_eq_false (hn : 1 < n) : (1 : BitVec n).msb = false := by
  rw [BitVec.ofNat_eq_ofNat, BitVec.msb_one, decide_eq_false (by omega)]

/-- OF of adding 1: only a number that is not negative can overflow, and only the largest does. -/
theorem addF_one_of (hn : 1 < n) : (addF a 1).of = some (decide (a.toNat + 1 = 2 ^ (n - 1))) := by
  refine congrArg some ?_
  obtain ⟨hhalf, hlt⟩ := two_pow_eq_halves hn
  have hone : (1 : BitVec n).toNat = 1 := BitVec.toNat_one (by omega)
  rw [msb_one_eq_false hn]
  cases hs : a.msb with
  | false =>
    rw [BitVec.msb_eq_false_iff_two_mul_lt] at hs
    have hsum : (a + 1).toNat = a.toNat + 1 := by rw [BitVec.toNat_add_of_lt (by omega), hone]
    have hmsb : (a + 1).msb = decide (2 ^ (n - 1) ≤ a.toNat + 1) := by rw [BitVec.msb_eq_decide, hsum]
    rw [BEq.rfl, Bool.true_and, Bool.bne_false, hmsb, decide_eq_decide]
    omega
  | true =>
    rw [BitVec.msb_eq_true_iff_two_mul_ge] at hs
    exact (decide_eq_false (by omega)).symm

/-- OF of subtracting 1: only a negative number can overflow, and only the least does. -/
theorem subF_one_of (hn : 1 < n) : (subF a 1).of = some (decide (a.toNat = 2 ^ (n - 1))) := by
  refine congrArg some ?_
  obtain ⟨hhalf, hlt⟩ := two_pow_eq_halves hn
  have hone : (1 : BitVec n).toNat = 1 := BitVec.toNat_one (by omega)
  rw [msb_one_eq_false hn]
  cases hs : a.msb with
  | false =>
    rw [BitVec.msb_eq_false_iff_two_mul_lt] at hs
    exact (decide_eq_false (by omega)).symm
  | true =>
    rw [BitVec.msb_eq_true_iff_two_mul_ge] at hs
    have hdiff : (a - 1).toNat = a.toNat - 1 := by
      rw [BitVec.toNat_sub_of_le (BitVec.le_def.mpr (by omega)), hone]
    have hmsb : (a - 1).msb = decide (2 ^ (n - 1) ≤ a.toNat - 1) := by rw [BitVec.msb_eq_decide, hdiff]
    rw [Bool.bne_false, Bool.true_and, Bool.bne_true, hmsb, ← decide_not, decide_eq_decide]
    omega

/-- OF of a negation: only the least signed number has no negative. -/
theorem subF_zero_of (hn : 1 < n) : (subF 0 a).of = some (decide (a.toNat = 2 ^ (n - 1))) := by
  refine congrArg some ?_
  obtain ⟨hhalf, hlt⟩ := two_pow_eq_halves hn
  rw [show (0 : BitVec n).msb = false from BitVec.msb_zero]
  cases hs : a.msb with
  | false =>
    rw [BitVec.msb_eq_false_iff_two_mul_lt] at hs
    exact (decide_eq_false (by omega)).symm
  | true =>
    rw [BitVec.msb_eq_true_iff_two_mul_ge] at hs
    have hdiff : (0 - a).toNat = 2 ^ n - a.toNat := BitVec.toNat_sub_of_lt (BitVec.lt_def.mpr (by simp; omega))
    have hmsb : (0 - a).msb = decide (2 ^ (n - 1) ≤ 2 ^ n - a.toNat) := by rw [BitVec.msb_eq_decide, hdiff]
    rw [Bool.bne_false, Bool.bne_true, Bool.not_false, Bool.true_and, hmsb, decide_eq_decide]
    omega

/-- SF differs from OF after a subtraction exactly where the signed difference is negative. -/
theorem sign_ne_overflow_sub :
    ((a - b).msb != (a.msb != b.msb && (a - b).msb != a.msb)) = decide (a.toInt < b.toInt) := by
  by_cases h : a.msb = b.msb
  · have hno : ¬ a.ssubOverflow b = true := by rw [BitVec.ssubOverflow_eq, h]; cases b.msb <;> simp
    have hdiff := BitVec.toInt_sub_of_not_ssubOverflow hno
    rw [h, bne_self_eq_false, Bool.false_and, Bool.bne_false, BitVec.msb_eq_toInt, hdiff, decide_eq_decide]
    omega
  · rw [bne_iff_ne.mpr h, Bool.true_and, ← Bool.bne_assoc, bne_self_eq_false, Bool.false_bne, BitVec.msb_eq_toInt,
      decide_eq_decide]
    rw [BitVec.msb_eq_toInt, BitVec.msb_eq_toInt, decide_eq_decide] at h
    omega

end Computed

theorem width_bits_ge (w : Width) : 8 ≤ w.bits := by cases w <;> decide

/-- An exclusive or with all ones, the number `2 ^ n - 1`, inverts every bit. -/
theorem xor_two_pow_sub_one {n : Nat} (a : BitVec n) : a ^^^ BitVec.ofNat n (2 ^ n - 1) = ~~~a := by
  rw [show BitVec.ofNat n (2 ^ n - 1) = BitVec.allOnes n from BitVec.eq_of_toNat_eq (by simp), BitVec.xor_allOnes]

/-! ### The flags each operation leaves -/

section Flags
variable {n : Nat} {a b : BitVec n} {s t : State}

theorem flags_of_addF (ht : t.rflags = mergeFlags (addF a b) s.rflags) :
    showsResult (a + b) t ∧ t.rflags.getLsbD 0 = decide (2 ^ n ≤ a.toNat + b.toNat) ∧
      t.rflags.getLsbD 11 = decide (a.msb = b.msb ∧ (a + b).msb ≠ a.msb) ∧
      t.rflags.getLsbD 4 = ((a ^^^ b ^^^ (a + b)) >>> 4).getLsbD 0 ∧ keepsFlagsBut arithmeticBits s t := by
  refine ⟨showsResult_of _ _ _ t ht rfl rfl rfl, cf_of_merge ht rfl, ?_, ?_, keepsFlagsBut_of_merge ht⟩
  · rw [of_of_merge ht rfl, Bool.eq_iff_iff]
    simp
  · rw [af_of_merge ht rfl, afOf, BitVec.getLsbD_ushiftRight]

theorem flags_of_subF (ht : t.rflags = mergeFlags (subF a b) s.rflags) :
    showsResult (a - b) t ∧ t.rflags.getLsbD 0 = decide (a.toNat < b.toNat) ∧
      t.rflags.getLsbD 11 = decide (a.msb ≠ b.msb ∧ (a - b).msb ≠ a.msb) ∧
      t.rflags.getLsbD 4 = ((a ^^^ b ^^^ (a - b)) >>> 4).getLsbD 0 ∧ keepsFlagsBut arithmeticBits s t := by
  refine ⟨showsResult_of _ _ _ t ht rfl rfl rfl, cf_of_merge ht rfl, ?_, ?_, keepsFlagsBut_of_merge ht⟩
  · rw [of_of_merge ht rfl, Bool.eq_iff_iff]
    simp
  · rw [af_of_merge ht rfl, afOf, BitVec.getLsbD_ushiftRight]

/-- Whatever the draw of AF is. -/
theorem flags_of_logF {draw : Bool} {r : BitVec n} (ht : t.rflags = mergeFlags (logF draw r) s.rflags) :
    showsResult r t ∧ t.rflags.getLsbD 0 = false ∧ t.rflags.getLsbD 11 = false ∧
      keepsFlagsBut arithmeticBits s t :=
  ⟨showsResult_of _ _ _ t ht rfl rfl rfl, cf_of_merge ht rfl, of_of_merge ht rfl, keepsFlagsBut_of_merge ht⟩

/-- INC: the flags of adding 1, with CF kept (43_alu.md R207). -/
theorem flags_of_addF_one (hn : 4 < n) (ht : t.rflags = mergeFlags (addF a 1).keepCf s.rflags) :
    showsResult (a + 1) t ∧ t.rflags.getLsbD 11 = decide (a.toNat + 1 = 2 ^ (n - 1)) ∧
      t.rflags.getLsbD 4 = decide (a.toNat % 16 = 15) ∧ keepsFlagsBut incDecBits s t := by
  have hone : (1 : BitVec n).toNat = 1 := BitVec.toNat_one (by omega)
  refine ⟨showsResult_of _ _ _ t ht rfl rfl rfl, ?_, ?_, keepsFlagsBut_of_merge_keepCf ht rfl⟩
  · exact of_of_merge ht (addF_one_of a (by omega))
  · rw [af_of_merge ht rfl, afOf_add a 1 hn, hone, decide_eq_decide]
    omega

/-- DEC: the flags of subtracting 1, with CF kept (R208). -/
theorem flags_of_subF_one (hn : 4 < n) (ht : t.rflags = mergeFlags (subF a 1).keepCf s.rflags) :
    showsResult (a - 1) t ∧ t.rflags.getLsbD 11 = decide (a.toNat = 2 ^ (n - 1)) ∧
      t.rflags.getLsbD 4 = decide (a.toNat % 16 = 0) ∧ keepsFlagsBut incDecBits s t := by
  have hone : (1 : BitVec n).toNat = 1 := BitVec.toNat_one (by omega)
  refine ⟨showsResult_of _ _ _ t ht rfl rfl rfl, ?_, ?_, keepsFlagsBut_of_merge_keepCf ht rfl⟩
  · exact of_of_merge ht (subF_one_of a (by omega))
  · rw [af_of_merge ht rfl, afOf_sub a 1 hn, hone, decide_eq_decide]
    omega

/-- NEG: the flags of subtracting from 0 (R209). -/
theorem flags_of_subF_zero (hn : 4 < n) (ht : t.rflags = mergeFlags (subF 0 a) s.rflags) :
    showsResult (0 - a) t ∧ t.rflags.getLsbD 0 = decide (a.toNat ≠ 0) ∧
      t.rflags.getLsbD 11 = decide (a.toNat = 2 ^ (n - 1)) ∧
      t.rflags.getLsbD 4 = decide (a.toNat % 16 ≠ 0) ∧ keepsFlagsBut arithmeticBits s t := by
  have hzero : (0 : BitVec n).toNat = 0 := BitVec.toNat_zero
  refine ⟨showsResult_of _ _ _ t ht rfl rfl rfl, ?_, ?_, ?_, keepsFlagsBut_of_merge ht⟩
  · rw [cf_of_merge ht rfl, hzero, decide_eq_decide, Nat.pos_iff_ne_zero]
  · exact of_of_merge ht (subF_zero_of a (by omega))
  · rw [af_of_merge ht rfl, afOf_sub 0 a hn, hzero, decide_eq_decide, Nat.zero_mod, Nat.pos_iff_ne_zero]

end Flags

/-! ### The two-operand instructions -/

/-- An instruction that writes a place and merges flags, whether or not it draws AF, completes with that write and those
flags and nothing else. -/
theorem completes_of_exec_placeWritten_merge {i : Instr} {w : Width} {p : Place} {r : BitVec w.bits} {fl : FlagSet}
    {s : State} {k : Nat} (h : exec i s = .next ({ placeWritten w p r s with draws := k }.mergeFlags fl)) :
    ∃ t, exec i s = .next t ∧ placeGets w p r s t ∧ t.rflags = mergeFlags fl s.rflags ∧ t.rip = s.rip ∧
      keepsEngine s t := by
  obtain ⟨hengine, hrip, hflags⟩ := placeWritten_keeps w p r s
  exact ⟨_, h, placeGets_congr w p r s _ _ (placeWritten_gets w p r s) rfl rfl, congrArg (mergeFlags fl) hflags, hrip,
    hengine⟩

section Bin
variable {w : Width} {f : BinForm} {s : State} (hdst : (placeOf f.dst s).readable w s = true)
  (hsrc : operandReadable w f.src s = true)
include hdst hsrc

theorem exec_cmp_done :
    exec (.cmp w f) s = .next (s.mergeFlags (subF ((placeOf f.dst s).holds w s) (operandHolds w f.src s))) := by
  show ((readBoth w f s).bind _).finish = _
  rw [readBoth_done w f s hdst hsrc, Res.bind_done, Res.finish_done]

theorem exec_test_done :
    exec (.test w f) s = .next ((drawAf s).2.mergeFlags
      (logF (drawAf s).1 ((placeOf f.dst s).holds w s &&& operandHolds w f.src s))) := by
  show ((readBoth w f s).bind _).finish = _
  rw [readBoth_done w f s hdst hsrc, Res.bind_done, Res.finish_done]

variable (hwrite : (placeOf f.dst s).writable w s = true)
include hwrite

/-- A BIN instruction that writes completes with its result in its destination and its flags merged (43_alu.md R196). -/
theorem completes_of_exec_binWrite {i : Instr} {op : BitVec w.bits → BitVec w.bits → BitVec w.bits × FlagSet}
    (h : exec i s = (binWrite w f op s).finish) :
    let r := op ((placeOf f.dst s).holds w s) (operandHolds w f.src s)
    ∃ t, exec i s = .next t ∧ placeGets w (placeOf f.dst s) r.1 s t ∧ t.rflags = mergeFlags r.2 s.rflags ∧
      t.rip = s.rip ∧ keepsEngine s t := by
  rw [binWrite_done w f op s hdst hsrc hwrite, Res.finish_done] at h
  exact completes_of_exec_placeWritten_merge h

theorem binLogic_done (op : BitVec w.bits → BitVec w.bits → BitVec w.bits) :
    let r := op ((placeOf f.dst s).holds w s) (operandHolds w f.src s)
    let u := placeWritten w (placeOf f.dst s) r s
    binLogic w f op s = .done () ((drawAf u).2.mergeFlags (logF (drawAf u).1 r)) := by
  show ((readBoth w f s).bind _) = _
  rw [readBoth_done w f s hdst hsrc, Res.bind_done]
  show ((writePlace w (placeOf f.dst s) _ s).bind _) = _
  rw [writePlace_done _ _ _ _ hwrite, Res.bind_done]

/-- A BIN logical instruction completes with its result in its destination; AF is a draw (43_alu.md R194). -/
theorem completes_of_exec_binLogic {i : Instr} {op : BitVec w.bits → BitVec w.bits → BitVec w.bits}
    (h : exec i s = (binLogic w f op s).finish) :
    let r := op ((placeOf f.dst s).holds w s) (operandHolds w f.src s)
    ∃ t, exec i s = .next t ∧ placeGets w (placeOf f.dst s) r s t ∧ showsResult r t ∧
      t.rflags.getLsbD 0 = false ∧ t.rflags.getLsbD 11 = false ∧
      keepsFlagsBut arithmeticBits s t ∧ t.rip = s.rip ∧ keepsEngine s t := by
  intro r
  rw [binLogic_done hdst hsrc hwrite op, Res.finish_done] at h
  obtain ⟨t, hexec, hgets, hrflags, hrip, hengine⟩ := completes_of_exec_placeWritten_merge h
  obtain ⟨hshow, hcf, hof, hkeep⟩ := flags_of_logF hrflags
  exact ⟨t, hexec, hgets, hshow, hcf, hof, hkeep, hrip, hengine⟩

end Bin

/-- Settles O30. -/
theorem addAndSubWriteResultAndFlags : Obligations.AddAndSubWriteResultAndFlags := by
  intro w f s d a b hdst hwrite hsrc
  constructor
  · obtain ⟨t, hexec, hgets, hrflags, hrip, hengine⟩ :=
      completes_of_exec_binWrite (i := .add w f) (op := fun a b => (a + b, addF a b)) hdst hsrc hwrite rfl
    obtain ⟨hshow, hcf, hof, haf, hkeep⟩ := flags_of_addF hrflags
    exact ⟨t, hexec, hgets, hshow, hcf, hof, haf, hkeep, hrip, hengine⟩
  · obtain ⟨t, hexec, hgets, hrflags, hrip, hengine⟩ :=
      completes_of_exec_binWrite (i := .sub w f) (op := fun a b => (a - b, subF a b)) hdst hsrc hwrite rfl
    obtain ⟨hshow, hcf, hof, haf, hkeep⟩ := flags_of_subF hrflags
    exact ⟨t, hexec, hgets, hshow, hcf, hof, haf, hkeep, hrip, hengine⟩

/-- Settles O31: both read their operands and then only merge flags. -/
theorem cmpAndTestSetFlagsOnly : Obligations.CmpAndTestSetFlagsOnly := by
  intro w f s d a b hdst hsrc
  have hengine : keepsEngine s s := keepsEngine_of_regs_mem s s.x s.mem
  constructor
  · obtain ⟨hshow, hcf, hof, haf, hkeep⟩ :=
      flags_of_subF (a := a) (b := b) (s := s) (t := s.mergeFlags (subF a b)) rfl
    exact ⟨_, exec_cmp_done hdst hsrc, fun _ => rfl, fun _ => rfl, hshow, hcf, hof, haf, hkeep, rfl, hengine⟩
  · obtain ⟨hshow, hcf, hof, hkeep⟩ :=
      flags_of_logF (s := s) (t := (drawAf s).2.mergeFlags (logF (drawAf s).1 (a &&& b))) rfl
    exact ⟨_, exec_test_done hdst hsrc, fun _ => rfl, fun _ => rfl, hshow, hcf, hof, hkeep, rfl, hengine⟩

/-- Settles O32. -/
theorem logicalOperationsWriteResultAndFlags : Obligations.LogicalOperationsWriteResultAndFlags := by
  intro w f s d a b hdst hwrite hsrc
  simp only [List.forall_mem_cons]
  exact ⟨completes_of_exec_binLogic hdst hsrc hwrite rfl, completes_of_exec_binLogic hdst hsrc hwrite rfl,
    completes_of_exec_binLogic hdst hsrc hwrite rfl, List.forall_mem_nil _⟩

/-! ### The one-operand instructions -/

section Un
variable {w : Width} {o : RegMem} {s : State} (hread : (placeOf o s).readable w s = true)
  (hwrite : (placeOf o s).writable w s = true)
include hread hwrite

/-- A UN instruction completes with its result in its operand and its flags merged (43_alu.md R196). -/
theorem completes_of_exec_unWrite {i : Instr} {op : BitVec w.bits → BitVec w.bits} {fl : BitVec w.bits → FlagSet}
    (h : exec i s = (unWrite w o op fl s).finish) :
    let a := (placeOf o s).holds w s
    ∃ t, exec i s = .next t ∧ placeGets w (placeOf o s) (op a) s t ∧ t.rflags = mergeFlags (fl a) s.rflags ∧
      t.rip = s.rip ∧ keepsEngine s t := by
  rw [unWrite_done w o op fl s hread hwrite, Res.finish_done] at h
  exact completes_of_exec_placeWritten_merge h

end Un

/-- Settles O33. -/
theorem unaryAluWritesResultAndFlags : Obligations.UnaryAluWritesResultAndFlags := by
  intro w o s d a hread hwrite
  have hbits : 4 < w.bits := Nat.lt_of_lt_of_le (by decide) (width_bits_ge w)
  refine ⟨?inc, ?dec, ?neg, ?not⟩
  case inc =>
    obtain ⟨t, hexec, hgets, hrflags, hrip, hengine⟩ := completes_of_exec_unWrite (i := .inc w o) hread hwrite rfl
    obtain ⟨hshow, hof, haf, hkeep⟩ := flags_of_addF_one hbits hrflags
    exact ⟨t, hexec, hgets, hshow, hof, haf, hkeep, hrip, hengine⟩
  case dec =>
    obtain ⟨t, hexec, hgets, hrflags, hrip, hengine⟩ := completes_of_exec_unWrite (i := .dec w o) hread hwrite rfl
    obtain ⟨hshow, hof, haf, hkeep⟩ := flags_of_subF_one hbits hrflags
    exact ⟨t, hexec, hgets, hshow, hof, haf, hkeep, hrip, hengine⟩
  case neg =>
    obtain ⟨t, hexec, hgets, hrflags, hrip, hengine⟩ := completes_of_exec_unWrite (i := .neg w o) hread hwrite rfl
    obtain ⟨hshow, hcf, hof, haf, hkeep⟩ := flags_of_subF_zero hbits hrflags
    rw [← BitVec.zero_sub]
    exact ⟨t, hexec, hgets, hshow, hcf, hof, haf, hkeep, hrip, hengine⟩
  case not =>
    obtain ⟨t, hexec, hgets, hrflags, hrip, hengine⟩ := completes_of_exec_unWrite (i := .not w o) hread hwrite rfl
    rw [xor_two_pow_sub_one]
    exact ⟨t, hexec, hgets, hrflags.trans (mergeFlags_none s.rflags), hrip, hengine⟩

/-! ### The conditions after a comparison (44_control.md R222, R224, R226, R232, R234) -/

/-- ZF of a difference is equality. -/
theorem zfOf_sub {n : Nat} (a b : BitVec n) : zfOf (a - b) = decide (a = b) := decide_eq_decide.mpr sub_eq_zero

section Conditions
variable {n : Nat} {a b : BitVec n} {s t : State} (ht : t.rflags = mergeFlags (subF a b) s.rflags)
include ht

theorem condHolds_b_of_subF : condHolds .b t.rflags = decide (a.toNat < b.toNat) := cf_of_merge ht rfl

theorem condHolds_e_of_subF : condHolds .e t.rflags = decide (a = b) := (zf_of_merge ht rfl).trans (zfOf_sub a b)

theorem condHolds_l_of_subF : condHolds .l t.rflags = decide (a.toInt < b.toInt) :=
  (congrArg₂ bne (sf_of_merge ht rfl) (of_of_merge ht rfl)).trans (sign_ne_overflow_sub a b)

end Conditions

theorem condHolds_be (v : Word) : condHolds .be v = (condHolds .b v || condHolds .e v) := rfl

theorem condHolds_le (v : Word) : condHolds .le v = (condHolds .e v || condHolds .l v) := rfl

/-- Settles O37: CF is the unsigned order, ZF is equality, and SF differs from OF as the signed order has it. -/
theorem compareThenConditionOrdersOperands : Obligations.CompareThenConditionOrdersOperands := by
  intro w f s t d a b hdst hsrc hexec
  have ht : t.rflags = mergeFlags (subF a b) s.rflags := by
    rw [exec_cmp_done hdst hsrc] at hexec
    rw [← Host.Outcome.next.inj hexec, mergeFlags_rflags]
  have hb := condHolds_b_of_subF ht
  have he := condHolds_e_of_subF ht
  have hl := condHolds_l_of_subF ht
  refine ⟨by rw [hb, decide_eq_true_eq], ?be, by rw [hl, decide_eq_true_eq], ?le, by rw [he, decide_eq_true_eq]⟩
  case be =>
    rw [condHolds_be, hb, he, Bool.or_eq_true, decide_eq_true_eq, decide_eq_true_eq, ← BitVec.toNat_inj]
    exact Nat.le_iff_lt_or_eq.symm
  case le =>
    rw [condHolds_le, he, hl, Bool.or_eq_true, decide_eq_true_eq, decide_eq_true_eq, ← BitVec.toInt_inj]
    exact le_iff_eq_or_lt.symm

end Sys2Proof.Machine
end

section
/-! PROOFS. The statements of the control family (44_control.md): O34, O35, O36, O38 and O39. What each transfer answers where
its target can be read, as one equation that ends in a jump; a jump not taken is the jump to RIP as it stands, so that the
frame of every claim is that of the state the jump starts from. -/

namespace Sys2Proof.Machine

/-! ### Jumps -/

/-- A transfer not taken leaves RIP past the instruction (44_control.md R238). -/
theorem ite_jump (c : Prop) [Decidable c] (s : State) (v : Word) :
    (if c then s.jump v else s) = s.jump (if c then v else s.rip) := by
  split <;> rfl

/-- A jump is outside the frame of the integer instructions. -/
theorem jump_keepsEngine {s u : State} (h : keepsEngine s u) (v : Word) : keepsEngine s (u.jump v) := h

/-- An instruction that ends in a jump and does nothing before it completes with RIP written and nothing else. -/
theorem completes_of_exec_jump {i : Instr} {s : State} {v : Word} (h : exec i s = .next (s.jump v)) :
    ∃ t, exec i s = .next t ∧ t.rip = v ∧ keepsRegs s t ∧ keepsMem s t ∧ t.rflags = s.rflags ∧ keepsEngine s t :=
  ⟨_, h, jump_rip s v, jump_reg s v, jump_byte s v, jump_rflags s v,
    jump_keepsEngine (keepsEngine_of_regs_mem s s.x s.mem) v⟩

/-- An instruction that ends in a jump after the write of one register completes with that register and RIP written and
nothing else. -/
theorem completes_of_exec_putReg_jump {i : Instr} {s : State} {r : Reg} {x v : Word}
    (h : exec i s = .next ((s.putReg r x).jump v)) :
    ∃ t, exec i s = .next t ∧ t.rip = v ∧ regGets r x s t ∧ t.rflags = s.rflags ∧ keepsEngine s t :=
  ⟨_, h, jump_rip _ v, putReg_regGets r x s, jump_rflags _ v, jump_keepsEngine (keepsEngine_of_regs_mem s _ _) v⟩

/-! ### The transfers over a readable target (R236) -/

section Target
variable {w : Width} {o : Operand} {s : State} (hread : operandReadable w o s = true)
include hread

theorem exec_jmp_done : exec (.jmp w o) s = .next (s.jump ((operandHolds w o s).setWidth 64)) := by
  show ((readTarget w o s).bind fun v u => .done () (u.jump v)).finish = _
  rw [readTarget_done w o s hread, Res.bind_done, Res.finish_done]

theorem exec_jcc_done (c : Cond) :
    exec (jcc c w o) s =
      .next (s.jump (if condHolds c s.rflags then (operandHolds w o s).setWidth 64 else s.rip)) := by
  rw [exec_jcc, jumpIf, readTarget_done w o s hread, Res.bind_done, ite_jump, Res.finish_done]

/-- The LOOP family holds the decremented RCX against 0, and its test against the flags as they were (R239 to R241). -/
theorem loopIf_done (test : Word → Bool) :
    let left := s.reg rcx - 1
    loopIf test w o s = .done () ((s.putReg rcx left).jump
      (if left.toNat ≠ 0 ∧ test s.rflags = true then (operandHolds w o s).setWidth 64 else s.rip)) := by
  intro left
  have hleft : (s.putReg rcx left).reg rcx = left := (putReg_reg s rcx rcx left).trans (if_pos rfl)
  have hzero : left.toNat ≠ 0 ↔ left ≠ 0 := not_congr (BitVec.toNat_inj (y := 0))
  rw [loopIf, readTarget_done w o s hread, Res.bind_done]
  simp only [hzero]
  rw [← putReg_rip s rcx left, ← ite_jump, hleft]
  rfl

/-- A member of the LOOP family completes with RCX and RIP written and nothing else. -/
theorem completes_of_exec_loopIf {i : Instr} (test : Word → Bool) (h : exec i s = (loopIf test w o s).finish) :
    let left := s.reg rcx - 1
    ∃ t, exec i s = .next t ∧ t.reg rcx = left ∧ keepsRegsBut rcx s t ∧
      t.rip = (if left.toNat ≠ 0 ∧ test s.rflags = true then (operandHolds w o s).setWidth 64 else s.rip) ∧
      keepsMem s t ∧ t.rflags = s.rflags ∧ keepsEngine s t := by
  intro left
  rw [loopIf_done hread test, Res.finish_done] at h
  obtain ⟨t, hexec, hrip, ⟨hrcx, hregs, hmem⟩, hflags, hengine⟩ := completes_of_exec_putReg_jump h
  exact ⟨t, hexec, hrcx, hregs, hrip, hmem, hflags, hengine⟩

/-- CALL jumps from the state its push leaves, to the target read before the push (R242). -/
theorem exec_call_of_push_done {u : State} (h : push 8 s.rip s = .done () u) :
    exec (.call w o) s = .next (u.jump ((operandHolds w o s).setWidth 64)) := by
  show ((readTarget w o s).bind fun v u => (push 8 u.rip u).bind fun _ u => .done () (u.jump v)).finish = _
  rw [readTarget_done w o s hread, Res.bind_done, h, Res.bind_done, Res.finish_done]

end Target

/-- RET jumps to the popped value (R243). -/
theorem exec_ret_done {s : State} (hsb : s.sb.toNat ≤ (s.reg rsp).toNat)
    (hlen : (s.reg rsp).toNat + 8 ≤ s.len.toNat) :
    exec .ret s = .next ((s.putReg rsp (s.reg rsp + 8)).jump (s.value (s.reg rsp).toNat 8)) := by
  show ((pop 8 s).bind fun v u => .done () (u.jump v)).finish = _
  rw [pop_done hsb hlen, Res.bind_done, Res.finish_done]
  rfl

/-! ### The statements -/

/-- Settles O34. -/
theorem jmpSetsRip : Obligations.JmpSetsRip := fun _ _ _ hread => completes_of_exec_jump (exec_jmp_done hread)

/-- Settles O35: each row is the jump on its condition. -/
theorem unsignedConditionalJumps : Obligations.UnsignedConditionalJumps := by
  intro w o s hread cf zf of
  have hjump (c : Cond) := completes_of_exec_jump (exec_jcc_done hread c)
  simp only [List.forall_mem_cons]
  exact ⟨⟨rfl, hjump .o⟩, ⟨rfl, hjump .no⟩, ⟨rfl, hjump .b⟩, ⟨rfl, hjump .ae⟩, ⟨rfl, hjump .e⟩, ⟨rfl, hjump .ne⟩,
    ⟨rfl, hjump .be⟩, ⟨rfl, hjump .a⟩, List.forall_mem_nil _⟩

/-- Settles O36: each row is the jump on its condition. -/
theorem signedConditionalJumps : Obligations.SignedConditionalJumps := by
  intro w o s hread pf zf sf of
  have hjump (c : Cond) := completes_of_exec_jump (exec_jcc_done hread c)
  simp only [List.forall_mem_cons]
  exact ⟨⟨rfl, hjump .s⟩, ⟨rfl, hjump .ns⟩, ⟨rfl, hjump .p⟩, ⟨rfl, hjump .np⟩, ⟨rfl, hjump .l⟩, ⟨rfl, hjump .ge⟩,
    ⟨rfl, hjump .le⟩, ⟨rfl, hjump .g⟩, List.forall_mem_nil _⟩

/-- Settles O38. -/
theorem loopFamilyCountsDownRcx : Obligations.LoopFamilyCountsDownRcx := by
  intro w o s hread zf left
  rw [List.forall_mem_cons, List.forall_mem_cons, List.forall_mem_cons]
  exact ⟨completes_of_exec_loopIf hread (fun _ => true) rfl, completes_of_exec_loopIf hread (flagOf .zf) rfl,
    completes_of_exec_loopIf hread (fun f => !flagOf .zf f) rfl, List.forall_mem_nil _⟩

/-- Settles O39: CALL has the frame of its push (20_memory.md R72), RET that of the move of RSP. -/
theorem callAndRetUseTheStack : Obligations.CallAndRetUseTheStack := by
  constructor
  · intro w o s p hread hrb hsb hlen
    obtain ⟨-, -, hdone⟩ := stackPrimitivesCheckTheBarrier.1 8 s.rip s (by decide) hrb
    obtain ⟨u, hpush, hrsp, hregs, hslot, hmem, -, hflags, hengine⟩ := hdone hsb hlen
    exact ⟨_, exec_call_of_push_done hread hpush, jump_rip u _, hslot, hrsp, hregs, hmem, hflags,
      jump_keepsEngine hengine _⟩
  · intro s p hsb hlen
    obtain ⟨t, hexec, hrip, ⟨hrsp, hregs, hmem⟩, hflags, hengine⟩ :=
      completes_of_exec_putReg_jump (exec_ret_done hsb hlen)
    exact ⟨t, hexec, hrip, hrsp, hregs, hmem, hflags, hengine⟩

end Sys2Proof.Machine
end

section
/-! PROOFS. The statements of the FPU family (45_fpu.md): O40, O41, O42, O43 and O55. First what each instruction answers, as
one equation for each way it can end; then runs of loads and pops, over the slots counted from TOP. -/

namespace Sys2Proof.Machine

/-! ### The frame of the FPU instructions -/

/-- A change of the FPU stack alone is in the frame of the FPU instructions. -/
theorem frame_of_fpu (s : State) (fpr : Vector Word 8) (inuse : Vector Bool 8) (top : BitVec 3) :
    let t := { s with fpr := fpr, inuse := inuse, top := top }
    keepsRegs s t ∧ keepsMem s t ∧ t.rip = s.rip ∧ t.rflags = s.rflags ∧ keepsBarriers s t ∧ keepsStatus s t :=
  ⟨fun _ => rfl, fun _ => rfl, rfl, rfl, keepsBarriers_refl s, rfl, rfl, rfl, rfl, rfl, rfl, rfl⟩

/-! ### FLD (R262, R263, R265) -/

/-- A source that may not be read raises, and nothing has changed. -/
theorem readFpuForm_raised {f : FpuForm} {s : State} (h : fpuReadable f s = false) :
    ∃ e, readFpuForm f s = .raised e s := by
  cases f with
  | st i => exact ⟨_, readSt_raised i s h⟩
  | mem a => exact ⟨_, readFpuForm_mem_raised (Nat.lt_of_not_le (of_decide_eq_false h))⟩

section Fld
variable {f : FpuForm} {s : State}

theorem exec_fld_of_unreadable (h : fpuReadable f s = false) : ∃ e, exec (.fld f) s = .next (terminate e s) :=
  (readFpuForm_raised h).imp fun _ => bind_finish_of_raised

theorem exec_fld_of_readable (h : fpuReadable f s = true) : exec (.fld f) s = (fpuPush (fpuHolds f s) s).finish := by
  show ((readFpuForm f s).bind fun v s => fpuPush v s).finish = _
  rw [readFpuForm_done f s h, Res.bind_done]

theorem exec_fld_of_inuse (h : fpuReadable f s = true) (hslot : s.inuseAt (s.top - 1) = true) :
    exec (.fld f) s = .next (terminate .undefinedBehavior s) := by
  rw [exec_fld_of_readable h, fpuPush_raised _ s hslot, Res.finish_raised]

theorem exec_fld_done (h : fpuReadable f s = true) (hslot : s.inuseAt (s.top - 1) = false) :
    exec (.fld f) s =
      .next (({ s with top := s.top - 1 }.putFpr (s.top - 1) (fpuHolds f s)).putInuse (s.top - 1) true) := by
  rw [exec_fld_of_readable h, fpuPush_done _ s hslot, Res.finish_done]

end Fld

/-- Settles O40. -/
theorem fldPushesTheSource : Obligations.FldPushesTheSource := by
  intro f s hread hslot
  refine ⟨_, exec_fld_done hread hslot, rfl, ?_, fun j hj => ?_, fun j => putInuse_inuseAt _ _ _ _,
    frame_of_fpu s _ _ _⟩
  · rw [putInuse_fprAt, putFpr_fprAt, if_pos rfl]
  · rw [putInuse_fprAt, putFpr_fprAt, if_neg hj]; rfl

/-! ### FST and FSTP (R264, R266, R267) -/

/-- The destination of FST and FSTP may be written: a slot always, memory where a write of 8 bytes may be made. -/
def fpuWritable (f : FpuForm) (s : State) : Bool :=
  match f with
  | .st _ => true
  | .mem a => (Place.mem (effAddr a s)).writable .w8 s

/-- The state after the store of FST and FSTP. -/
def fpuStored (f : FpuForm) (s : State) : State :=
  match f with
  | .st i => (s.putFpr (s.top + i) (s.fprAt s.top)).putInuse (s.top + i) true
  | .mem a => placeWritten .w8 (.mem (effAddr a s)) (s.fprAt s.top) s

section Store
variable {f : FpuForm} {s : State}

theorem fpuStore_raised (f : FpuForm) (htop : s.inuseAt s.top = false) :
    fpuStore f s = .raised .undefinedBehavior s := by
  unfold fpuStore
  rw [readSt_raised 0 s (by rwa [add_zero]), Res.bind_raised]

theorem fpuStore_done (htop : s.inuseAt s.top = true) (h : fpuWritable f s = true) :
    fpuStore f s = .done () (fpuStored f s) := by
  unfold fpuStore
  rw [readSt_done 0 s (by rwa [add_zero]), Res.bind_done, add_zero]
  cases f with
  | st i => rfl
  | mem a => exact writePlace_done .w8 (.mem (effAddr a s)) _ s h

theorem fpuStored_top (f : FpuForm) (s : State) : (fpuStored f s).top = s.top := by cases f <;> rfl

/-- The store leaves the top in use. -/
theorem fpuStored_inuseAt_top (f : FpuForm) (htop : s.inuseAt s.top = true) :
    (fpuStored f s).inuseAt s.top = true := by
  cases f with
  | st i =>
    refine (putInuse_inuseAt _ _ _ _).trans ?_
    split
    · rfl
    · exact htop
  | mem a => exact htop

theorem exec_fst_of_empty (f : FpuForm) (htop : s.inuseAt s.top = false) :
    exec (.fst f) s = .next (terminate .undefinedBehavior s) := finish_of_raised (fpuStore_raised f htop)

theorem exec_fstp_of_empty (f : FpuForm) (htop : s.inuseAt s.top = false) :
    exec (.fstp f) s = .next (terminate .undefinedBehavior s) := bind_finish_of_raised (fpuStore_raised f htop)

theorem exec_fst_done (htop : s.inuseAt s.top = true) (h : fpuWritable f s = true) :
    exec (.fst f) s = .next (fpuStored f s) := by
  show (fpuStore f s).finish = _
  rw [fpuStore_done htop h, Res.finish_done]

theorem exec_fstp_done (htop : s.inuseAt s.top = true) (h : fpuWritable f s = true) :
    exec (.fstp f) s = .next { (fpuStored f s).putInuse s.top false with top := s.top + 1 } := by
  show ((fpuStore f s).bind fun _ s => fpuPop s).finish = _
  have hpop := fpuPop_done (fpuStored f s) (by rw [fpuStored_top]; exact fpuStored_inuseAt_top f htop)
  rw [fpuStore_done htop h, Res.bind_done, hpop, fpuStored_top, Res.finish_done]

end Store

/-- Settles O41: FSTP is the store of FST with the top then freed and TOP moved up. -/
theorem fstAndFstpStoreTheTop : Obligations.FstAndFstpStoreTheTop := by
  intro s htop
  have hfpr (i : StIndex) (j : BitVec 3) :
      (fpuStored (.st i) s).fprAt j = if j = s.top + i then s.fprAt s.top else s.fprAt j := putFpr_fprAt s _ j _
  have hinuse (i : StIndex) (j : BitVec 3) :
      (fpuStored (.st i) s).inuseAt j = if j = s.top + i then true else s.inuseAt j := putInuse_inuseAt _ _ j _
  refine ⟨fun i => ?fst, fun i => ?fstp, fun a h => ?mem⟩
  case fst => exact ⟨_, exec_fst_done htop rfl, rfl, hfpr i, hinuse i, frame_of_fpu s _ _ _⟩
  case fstp =>
    refine ⟨_, exec_fstp_done htop rfl, rfl, hfpr i, fun j => ?_, frame_of_fpu s _ _ _⟩
    rw [← hinuse i j]
    exact putInuse_inuseAt _ _ j _
  case mem =>
    obtain ⟨⟨hfpu, hbar, hstatus⟩, hrip, hflags⟩ :=
      placeWritten_keeps .w8 (.mem (effAddr a s)) (s.fprAt s.top) s
    have hgets := placeWritten_gets .w8 (.mem (effAddr a s)) (s.fprAt s.top) s
    exact ⟨⟨_, exec_fst_done (f := .mem a) htop h, hgets, hfpu, hrip, hflags, hbar, hstatus⟩,
      ⟨_, exec_fstp_done (f := .mem a) htop h, hgets, rfl, hfpu.1, fun j => putInuse_inuseAt _ _ j _, hrip, hflags,
        hbar, hstatus⟩⟩

/-! ### Invalid transitions (R262) -/

/-- Settles O55: the source is read first, then the push finds its slot in use; a store reads the top first. -/
theorem invalidFpuTransitionsTerminate : Obligations.InvalidFpuTransitionsTerminate := by
  intro s hrun
  have hstop {i : Instr} (he : exec i s = .next (terminate .undefinedBehavior s)) :
      ∃ t, exec i s = .next t ∧ stopsWith .undefinedBehavior s t := ⟨_, he, terminate_stopsWith _ s hrun⟩
  refine ⟨fun i hempty => hstop ?_, fun i hread hslot => hstop ?_, fun a hlen hslot => hstop ?_,
    fun htop f => ⟨hstop ?_, hstop ?_⟩⟩
  · exact bind_finish_of_raised (readSt_raised i s hempty)
  · exact exec_fld_of_inuse hread hslot
  · exact exec_fld_of_inuse (f := .mem a) (decide_eq_true hlen) hslot
  · exact exec_fst_of_empty f htop
  · exact exec_fstp_of_empty f htop

/-! ### FFREE, FINCSTP, FDECSTP and FINIT (R268 to R271) -/

/-- Settles O42. -/
theorem fpuManagementNeverFaults : Obligations.FpuManagementNeverFaults := by
  intro s
  refine ⟨fun i => ?ffree, ?fincstp, ?fdecstp, ?finit⟩
  case ffree => exact ⟨_, rfl, rfl, rfl, fun j => putInuse_inuseAt s _ j false, frame_of_fpu s _ _ _⟩
  case fincstp => exact ⟨_, rfl, BitVec.toNat_add s.top 1, rfl, rfl, frame_of_fpu s _ _ _⟩
  case fdecstp =>
    refine ⟨_, rfl, ?_, rfl, rfl, frame_of_fpu s _ _ _⟩
    rw [BitVec.toNat_sub, Nat.add_comm]; rfl
  case finit => exact ⟨_, rfl, rfl, rfl, fun j => Vector.getElem_replicate _, frame_of_fpu s _ _ _⟩

/-! ### Runs -/

/-- A run of a list is a step that leaves the engine running, then a run of the rest. -/
theorem runAll_cons_eq_some {i : Instr} {is : List Instr} {s t : State} :
    runAll (i :: is) s = some t ↔ ∃ u, exec i s = .next u ∧ u.running = true ∧ runAll is u = some t := by
  rw [runAll]
  cases exec i s <;> simp

theorem runAll_append_eq_some {is js : List Instr} {s t : State} :
    runAll (is ++ js) s = some t ↔ ∃ u, runAll is s = some u ∧ runAll js u = some t := by
  induction is generalizing s with
  | nil => simp [runAll]
  | cons i is ih =>
    simp only [List.cons_append, runAll_cons_eq_some, ih]
    exact ⟨fun ⟨u, he, hu, v, h, h'⟩ => ⟨v, ⟨u, he, hu, h⟩, h'⟩,
      fun ⟨v, ⟨u, he, hu, h⟩, h'⟩ => ⟨u, he, hu, v, h, h'⟩⟩

/-- A run from a running engine ends with the engine running. -/
theorem runAll_running {is : List Instr} {s t : State} (hrun : s.running = true) (h : runAll is s = some t) :
    t.running = true := by
  induction is generalizing s with
  | nil => rwa [← Option.some.inj h]
  | cons i is ih =>
    obtain ⟨u, -, hu, h⟩ := runAll_cons_eq_some.mp h
    exact ih hu h

theorem terminate_not_running (e : ErrorCode) (s : State) : (terminate e s).running = false := by
  cases h : s.running with
  | true => rw [terminate_running e s h]; rfl
  | false => rwa [terminate_stopped e s h]

/-- An instruction after which the engine runs has not terminated it. -/
theorem exec_ne_terminate_of_running {i : Instr} {s u : State} (h : exec i s = .next u) (hu : u.running = true)
    (e : ErrorCode) : exec i s ≠ .next (terminate e s) := by
  intro he
  have hstop := terminate_not_running e s
  rw [← Host.Outcome.next.inj (h.symm.trans he), hu] at hstop
  exact Bool.noConfusion hstop

/-! ### The slots counted from TOP (R272) -/

/-- A count modulo 8 other than 0 goes down by 1. -/
theorem toNat_sub_one_lt_iff {d : BitVec 3} {n : Nat} (hd : d ≠ 0) : (d - 1).toNat < n ↔ d.toNat < n + 1 := by
  bv_omega

/-- The predecessor of 0 is 7, above every smaller count. -/
theorem ne_zero_of_toNat_sub_one_lt {d : BitVec 3} {n : Nat} (hn : n < 8) (h : (d - 1).toNat < n) : d ≠ 0 := by
  bv_omega

/-- An FLD that completes has found its source readable and its slot free. -/
theorem fld_checks_of_running {f : FpuForm} {s u : State} (h : exec (.fld f) s = .next u) (hu : u.running = true) :
    fpuReadable f s = true ∧ s.inuseAt (s.top - 1) = false := by
  have hne := exec_ne_terminate_of_running h hu
  have hread : fpuReadable f s = true := by
    refine Bool.eq_true_of_not_eq_false fun hf => ?_
    obtain ⟨e, he⟩ := exec_fld_of_unreadable hf
    exact hne e he
  exact ⟨hread, Bool.eq_false_of_not_eq_true fun hslot => hne _ (exec_fld_of_inuse hread hslot)⟩

/-- An FSTP that completes has found the top in use. -/
theorem fstp_checks_of_running {f : FpuForm} {s u : State} (h : exec (.fstp f) s = .next u) (hu : u.running = true) :
    s.inuseAt s.top = true :=
  Bool.eq_true_of_not_eq_false fun htop => exec_ne_terminate_of_running h hu _ (exec_fstp_of_empty f htop)

/-- FSTP ST(0) with the top in use pops it. -/
theorem fstp_st0_pops {s : State} (htop : s.inuseAt s.top = true) :
    ∃ t, exec (.fstp (.st 0)) s = .next t ∧ t.top = s.top + 1 ∧
      (∀ j, t.inuseAt j = if j = s.top then false else s.inuseAt j) ∧ t.running = s.running := by
  obtain ⟨-, hfstp, -⟩ := fstAndFstpStoreTheTop s htop
  obtain ⟨t, hexec, htop', -, hinuse, -, -, -, -, -, hrun, -⟩ := hfstp 0
  refine ⟨t, hexec, htop', fun j => ?_, hrun⟩
  rw [hinuse, add_zero]
  split <;> rfl

/-- Loads that complete put in use the slots below TOP, as many as there are loads. -/
theorem runAll_fld_fills {fs : List FpuForm} {s t : State} (h : runAll (fs.map Instr.fld) s = some t) :
    t.top = s.top - BitVec.ofNat 3 fs.length ∧
    ∀ j, t.inuseAt j = if (s.top - 1 - j).toNat < fs.length then true else s.inuseAt j := by
  induction fs generalizing s with
  | nil => cases h; simp
  | cons f fs ih =>
    obtain ⟨u, hexec, hu, h⟩ := runAll_cons_eq_some.mp h
    obtain ⟨hread, hslot⟩ := fld_checks_of_running hexec hu
    obtain ⟨u', hexec', htop, -, -, hinuse, -⟩ := fldPushesTheSource f s hread hslot
    cases hexec.symm.trans hexec'
    obtain ⟨htop', hinuse'⟩ := ih h
    rw [htop] at htop' hinuse'
    refine ⟨by rw [htop', List.length_cons, BitVec.ofNat_add]; bv_omega, fun j => ?_⟩
    rw [hinuse', hinuse, sub_right_comm, List.length_cons]
    by_cases hj : j = s.top - 1
    · simp [hj]
    · simp only [toNat_sub_one_lt_iff (sub_ne_zero.mpr (Ne.symm hj)), if_neg hj]

/-- Pops that complete free the slots from TOP up, as many as there are pops. -/
theorem runAll_fstp_frees {n : Nat} {s t : State} (h : runAll (List.replicate n (Instr.fstp (.st 0))) s = some t) :
    t.top = s.top + BitVec.ofNat 3 n ∧
    ∀ j, t.inuseAt j = if (j - s.top).toNat < n then false else s.inuseAt j := by
  induction n generalizing s with
  | zero => cases h; simp
  | succ n ih =>
    obtain ⟨u, hexec, hu, h⟩ := runAll_cons_eq_some.mp h
    obtain ⟨u', hexec', htop, hinuse, -⟩ := fstp_st0_pops (fstp_checks_of_running hexec hu)
    cases hexec.symm.trans hexec'
    obtain ⟨htop', hinuse'⟩ := ih h
    rw [htop] at htop' hinuse'
    refine ⟨by rw [htop', BitVec.ofNat_add]; bv_omega, fun j => ?_⟩
    rw [hinuse', hinuse, sub_add_eq_sub_sub]
    by_cases hj : j = s.top
    · simp [hj]
    · simp only [toNat_sub_one_lt_iff (sub_ne_zero.mpr hj), if_neg hj]

theorem effAddr_congr {s t : State} (h : keepsRegs s t) (a : Addr) : effAddr a t = effAddr a s := by
  simp only [effAddr, State.addrReg, h _]

/-- At most eight loads of readable memory onto free slots complete. -/
theorem runAll_fld_mem_completes {as : List Addr} {s : State} (hn : as.length ≤ 8) (hrun : s.running = true)
    (hread : ∀ a ∈ as, (effAddr a s).toNat + 8 ≤ s.len.toNat)
    (hfree : ∀ j, (s.top - 1 - j).toNat < as.length → s.inuseAt j = false) :
    ∃ t, runAll ((as.map FpuForm.mem).map Instr.fld) s = some t := by
  induction as generalizing s with
  | nil => exact ⟨s, rfl⟩
  | cons a as ih =>
    rw [List.length_cons] at hn hfree
    rw [List.forall_mem_cons] at hread
    have hslot : s.inuseAt (s.top - 1) = false := hfree _ (by simp)
    obtain ⟨u, hexec, htop, -, -, hinuse, hregs, -, -, -, ⟨hlen, -⟩, ⟨hu, -⟩⟩ :=
      fldPushesTheSource (.mem a) s (decide_eq_true hread.1) hslot
    rw [hrun] at hu
    obtain ⟨t, h⟩ := ih (s := u) (Nat.le_of_succ_le hn) hu
      (fun b hb => by rw [effAddr_congr hregs, hlen]; exact hread.2 b hb) fun j hj => by
        rw [htop, sub_right_comm] at hj
        have hd := ne_zero_of_toNat_sub_one_lt hn hj
        rw [hinuse, if_neg (Ne.symm (sub_ne_zero.mp hd))]
        exact hfree j ((toNat_sub_one_lt_iff hd).mp hj)
    exact ⟨t, runAll_cons_eq_some.mpr ⟨u, hexec, hu, h⟩⟩

/-- At most eight pops of slots in use complete. -/
theorem runAll_fstp_completes {n : Nat} {s : State} (hn : n ≤ 8) (hrun : s.running = true)
    (hused : ∀ j, (j - s.top).toNat < n → s.inuseAt j = true) :
    ∃ t, runAll (List.replicate n (Instr.fstp (.st 0))) s = some t := by
  induction n generalizing s with
  | zero => exact ⟨s, rfl⟩
  | succ n ih =>
    obtain ⟨u, hexec, htop, hinuse, hu⟩ := fstp_st0_pops (hused s.top (by simp))
    rw [hrun] at hu
    obtain ⟨t, h⟩ := ih (s := u) (Nat.le_of_succ_le hn) hu fun j hj => by
      rw [htop, sub_add_eq_sub_sub] at hj
      have hd := ne_zero_of_toNat_sub_one_lt hn hj
      rw [hinuse, if_neg (sub_ne_zero.mp hd)]
      exact hused j ((toNat_sub_one_lt_iff hd).mp hj)
    exact ⟨t, runAll_cons_eq_some.mpr ⟨u, hexec, hu, h⟩⟩

/-- After eight loads TOP is where it was and every slot is in use. -/
theorem runAll_eight_fld {fs : List FpuForm} {s t : State} (hn : fs.length = 8)
    (h : runAll (fs.map Instr.fld) s = some t) : t.top = s.top ∧ ∀ j, t.inuseAt j = true := by
  obtain ⟨htop, hinuse⟩ := runAll_fld_fills h
  rw [hn] at htop hinuse
  exact ⟨htop.trans (BitVec.sub_zero s.top), fun j => (hinuse j).trans (if_pos (BitVec.isLt _))⟩

/-- Settles O43: eight is the number of slots, so that eight loads or pops run over all of them and TOP comes round. -/
theorem eightPushesFillTheFpuStack : Obligations.EightPushesFillTheFpuStack := by
  refine ⟨fun fs s t hn h => ?restore, fun as s hn hrun hfree hread => ?complete,
    fun fs f s u hn hrun h hmem => ?ninth⟩
  case restore =>
    obtain ⟨u, hpush, hpop⟩ := runAll_append_eq_some.mp h
    obtain ⟨htop, -⟩ := runAll_eight_fld hn hpush
    obtain ⟨htop', hinuse⟩ := runAll_fstp_frees hpop
    exact ⟨(htop'.trans (BitVec.add_zero u.top)).trans htop, fun j => (hinuse j).trans (if_pos (BitVec.isLt _))⟩
  case complete =>
    obtain ⟨u, hpush⟩ := runAll_fld_mem_completes hn.le hrun hread fun j _ => hfree j
    obtain ⟨-, hused⟩ := runAll_eight_fld (by rw [List.length_map, hn]) hpush
    obtain ⟨t, hpop⟩ := runAll_fstp_completes (n := 8) le_rfl (runAll_running hrun hpush) fun j _ => hused j
    rw [List.map_map] at hpush
    exact ⟨t, runAll_append_eq_some.mpr ⟨u, hpush, hpop⟩⟩
  case ninth =>
    obtain ⟨-, hused⟩ := runAll_eight_fld hn h
    have hread : fpuReadable f u = true := by
      cases f with
      | st i => exact hused _
      | mem a => exact decide_eq_true (hmem a rfl)
    exact ⟨_, exec_fld_of_inuse hread (hused _), terminate_stopsWith _ u (runAll_running hrun h)⟩

end Sys2Proof.Machine
end

section
/-! PROOFS. The statements of the exceptions family (60_exceptions.md): O18 and O51. What `Terminate` and `Exit` leave, the
closes by slot index, and the frame of SYSCALL. -/

namespace Sys2Proof.Machine

/-! ### Terminate and Exit (60_exceptions.md R284 to R287) -/

/-- The closes of a termination, as the host sees them (R287). -/
theorem terminate_hostCalls {s : State} (e : ErrorCode) (h : s.running = true) :
    (terminate e s).hostCalls = (closeCalls s.fd).reverse ++ s.hostCalls := by
  rw [terminate_running e s h]; rfl

/-- After a termination no other one, and no exit, has an effect (R286). -/
theorem terminate_stands (e e' : ErrorCode) (v : Word) (s : State) :
    terminate e' (terminate e s) = terminate e s ∧ exitWith v (terminate e s) = terminate e s :=
  ⟨terminate_stopped _ _ (terminate_not_running e s), exitWith_stopped _ _ (terminate_not_running e s)⟩

/-- Settles O18: an exit is a termination with error None of the state that holds the exit value. -/
theorem firstTerminationStands : Obligations.FirstTerminationStands := by
  refine ⟨fun e s => ⟨terminate_stopped e s, fun h => ?_⟩, fun v s => ⟨exitWith_stopped v s, fun h => ?_⟩⟩
  · exact ⟨terminate_stopsWith e s h, terminate_reg e s, terminate_rip e s,
      closeCalls_range s ▸ terminate_hostCalls e h, fun e' v => terminate_stands e e' v s⟩
  · obtain ⟨hrun, hsus, herr, hret, hfd, hmem, hflags, hfpu, hbar⟩ := exitWith_stopsWith v s h
    have hcalls : (exitWith v s).hostCalls = (closeCalls s.fd).reverse ++ s.hostCalls :=
      exitWith_eq_terminate v s h ▸ terminate_hostCalls (s := { s with returnValue := v }) .none h
    exact ⟨hrun, hsus, herr, hret, hfd, exitWith_reg v s, hmem, exitWith_rip v s, hflags, hfpu, hbar,
      closeCalls_range s ▸ hcalls, fun e => terminate_stopped e _ hrun⟩

/-! ### The frame of SYSCALL (R298, R303) -/

/-- What SYSCALL leaves alone, whatever its handler does and however it ends; RIP is the same or one byte back. -/
structure SyscallFrame (s t : State) : Prop where
  regs : keepsRegsBut s.resultReg s t
  rflags : t.rflags = s.rflags
  fpu : keepsFpu s t
  barriers : keepsBarriers s t
  readonly : ∀ a, a < s.rb.toNat → t.byte a = s.byte a
  rip : t.rip = s.rip ∨ (t.rip = s.rip - 1 ∧ t.suspendedRead = true)

theorem terminate_fpu (e : ErrorCode) (s : State) : keepsFpu s (terminate e s) := by
  unfold terminate; split <;> exact ⟨rfl, rfl, rfl⟩

theorem exitWith_fpu (v : Word) (s : State) : keepsFpu s (exitWith v s) := by
  unfold exitWith; split <;> exact ⟨rfl, rfl, rfl⟩

theorem terminate_syscallFrame (e : ErrorCode) (s : State) : SyscallFrame s (terminate e s) where
  regs j _ := terminate_reg e s j
  rflags := terminate_rflags e s
  fpu := terminate_fpu e s
  barriers := (terminate_evolves e s).barriers
  readonly a _ := terminate_byte e s a
  rip := .inl (terminate_rip e s)

/-- The end of a handler applied: only a suspension moves RIP (41_system.md R162). -/
theorem applySysEnd_syscallFrame (v : SysEnd) (s : State) : SyscallFrame s (applySysEnd v s) := by
  cases v with
  | finished => exact ⟨fun _ _ => rfl, rfl, ⟨rfl, rfl, rfl⟩, keepsBarriers_refl s, fun _ _ => rfl, .inl rfl⟩
  | suspend => exact ⟨fun _ _ => rfl, rfl, ⟨rfl, rfl, rfl⟩, keepsBarriers_refl s, fun _ _ => rfl, .inr ⟨rfl, rfl⟩⟩
  | exit v =>
    exact ⟨fun j _ => exitWith_reg v s j, exitWith_rflags v s, exitWith_fpu v s, (exitWith_evolves v s).barriers,
      fun a _ => exitWith_byte v s a, .inl (exitWith_rip v s)⟩

/-- What a handler may do, then what SYSCALL does with its outcome. -/
theorem HandlerFrame.andThen {s u t : State} (h : HandlerFrame s u) (h' : SyscallFrame u t) : SyscallFrame s t := by
  obtain ⟨hregs, hflags, ⟨hfpr, hinuse, htop⟩, hbar, hro, hrip⟩ := h'
  obtain ⟨hfpr₁, hinuse₁, htop₁⟩ := h.fpu
  obtain ⟨-, -, hrb, -, hcfg, -⟩ := h.evolves.barriers
  have hresult : u.resultReg = s.resultReg := congrArg (·.syscalls.result) hcfg
  rw [hresult] at hregs
  rw [h.rip] at hrip
  rw [hrb] at hro
  exact ⟨fun j hj => (hregs j hj).trans (h.regs j hj), hflags.trans h.rflags,
    ⟨hfpr.trans hfpr₁, hinuse.trans hinuse₁, htop.trans htop₁⟩, keepsBarriers_trans h.evolves.barriers hbar,
    fun a ha => (hro a ha).trans (h.evolves.readonly a ha), hrip⟩

theorem execSyscallWith_frame (H : HandlerTable) {s t : State} (h : execSyscallWith H s = .next t) : SyscallFrame s t := by
  rcases execSyscallWith_cases H s with ⟨_, e⟩ | ⟨_, c, u, _, _, hf, e⟩ | ⟨_, v, u, _, _, hf, e⟩ <;>
    obtain rfl := Host.Outcome.next.inj (e.symm.trans h)
  · exact terminate_syscallFrame _ s
  · exact hf.andThen (terminate_syscallFrame c u)
  · exact hf.andThen (applySysEnd_syscallFrame v u)

/-- Settles O51: the handler's part has the frame of every handler, and applying its outcome keeps it. -/
theorem syscallKeepsRegistersFlagsAndFpu : Obligations.SyscallKeepsRegistersFlagsAndFpu := by
  refine ⟨exec_syscall, fun H s t h => ?_⟩
  obtain ⟨hregs, hflags, hfpu, hbar, hro, hrip⟩ := execSyscallWith_frame H h
  exact ⟨hregs, hflags, hfpu, hbar, hro, hrip⟩

end Sys2Proof.Machine
end

section
/-! PROOFS. The services of SYSCALL (60_exceptions.md R297 to R306), first O47 and O49. Each service's pseudocode is read once, as
what it answers where its checks pass; what SYSCALL then leaves is the frame of every handler and the service's own writes. -/

namespace Sys2Proof.Machine

/-! ### What SYSCALL leaves, by its handler's outcome -/

theorem HandlerFrame.running {s t : State} (h : HandlerFrame s t) : t.running = s.running := by
  obtain ⟨hrun, -, -⟩ := h.run
  exact hrun

section Outcome
variable {H : HandlerTable} {v : Service} {s u : State}

theorem handlerFrame_of_done {e : SysEnd} (h : handler H v s = .done e u) : HandlerFrame s u := by
  have hf := handler_frame H v s
  rwa [h] at hf

theorem handlerFrame_of_raised {e : ErrorCode} (h : handler H v s = .raised e u) : HandlerFrame s u := by
  have hf := handler_frame H v s
  rwa [h] at hf

/-- A handler that raises after changes that leave registers and memory alone. -/
theorem handler_raised_stopsWith {e : ErrorCode} (hrun : s.running = true) (hh : handler H v s = .raised e u)
    (hmem : keepsMem s u) (hregs : keepsRegs s u) :
    stopsWith e s (terminate e u) ∧ keepsRegs s (terminate e u) := by
  have hf := handlerFrame_of_raised hh
  obtain ⟨-, -, hret⟩ := hf.run
  exact ⟨terminate_stopsWith_of e s u (hf.running.trans hrun) hmem hf.rflags hf.fpu hf.evolves.barriers hret,
    fun j => (terminate_reg e u j).trans (hregs j)⟩

/-- A handler that raises before it changes anything: the host sees the closes of the termination alone. -/
theorem stops_closes_of_handler_raised {e : ErrorCode} (hrun : s.running = true) (hv : s.service = some v)
    (hh : handler Config.ownHandlers v s = .raised e s) :
    ∃ t, exec .syscall s = .next t ∧ stopsWith e s t ∧ keepsRegs s t ∧
      t.hostCalls = (closeCalls s.fd).reverse ++ s.hostCalls :=
  ⟨_, execSyscallWith_of_handler_raised hv hh, terminate_stopsWith e s hrun, terminate_reg e s, terminate_hostCalls e hrun⟩

/-- A service whose host operation fails (R297 (d), R305). -/
theorem stops_of_host_failure {c : HostCall} (hrun : s.running = true) (hv : s.service = some v)
    (hh : handler Config.ownHandlers v s = .raised .ioFailure (askHost c s).2) :
    ∃ t, exec .syscall s = .next t ∧ stopsWith .ioFailure s t ∧ keepsRegs s t := by
  obtain ⟨hstop, hregs⟩ := handler_raised_stopsWith hrun hh (askHost_byte c s) (askHost_reg c s)
  exact ⟨_, execSyscallWith_of_handler_raised hv hh, hstop, hregs⟩

end Outcome

/-! ### Services that ask the host and report a value (R304, R305) -/

/-- One host operation, then a result made from its answer. -/
def askThenReport (c : HostCall) (result : HostReply → Word) (s : State) : Res SysEnd :=
  (askOrFail c s).bind fun r u => sysResult (result r) u

theorem askThenReport_failed {c : HostCall} (result : HostReply → Word) {s : State}
    (h : (askHost c s).1.failed = true) : askThenReport c result s = .raised .ioFailure (askHost c s).2 := by
  rw [askThenReport, askOrFail_raised c s h, Res.bind_raised]

theorem askThenReport_done {c : HostCall} (result : HostReply → Word) {s : State}
    (h : (askHost c s).1.failed = false) :
    askThenReport c result s = .done .finished ((askHost c s).2.putReg s.resultReg (result (askHost c s).1)) := by
  rw [askThenReport, askOrFail_done c s h, Res.bind_done, sysResult_askHost]

/-- SYSCALL makes this one host call and reports this value, or terminates where the host fails. -/
def ReportsHostCall (s : State) (c : HostCall) (v : Word) : Prop :=
  (s.running = true → (askHost c s).1.failed = true →
    ∃ t, exec .syscall s = .next t ∧ stopsWith .ioFailure s t ∧ keepsRegs s t) ∧
  ((askHost c s).1.failed = false →
    ∃ t, exec .syscall s = .next t ∧ t.reg s.resultReg = v ∧ keepsRegsBut s.resultReg s t ∧ keepsMem s t ∧
      t.rip = s.rip ∧ t.rflags = s.rflags ∧ keepsFpu s t ∧ keepsBarriers s t ∧ keepsRun s t ∧
      t.suspendedRead = s.suspendedRead ∧ t.fd = s.fd ∧ t.hostCalls = c :: s.hostCalls)

theorem reportsHostCall_of_handler {v : Service} {s : State} {c : HostCall} {r : Word} {result : HostReply → Word}
    (hv : s.service = some v) (hh : handler Config.ownHandlers v s = askThenReport c result s)
    (hr : r = result (askHost c s).1) : ReportsHostCall s c r := by
  subst hr
  refine ⟨fun hrun hfail => ?_, fun hok => ?_⟩
  · exact stops_of_host_failure hrun hv (hh.trans (askThenReport_failed result hfail))
  · have hdone := hh.trans (askThenReport_done result hok)
    have hf := handlerFrame_of_done hdone
    exact ⟨_, execSyscallWith_of_handler_done hv hdone, (putReg_reg _ _ _ _).trans (if_pos rfl), hf.regs, askHost_byte c s,
      hf.rip, hf.rflags, hf.fpu, hf.evolves.barriers, hf.run, hf.suspended, askHost_fd c s, askHost_hostCalls c s⟩

/-! ### The checks of a buffer (R302) -/

theorem checkBufRead_done {p n : Nat} {s : State} (h : p + n ≤ s.len.toNat) : checkBufRead p n s = .done () s :=
  if_pos (decide_eq_true h)

theorem checkBufRead_outside {p n : Nat} {s : State} (h : s.len.toNat < p + n) :
    checkBufRead p n s = .raised .outOfBounds s :=
  if_neg (by simpa [State.inBounds] using h)

theorem checkBufWrite_done {p n : Nat} {s : State} (hrb : s.rb.toNat ≤ p) (hlen : p + n ≤ s.len.toNat) :
    checkBufWrite p n s = .done () s := by
  rcases checkWrite_cases p n s with ⟨h, _⟩ | ⟨_, h, _⟩ | ⟨_, _, e⟩
  · omega
  · omega
  · exact e

theorem checkBufWrite_readonly {p n : Nat} {s : State} (h : p < s.rb.toNat) :
    checkBufWrite p n s = .raised .accessViolation s := if_pos h

theorem checkBufWrite_outside {p n : Nat} {s : State} (hrb : s.rb.toNat ≤ p) (hlen : s.len.toNat < p + n) :
    checkBufWrite p n s = .raised .outOfBounds s := by
  rcases checkWrite_cases p n s with ⟨h, _⟩ | ⟨_, _, e⟩ | ⟨_, h, _⟩
  · omega
  · exact e
  · omega

/-! ### The services over a slot in use -/

section Slot
variable {s : State} (hk : s.arg0.toNat < s.nfd) (huse : (s.fdAt s.arg0.toNat).inUse = true)
include hk huse

theorem sysWrite_eq (hlen : s.arg1.toNat + s.arg2.toNat ≤ s.len.toNat) :
    sysWrite s = askThenReport
      (.write (s.fdAt s.arg0.toNat).stream (s.bytes s.arg1.toNat s.arg2.toNat)) (fun _ => s.arg2) s := by
  rw [sysWrite, checkFd_done _ _ hk huse, Res.bind_done, checkBufRead_done hlen, Res.bind_done]
  cases h : (askHost (.write (s.fdAt s.arg0.toNat).stream (s.bytes s.arg1.toNat s.arg2.toNat)) s).1.failed with
  | true => rw [askThenReport_failed _ h, askOrFail_raised _ _ h, Res.bind_raised]
  | false => rw [askThenReport_done _ h, askOrFail_done _ _ h, Res.bind_done, askHost_arg2, sysResult_askHost]

theorem sysFlush_eq : sysFlush s = askThenReport (.flush (s.fdAt s.arg0.toNat).stream) (fun _ => 0) s := by
  rw [sysFlush, checkFd_done _ _ hk huse, Res.bind_done]; rfl

theorem sysTell_eq : sysTell s = askThenReport (.tell (s.fdAt s.arg0.toNat).stream) HostReply.position s := by
  rw [sysTell, checkFd_done _ _ hk huse, Res.bind_done]; rfl

theorem sysSeek_eq {o : SeekOrigin} (ho : originOf s.arg2 = some o) :
    sysSeek s = askThenReport (.seek (s.fdAt s.arg0.toNat).stream s.arg1.toInt o) HostReply.position s := by
  rw [sysSeek, checkFd_done _ _ hk huse, Res.bind_done, ho]; rfl

theorem sysSeek_noOrigin (ho : originOf s.arg2 = none) : sysSeek s = .raised .ioFailure s := by
  rw [sysSeek, checkFd_done _ _ hk huse, Res.bind_done, ho]

end Slot

/-- Settles O47: past its checks each service asks the host once and reports a value. -/
theorem syscallStreamServicesReportTheirResult : Obligations.SyscallStreamServicesReportTheirResult := by
  rintro s _ rfl hk huse ⟨c, r⟩ (⟨hv, hlen, rfl, hr⟩ | ⟨hv, rfl, hr⟩ | ⟨hv, hr, horigin⟩ | ⟨hv, rfl, hr⟩)
  · exact reportsHostCall_of_handler hv (sysWrite_eq hk huse hlen) hr
  · exact reportsHostCall_of_handler hv (sysFlush_eq hk huse) hr
  · rcases horigin with ⟨ho, rfl⟩ | ⟨ho, rfl⟩ | ⟨ho, rfl⟩ <;>
      exact reportsHostCall_of_handler hv (sysSeek_eq hk huse (by rw [ho]; rfl)) hr
  · exact reportsHostCall_of_handler hv (sysTell_eq hk huse) hr

/-! ### The services over paths (R300, R304) -/

theorem sysMove_eq {s : State} {p q : List Byte} (hfs : s.cfg.fsEnabled = true)
    (hp : readCString s.arg0.toNat s = .done p s) (hq : readCString s.arg1.toNat s = .done q s) :
    sysMove s = askThenReport (.move p q) (fun _ => 0) s := by
  rw [sysMove, fsGate_done s hfs, Res.bind_done, hp, Res.bind_done, hq, Res.bind_done]; rfl

theorem sysPath_eq (call : List Byte → HostCall) {s : State} {p : List Byte} (hfs : s.cfg.fsEnabled = true)
    (hp : readCString s.arg0.toNat s = .done p s) : sysPath call s = askThenReport (call p) (fun _ => 0) s := by
  rw [sysPath, fsGate_done s hfs, Res.bind_done, hp, Res.bind_done]; rfl

/-- Settles O49: past the gate and the paths each service asks the host once and reports 0. -/
theorem syscallPathServicesCallTheHost : Obligations.SyscallPathServicesCallTheHost := by
  rintro s p q hfs hp c (⟨hv, hq, rfl⟩ | ⟨hv, rfl⟩ | ⟨hv, rfl⟩ | ⟨hv, rfl⟩)
  · exact reportsHostCall_of_handler hv (sysMove_eq hfs hp hq) rfl
  · exact reportsHostCall_of_handler hv (sysPath_eq .remove hfs hp) rfl
  · exact reportsHostCall_of_handler hv (sysPath_eq .mkdir hfs hp) rfl
  · exact reportsHostCall_of_handler hv (sysPath_eq .rmdir hfs hp) rfl

end Sys2Proof.Machine
end

section
/-! PROOFS. O46: a read past its checks fails at the host, suspends or stores (60_exceptions.md R299, R302, R304). -/

namespace Sys2Proof.Machine

/-- The host call of a read. -/
abbrev readCall (s : State) : HostCall := .read (s.fdAt s.arg0.toNat).stream s.arg2.toNat

/-- The bytes a read takes from the host's answer: at most the count asked for (log 15). -/
def readData (s : State) : List Byte := (askHost (readCall s) s).1.data.take s.arg2.toNat

/-- The state after a read that stores its bytes and reports their number. -/
def readStored (s : State) : State :=
  ((askHost (readCall s) s).2.putBytes s.arg1.toNat (readData s)).putReg s.resultReg (BitVec.ofNat 64 (readData s).length)

section Read
variable {s : State} (hk : s.arg0.toNat < s.nfd) (huse : (s.fdAt s.arg0.toNat).inUse = true)
  (hrb : s.rb.toNat ≤ s.arg1.toNat) (hlen : s.arg1.toNat + s.arg2.toNat ≤ s.len.toNat)
include hk huse hrb hlen

theorem sysRead_failed (h : (askHost (readCall s) s).1.failed = true) :
    sysRead s = .raised .ioFailure (askHost (readCall s) s).2 := by
  rw [sysRead, checkFd_done _ _ hk huse, Res.bind_done, checkBufWrite_done hrb hlen, Res.bind_done,
    askOrFail_raised _ _ h, Res.bind_raised]

/-- Past its checks and the host call a read suspends or stores. -/
theorem sysRead_done (h : (askHost (readCall s) s).1.failed = false) :
    sysRead s = if readData s = [] ∧ (s.fdAt s.arg0.toNat).interactive = true then
      .done .suspend (askHost (readCall s) s).2 else .done .finished (readStored s) := by
  rw [sysRead, checkFd_done _ _ hk huse, Res.bind_done, checkBufWrite_done hrb hlen, Res.bind_done,
    askOrFail_done _ _ h, Res.bind_done]
  simp only [askHost_arg1, askHost_arg2, askHost_fdAt, sysResult, putBytes_resultReg, askHost_resultReg,
    Bool.and_eq_true, List.isEmpty_iff]
  rfl

end Read

/-- The stored bytes of a read, and every other byte as before. -/
theorem readStored_byte (s : State) :
    (∀ j (h : j < (readData s).length), (readStored s).byte (s.arg1.toNat + j) = (readData s)[j]) ∧
    keepsMemBut s.arg1.toNat (readData s).length s (readStored s) := by
  refine ⟨fun j h => putBytes_byte_inside _ _ _ _ h, fun a ha => ?_⟩
  exact (putBytes_byte_outside (askHost (readCall s) s).2 _ _ _ ha).trans (askHost_byte _ s a)

/-- Settles O46: the three outcomes of a read that passes its checks. -/
theorem syscallReadStoresOrSuspends : Obligations.SyscallReadStoresOrSuspends := by
  rintro s _ hv rfl hk huse hrb hlen
  refine ⟨fun hrun hfail => ?failed, fun hok hdata => ?stores, fun hok hnil hint => ?suspends⟩
  case failed => exact stops_of_host_failure hrun hv (sysRead_failed hk huse hrb hlen hfail)
  case stores =>
    have hdone : handler Config.ownHandlers .read s = .done .finished (readStored s) :=
      (sysRead_done hk huse hrb hlen hok).trans (if_neg hdata)
    have hf := handlerFrame_of_done hdone
    obtain ⟨hbytes, hmem⟩ := readStored_byte s
    exact ⟨_, execSyscallWith_of_handler_done hv hdone, (putReg_reg _ _ _ _).trans (if_pos rfl), hf.regs, hbytes, hmem,
      hf.rip, hf.rflags, hf.fpu, hf.evolves.barriers, hf.run, hf.suspended, askHost_fd _ s, askHost_hostCalls _ s⟩
  case suspends =>
    have hdone : handler Config.ownHandlers .read s = .done .suspend (askHost (readCall s) s).2 :=
      (sysRead_done hk huse hrb hlen hok).trans (if_pos ⟨hnil, hint⟩)
    have hf := handlerFrame_of_done hdone
    exact ⟨_, execSyscallWith_of_handler_done hv hdone, congrArg (· - 1) hf.rip, rfl, hf.run, askHost_reg _ s,
      askHost_byte _ s, hf.rflags, hf.fpu, hf.evolves.barriers, askHost_fd _ s, askHost_hostCalls _ s⟩

end Sys2Proof.Machine
end

section
/-! PROOFS. O48: the FD slot that open fills and the one that close frees (60_exceptions.md R301, R304, R306). -/

namespace Sys2Proof.Machine

section Open
variable {s : State} {path : List Byte} {k : Nat} (hfs : s.cfg.fsEnabled = true)
  (hp : readCString s.arg0.toNat s = .done path s) (hk : freeSlot s.fd = some k)
include hfs hp hk

theorem sysOpen_failed (h : (askHost (.openFile path s.arg1) s).1.failed = true) :
    sysOpen s = .raised .ioFailure (askHost (.openFile path s.arg1) s).2 := by
  rw [sysOpen, fsGate_done s hfs, Res.bind_done, hp, Res.bind_done, hk]
  simp only [askOrFail_raised _ _ h, Res.bind_raised]

theorem sysOpen_done (h : (askHost (.openFile path s.arg1) s).1.failed = false) :
    sysOpen s = .done .finished (((askHost (.openFile path s.arg1) s).2.putFd k
      ⟨true, (askHost (.openFile path s.arg1) s).1.stream, false⟩).putReg s.resultReg (BitVec.ofNat 64 k)) := by
  rw [sysOpen, fsGate_done s hfs, Res.bind_done, hp, Res.bind_done, hk]
  simp only [askOrFail_done _ _ h, Res.bind_done, sysResult, putFd_resultReg, askHost_resultReg]

end Open

/-- The state after the host's close of slot `k`: the slot is free, whatever the host answered. -/
def closedAt (k : Nat) (s : State) : State :=
  (askHost (.close (s.fdAt k).stream) s).2.putFd k (closedSlot (s.fdAt k))

theorem closedAt_fdAt {k : Nat} {s : State} (hk : k < s.nfd) (j : Nat) :
    (closedAt k s).fdAt j = if k = j then closedSlot (s.fdAt k) else s.fdAt j := by
  simp [closedAt, hk]

section Close
variable {s : State} (hk : s.arg0.toNat < s.nfd) (huse : (s.fdAt s.arg0.toNat).inUse = true)
include hk huse

theorem sysClose_failed (h : (askHost (.close (s.fdAt s.arg0.toNat).stream) s).1.failed = true) :
    sysClose s = .raised .ioFailure (closedAt s.arg0.toNat s) := by
  rw [sysClose, checkFd_done _ _ hk huse, Res.bind_done]
  simp only [h, if_true, askHost_fdAt]
  rfl

theorem sysClose_done (h : (askHost (.close (s.fdAt s.arg0.toNat).stream) s).1.failed = false) :
    sysClose s = .done .finished ((closedAt s.arg0.toNat s).putReg s.resultReg 0) := by
  rw [sysClose, checkFd_done _ _ hk huse, Res.bind_done]
  simp only [h, Bool.false_eq_true, if_false, askHost_fdAt, sysResult, putFd_resultReg, askHost_resultReg]
  rfl

end Close

/-- The closes of a termination after slot `k` was closed are those of the other slots in use (R306). -/
theorem closeCalls_closedAt {k : Nat} {s : State} (hk : k < s.nfd) :
    (closeCalls (closedAt k s).fd).reverse =
      ((List.range s.nfd).reverse.filter fun j => j != k && (s.fdAt j).inUse).map
        fun j => HostCall.close (s.fdAt j).stream := by
  have hnfd : (closedAt k s).nfd = s.nfd := by simp [closedAt]
  have huse (j : Nat) : ((closedAt k s).fdAt j).inUse = (j != k && (s.fdAt j).inUse) := by
    rw [closedAt_fdAt hk]
    by_cases h : k = j
    · subst h; simp [closedSlot]
    · simp [h, Ne.symm h]
  have hstream (j : Nat) : ((closedAt k s).fdAt j).stream = (s.fdAt j).stream := by
    rw [closedAt_fdAt hk]
    by_cases h : k = j
    · subst h; simp [closedSlot]
    · simp [h]
  simp only [closeCalls_range, hnfd, huse, hstream]

/-- Settles O48: open writes the lowest free slot, close frees its own before the host's failure is looked at. -/
theorem syscallOpenAndCloseManageSlots : Obligations.SyscallOpenAndCloseManageSlots := by
  constructor
  · intro s path k hv hfs hp hk hfree hlow
    have hslot := freeSlot_lowest s k hk hfree hlow
    refine ⟨fun hrun hfail => ?failed, fun hok => ?opened⟩
    case failed => exact stops_of_host_failure hrun hv (sysOpen_failed hfs hp hslot hfail)
    case opened =>
      have hdone : handler Config.ownHandlers .openFile s = _ := sysOpen_done hfs hp hslot hok
      have hf := handlerFrame_of_done hdone
      refine ⟨_, execSyscallWith_of_handler_done hv hdone, (putReg_reg _ _ _ _).trans (if_pos rfl), hf.regs,
        askHost_byte _ s, ?_, fun j hj => ?_, askHost_hostCalls _ s, hf.rip, hf.rflags, hf.fpu, hf.evolves.barriers,
        hf.run, hf.suspended⟩
      · simp [applySysEnd, hk]
      · simp [applySysEnd, Ne.symm hj]
  · rintro s _ hv rfl hk huse
    refine ⟨fun hrun hfail => ?failed, fun hok => ?closed⟩
    case failed =>
      have hraised : handler Config.ownHandlers .close s = _ := sysClose_failed hk huse hfail
      have hrunning := (handlerFrame_of_raised hraised).running.trans hrun
      obtain ⟨hstop, hregs⟩ := handler_raised_stopsWith hrun hraised (askHost_byte _ s) (askHost_reg _ s)
      refine ⟨_, execSyscallWith_of_handler_raised hv hraised, hstop, hregs, ?_⟩
      rw [terminate_hostCalls _ hrunning, closeCalls_closedAt hk]
      exact congrArg _ (askHost_hostCalls _ s)
    case closed =>
      have hdone : handler Config.ownHandlers .close s = _ := sysClose_done hk huse hok
      have hf := handlerFrame_of_done hdone
      refine ⟨_, execSyscallWith_of_handler_done hv hdone, (putReg_reg _ _ _ _).trans (if_pos rfl), hf.regs,
        askHost_byte _ s, ?_, fun j hj => ?_, askHost_hostCalls _ s, hf.rip, hf.rflags, hf.fpu, hf.evolves.barriers,
        hf.run, hf.suspended⟩
      · exact congrArg FdSlot.inUse ((closedAt_fdAt hk _).trans (if_pos rfl))
      · exact (closedAt_fdAt hk j).trans (if_neg (Ne.symm hj))

end Sys2Proof.Machine
end

section
/-! PROOFS. O50: where a service stops before it asks the host (60_exceptions.md R297, R300 to R302). -/

namespace Sys2Proof.Machine

theorem bind_of_raised {α β : Type} {r : Res α} {k : α → State → Res β} {e : ErrorCode} {u : State}
    (h : r = .raised e u) : r.bind k = .raised e u := by rw [h, Res.bind_raised]

/-- A path with no zero byte below the buffer's end (20_memory.md R68). -/
theorem readCString_unterminated {p : Nat} {s : State} (h : ∀ a, p ≤ a → a < s.len.toNat → s.byte a ≠ 0) :
    readCString p s = .raised .outOfBounds s := by
  obtain ⟨-, hnone, -⟩ := cStringPrimitives
  exact hnone p s h

section Checks
variable {H : HandlerTable} {v : Service} {s : State} {e : ErrorCode}

/-- The services that take an FD check it first (R297). -/
theorem handler_of_checkFd_raised (hv : v ∈ [Service.read, .write, .close, .flush, .seek, .tell])
    (h : checkFd s.arg0 s = .raised e s) : handler H v s = .raised e s := by
  simp only [List.mem_cons, List.not_mem_nil, or_false] at hv
  rcases hv with rfl | rfl | rfl | rfl | rfl | rfl <;> exact bind_of_raised h

/-- The services over paths look at FS_ENABLED first (R300). -/
theorem handler_of_fsGate_raised (hv : v ∈ [Service.openFile, .move, .remove, .mkdir, .rmdir])
    (h : fsGate s = .raised e s) : handler H v s = .raised e s := by
  simp only [List.mem_cons, List.not_mem_nil, or_false] at hv
  rcases hv with rfl | rfl | rfl | rfl | rfl <;> exact bind_of_raised h

/-- Past the gate they read the first path (20_memory.md R68). -/
theorem handler_of_path_raised (hv : v ∈ [Service.openFile, .move, .remove, .mkdir, .rmdir])
    (hfs : s.cfg.fsEnabled = true) (h : readCString s.arg0.toNat s = .raised e s) : handler H v s = .raised e s := by
  have hgate {k : Unit → State → Res SysEnd} (hk : k () s = .raised e s) : (fsGate s).bind k = .raised e s := by
    rw [fsGate_done s hfs, Res.bind_done, hk]
  simp only [List.mem_cons, List.not_mem_nil, or_false] at hv
  rcases hv with rfl | rfl | rfl | rfl | rfl <;> exact hgate (bind_of_raised h)

theorem sysRead_of_buffer_raised (hk : s.arg0.toNat < s.nfd) (huse : (s.fdAt s.arg0.toNat).inUse = true)
    (h : checkBufWrite s.arg1.toNat s.arg2.toNat s = .raised e s) : sysRead s = .raised e s := by
  rw [sysRead, checkFd_done _ _ hk huse, Res.bind_done, h, Res.bind_raised]

theorem sysWrite_of_buffer_raised (hk : s.arg0.toNat < s.nfd) (huse : (s.fdAt s.arg0.toNat).inUse = true)
    (h : checkBufRead s.arg1.toNat s.arg2.toNat s = .raised e s) : sysWrite s = .raised e s := by
  rw [sysWrite, checkFd_done _ _ hk huse, Res.bind_done, h, Res.bind_raised]

theorem originOf_eq_none {v : Word} (h0 : v ≠ 0) (h1 : v ≠ 1) (h2 : v ≠ 2) : originOf v = none := by
  rw [originOf, if_neg h0, if_neg h1, if_neg h2]

theorem sysOpen_full {path : List Byte} (hfs : s.cfg.fsEnabled = true) (hp : readCString s.arg0.toNat s = .done path s)
    (hfull : freeSlot s.fd = none) : sysOpen s = .raised .insufficientFds s := by
  rw [sysOpen, fsGate_done s hfs, Res.bind_done, hp, Res.bind_done, hfull]

theorem sysMove_of_target_raised {path : List Byte} (hfs : s.cfg.fsEnabled = true)
    (hp : readCString s.arg0.toNat s = .done path s) (h : readCString s.arg1.toNat s = .raised e s) :
    sysMove s = .raised e s := by
  rw [sysMove, fsGate_done s hfs, Res.bind_done, hp, Res.bind_done, h, Res.bind_raised]

end Checks

/-- Settles O50: each check raises in the state SYSCALL was given. -/
theorem syscallChecksComeBeforeTheHost : Obligations.SyscallChecksComeBeforeTheHost := by
  intro s hrun stops
  refine ⟨fun v hmem hv => ⟨fun hk => ?range, fun hk hfree => ?unused⟩,
    fun hk huse => ⟨fun hv hrb => ?readonly, fun hv hrb hlen => ?readBuffer, fun hv hlen => ?writeBuffer,
      fun hv h0 h1 h2 => ?origin⟩,
    fun v hmem hv => ⟨fun hfs => ?gate, fun hfs hpath => ?path⟩,
    fun path hfs hp => ⟨fun hv hfull => ?full, fun hv hpath => ?target⟩⟩
  case range =>
    exact stops_closes_of_handler_raised hrun hv (handler_of_checkFd_raised hmem (checkFd_outOfBounds _ s hk))
  case unused =>
    exact stops_closes_of_handler_raised hrun hv (handler_of_checkFd_raised hmem (checkFd_free _ s hk hfree))
  case readonly =>
    exact stops_closes_of_handler_raised hrun hv (sysRead_of_buffer_raised hk huse (checkBufWrite_readonly hrb))
  case readBuffer =>
    exact stops_closes_of_handler_raised hrun hv (sysRead_of_buffer_raised hk huse (checkBufWrite_outside hrb hlen))
  case writeBuffer =>
    exact stops_closes_of_handler_raised hrun hv (sysWrite_of_buffer_raised hk huse (checkBufRead_outside hlen))
  case origin =>
    exact stops_keepsRegs_of_exec_terminates hrun
      (execSyscallWith_of_handler_raised hv (sysSeek_noOrigin hk huse (originOf_eq_none h0 h1 h2)))
  case gate => exact stops_closes_of_handler_raised hrun hv (handler_of_fsGate_raised hmem (fsGate_raised s hfs))
  case path =>
    exact stops_closes_of_handler_raised hrun hv (handler_of_path_raised hmem hfs (readCString_unterminated hpath))
  case full => exact stops_closes_of_handler_raised hrun hv (sysOpen_full hfs hp (freeSlot_full s hfull))
  case target =>
    exact stops_closes_of_handler_raised hrun hv (sysMove_of_target_raised hfs hp (readCString_unterminated hpath))

end Sys2Proof.Machine
end

section
/-! PROOFS. O17 and O19: how a tick can change the engine state (40_engine.md R140). Of all instructions only SYSCALL suspends,
and every instruction that stops the engine does so by `Terminate` or `Exit`, which free every slot. -/

namespace Sys2Proof.Machine

/-! ### Pieces that keep the engine ready -/

/-- A piece of pseudocode that, raised or not, ends with the engine ready or not as `s` is. -/
def Res.KeepsReady {α : Type} (s : State) (r : Res α) : Prop := r.Ends fun t => t.ready = s.ready

theorem Res.KeepsReady.bind {α β : Type} {s : State} {r : Res α} {k : α → State → Res β}
    (h : r.KeepsReady s) (hk : ∀ v t, (k v t).KeepsReady t) : (r.bind k).KeepsReady s :=
  Res.Ends.bind h fun v t (e : t.ready = s.ready) => by
    have hv : (k v t).Ends fun u => u.ready = t.ready := hk v t
    rwa [e] at hv

theorem HandlerFrame.ready {s t : State} (h : HandlerFrame s t) : t.ready = s.ready := by
  rw [State.ready, h.running, h.suspended, State.ready]

/-- What has the frame of a handler leaves the engine ready or not as it was. -/
theorem Res.Ends.keepsReady {α : Type} {s : State} {r : Res α} (h : r.Ends (HandlerFrame s)) :
    r.KeepsReady s := by
  cases r <;> exact HandlerFrame.ready h

theorem push_keepsReady (n : Nat) (v : BitVec (8 * n)) (s : State) : (push n v s).KeepsReady s := by
  rcases push_cases n v s with ⟨_, e⟩ | ⟨_, _, e⟩ | ⟨_, _, _, e⟩ | ⟨_, _, _, e⟩ <;> rw [e] <;> rfl

theorem pop_keepsReady (n : Nat) (s : State) : (pop n s).KeepsReady s := by
  rcases pop_cases n s with ⟨_, e⟩ | ⟨_, _, e⟩ | ⟨_, _, e⟩ <;> rw [e] <;> rfl

theorem readPlace_keepsReady (w : Width) (p : Place) (s : State) : (readPlace w p s).KeepsReady s := by
  cases p with
  | reg i => rfl
  | mem a => exact (memRead_frame _ _ s).keepsReady

theorem writePlace_keepsReady (w : Width) (p : Place) (v : BitVec w.bits) (s : State) :
    (writePlace w p v s).KeepsReady s := by
  cases p with
  | reg i => rfl
  | mem a => exact (memWrite_frame _ _ v s).keepsReady

theorem readOperand_keepsReady (w : Width) (o : Operand) (s : State) : (readOperand w o s).KeepsReady s := by
  cases o with
  | reg r => rfl
  | imm v => rfl
  | mem a => exact (memRead_frame _ _ s).keepsReady

theorem readTarget_keepsReady (w : Width) (o : Operand) (s : State) : (readTarget w o s).KeepsReady s :=
  (readOperand_keepsReady w o s).bind fun _ _ => rfl

theorem readBoth_keepsReady (w : Width) (f : BinForm) (s : State) : (readBoth w f s).KeepsReady s :=
  (readPlace_keepsReady _ _ s).bind fun _ _ => (readOperand_keepsReady _ _ _).bind fun _ _ => rfl

theorem binWrite_keepsReady (w : Width) (f : BinForm)
    (op : BitVec w.bits → BitVec w.bits → BitVec w.bits × FlagSet) (s : State) : (binWrite w f op s).KeepsReady s :=
  (readBoth_keepsReady w f s).bind fun _ _ => (writePlace_keepsReady _ _ _ _).bind fun _ _ => rfl

theorem binLogic_keepsReady (w : Width) (f : BinForm) (op : BitVec w.bits → BitVec w.bits → BitVec w.bits)
    (s : State) : (binLogic w f op s).KeepsReady s :=
  (readBoth_keepsReady w f s).bind fun _ _ => (writePlace_keepsReady _ _ _ _).bind fun _ _ => rfl

theorem unWrite_keepsReady (w : Width) (d : RegMem) (op : BitVec w.bits → BitVec w.bits)
    (fl : BitVec w.bits → FlagSet) (s : State) : (unWrite w d op fl s).KeepsReady s :=
  (readPlace_keepsReady _ _ s).bind fun _ _ => (writePlace_keepsReady _ _ _ _).bind fun _ _ => rfl

theorem jumpIf_keepsReady (c : Cond) (w : Width) (o : Operand) (s : State) :
    (jumpIf c w o s).KeepsReady s := by
  refine (readTarget_keepsReady w o s).bind fun v t => ?_
  show (if _ then _ else _ : State).ready = t.ready
  split <;> rfl

theorem loopIf_keepsReady (test : Word → Bool) (w : Width) (o : Operand) (s : State) :
    (loopIf test w o s).KeepsReady s := by
  refine (readTarget_keepsReady w o s).bind fun v t => ?_
  show (if _ then _ else _ : State).ready = t.ready
  split <;> rfl

theorem readSt_keepsReady (i : StIndex) (s : State) : (readSt i s).KeepsReady s := by
  cases h : s.inuseAt (s.top + i) with
  | true => rw [readSt_done i s h]; rfl
  | false => rw [readSt_raised i s h]; rfl

theorem readFpuForm_keepsReady (f : FpuForm) (s : State) : (readFpuForm f s).KeepsReady s := by
  cases f with
  | st i => exact readSt_keepsReady i s
  | mem a => exact (memRead_frame _ _ s).keepsReady

theorem fpuPush_keepsReady (v : Word) (s : State) : (fpuPush v s).KeepsReady s := by
  cases h : s.inuseAt (s.top - 1) with
  | true => rw [fpuPush_raised v s h]; rfl
  | false => rw [fpuPush_done v s h]; rfl

theorem fpuPop_keepsReady (s : State) : (fpuPop s).KeepsReady s := by
  cases h : s.inuseAt s.top with
  | true => rw [fpuPop_done s h]; rfl
  | false => rw [fpuPop_raised s h]; rfl

theorem fpuStore_keepsReady (f : FpuForm) (s : State) : (fpuStore f s).KeepsReady s := by
  refine (readSt_keepsReady 0 s).bind fun v t => ?_
  cases f with
  | st i => rfl
  | mem a => exact (memWrite_frame (effAddr a t).toNat 8 v t).keepsReady

/-! ### What an instruction does to a ready engine -/

/-- Stopped, not suspended, and every FD slot free: what `Terminate` and `Exit` leave of a running engine. -/
structure ShutDown (t : State) : Prop where
  stopped : t.running = false
  notSuspended : t.suspendedRead = false
  fdsFree : ∀ k, (t.fdAt k).inUse = false

theorem terminate_shutDown (e : ErrorCode) {s : State} (h : s.running = true) : ShutDown (terminate e s) := by
  obtain ⟨hrun, hsus, -, -, hfd, -⟩ := terminate_stopsWith e s h
  exact ⟨hrun, hsus, hfd⟩

theorem exitWith_shutDown (v : Word) {s : State} (h : s.running = true) : ShutDown (exitWith v s) :=
  exitWith_eq_terminate v s h ▸ terminate_shutDown .none (s := { s with returnValue := v }) h

theorem running_of_ready {s : State} (h : s.ready = true) : s.running = true := ((ready_iff s).mp h).1

theorem finish_ready_or_shutDown {r : Res Unit} {s t : State} (hs : s.ready = true) (e : r.finish = .next t)
    (h : r.KeepsReady s) : t.ready = true ∨ ShutDown t := by
  cases r with
  | done v u => cases e; exact .inl (h.trans hs)
  | raised c u => cases e; exact .inr (terminate_shutDown c (running_of_ready (h.trans hs)))

/-- No instruction but SYSCALL suspends, and one that stops the engine terminates it. -/
theorem exec_ready_or_shutDown {i : Instr} {s t : State} (hi : i ≠ .syscall) (hs : s.ready = true)
    (e : exec i s = .next t) : t.ready = true ∨ ShutDown t := by
  cases i with
  | syscall => exact absurd rfl hi
  | nop | lea w r a | ffree j | fincstp | fdecstp | finit => cases e; exact .inl hs
  | hlt => cases e; exact .inr (terminate_shutDown .abort (running_of_ready hs))
  | pushf => exact finish_ready_or_shutDown hs e (push_keepsReady _ _ s)
  | popf => exact finish_ready_or_shutDown hs e ((pop_keepsReady _ s).bind fun _ _ => rfl)
  | mov w f =>
    exact finish_ready_or_shutDown hs e
      ((readOperand_keepsReady _ _ s).bind fun _ _ => writePlace_keepsReady _ _ _ _)
  | push w v =>
    exact finish_ready_or_shutDown hs e ((readOperand_keepsReady _ _ s).bind fun _ _ => push_keepsReady _ _ _)
  | pop w d =>
    exact finish_ready_or_shutDown hs e ((pop_keepsReady _ s).bind fun _ _ => writePlace_keepsReady _ _ _ _)
  | jmp w o => exact finish_ready_or_shutDown hs e ((readTarget_keepsReady _ _ s).bind fun _ _ => rfl)
  | jo w o | jno w o | jb w o | jae w o | je w o | jne w o | jbe w o | ja w o | js w o | jns w o | jp w o | jnp w o
  | jl w o | jge w o | jle w o | jg w o => exact finish_ready_or_shutDown hs e (jumpIf_keepsReady _ w o s)
  | loop w o | loope w o | loopne w o => exact finish_ready_or_shutDown hs e (loopIf_keepsReady _ w o s)
  | call w o =>
    exact finish_ready_or_shutDown hs e
      ((readTarget_keepsReady _ _ s).bind fun _ _ => (push_keepsReady _ _ _).bind fun _ _ => rfl)
  | ret => exact finish_ready_or_shutDown hs e ((pop_keepsReady _ s).bind fun _ _ => rfl)
  | add w f | sub w f => exact finish_ready_or_shutDown hs e (binWrite_keepsReady w f _ s)
  | and w f | or w f | xor w f => exact finish_ready_or_shutDown hs e (binLogic_keepsReady w f _ s)
  | cmp w f | test w f => exact finish_ready_or_shutDown hs e ((readBoth_keepsReady w f s).bind fun _ _ => rfl)
  | inc w d | dec w d | neg w d | not w d => exact finish_ready_or_shutDown hs e (unWrite_keepsReady w d _ _ s)
  | fld f =>
    exact finish_ready_or_shutDown hs e ((readFpuForm_keepsReady f s).bind fun _ _ => fpuPush_keepsReady _ _)
  | fst f => exact finish_ready_or_shutDown hs e (fpuStore_keepsReady f s)
  | fstp f =>
    exact finish_ready_or_shutDown hs e ((fpuStore_keepsReady f s).bind fun _ _ => fpuPop_keepsReady _)

/-- SYSCALL on a ready engine leaves it ready, shuts it down, or suspends it (41_system.md R162). -/
theorem execSyscallWith_of_ready {H : HandlerTable} {s t : State} (hs : s.ready = true)
    (e : execSyscallWith H s = .next t) :
    t.ready = true ∨ ShutDown t ∨ ∃ u, HandlerFrame s u ∧ t = applySysEnd .suspend u := by
  rcases execSyscallWith_cases H s with ⟨_, e'⟩ | ⟨_, c, u, _, _, hf, e'⟩ | ⟨_, v, u, _, _, hf, e'⟩ <;>
    obtain rfl := Host.Outcome.next.inj (e'.symm.trans e)
  · exact .inr (.inl (terminate_shutDown _ (running_of_ready hs)))
  · exact .inr (.inl (terminate_shutDown c (running_of_ready (hf.ready.trans hs))))
  · cases v with
    | finished => exact .inl (hf.ready.trans hs)
    | suspend => exact .inr (.inr ⟨u, hf, rfl⟩)
    | exit v => exact .inr (.inl (exitWith_shutDown v (running_of_ready (hf.ready.trans hs))))

/-- `t` is `s` after a tick that fetched a SYSCALL, ran its handler and suspended. -/
structure SuspendedBy (s t : State) (rest : List Byte) (u : State) : Prop where
  mayFetch : s.mayFetch = true
  decoded : decodeAt s = .ok .syscall rest
  handled : HandlerFrame (s.advanceTo rest) u
  suspended : t = applySysEnd .suspend u

theorem SuspendedBy.running {s t u : State} {rest : List Byte} (h : SuspendedBy s t rest u) (hs : s.ready = true) :
    t.running = true := by
  obtain ⟨-, -, hf, rfl⟩ := h
  exact running_of_ready (s := u) (hf.ready.trans hs)

/-- A tick of a ready engine leaves it ready, shuts it down, or suspends it at a SYSCALL. -/
theorem step_of_ready {s t : State} (hs : s.ready = true) (e : step s = .next t) :
    t.ready = true ∨ ShutDown t ∨ ∃ rest u, SuspendedBy s t rest u := by
  rcases step_cases s with ⟨h, _⟩ | ⟨_, _, e'⟩ | ⟨_, _, _, rest, _, e'⟩ | ⟨_, hfetch, i, rest, hd, e'⟩
  · exact absurd (hs.symm.trans h) (by decide)
  · cases e'.symm.trans e
    exact .inr (.inl (terminate_shutDown _ (running_of_ready hs)))
  · cases e'.symm.trans e
    exact .inr (.inl (terminate_shutDown _ (running_of_ready hs)))
  · have hexec : exec i (s.advanceTo rest) = .next t := e'.symm.trans e
    have hs : (s.advanceTo rest).ready = true := hs
    by_cases hi : i = .syscall
    · subst hi
      exact (execSyscallWith_of_ready hs hexec).imp_right
        (.imp_right fun ⟨u, hf, ht⟩ => ⟨rest, u, hfetch, hd, hf, ht⟩)
    · exact (exec_ready_or_shutDown hi hs hexec).imp_right .inl

/-- Settles O17: a tick of a ready engine that stops it has shut it down; any other tick changes nothing. -/
theorem stoppingClosesEveryDescriptor : Obligations.StoppingClosesEveryDescriptor := by
  intro s t hrun e hstop
  cases hs : s.ready with
  | false =>
    cases (step_of_not_ready hs).symm.trans e
    exact absurd (hrun.symm.trans hstop) (by decide)
  | true =>
    rcases step_of_ready hs e with ht | ht | ⟨rest, u, h⟩
    · exact absurd ((running_of_ready ht).symm.trans hstop) (by decide)
    · exact ⟨ht.notSuspended, ht.fdsFree⟩
    · exact absurd ((h.running hs).symm.trans hstop) (by decide)

/-! ### The tick after a resume (R299, R312) -/

theorem encode_syscall : encode .syscall = [0x02] := rfl

/-- Where the decoder reads SYSCALL, its one byte stands in the buffer at RIP, and the fetch moves RIP past it. -/
theorem syscall_fetched {s : State} {rest : List Byte} (h : decodeAt s = .ok .syscall rest) :
    s.rip.toNat < s.len.toNat ∧ s.byte s.rip.toNat = 0x02 ∧ (s.advanceTo rest).rip = s.rip + 1 := by
  obtain ⟨-, hwin⟩ := decodedBytesAreTheEncoding _ _ _ h
  rw [encode_syscall, List.singleton_append] at hwin
  have hlen : s.rip.toNat < s.len.toNat := by
    have := congrArg List.length hwin
    rw [fetchWindow, bytes_length, List.length_cons] at this
    omega
  obtain ⟨rest', hwin'⟩ := fetchWindow_eq_cons hlen
  refine ⟨hlen, (List.cons.inj (hwin'.symm.trans hwin)).1, ?_⟩
  rw [advanceTo_rip, hwin, List.length_cons, Nat.add_sub_cancel_left]; rfl

/-- A ready engine with SYSCALL's byte at a RIP it may fetch from runs SYSCALL. -/
theorem step_syscall {s : State} (hs : s.ready = true) (hfetch : s.mayFetch = true) (hlen : s.rip.toNat < s.len.toNat)
    (hbyte : s.byte s.rip.toNat = 0x02) : step s = exec .syscall { s with rip := s.rip + 1 } := by
  obtain ⟨hrun, hsus⟩ := (ready_iff s).mp hs
  refine stepRunsTheEncodedInstruction s .syscall hrun hsus ((mayFetch_iff s).mp hfetch) rfl hlen fun k hk => ?_
  obtain rfl : k = 0 := Nat.lt_one_iff.mp hk
  exact hbyte

/-- A tick that suspends keeps the buffer's length, EB and every byte below RB, and puts RIP back. -/
theorem SuspendedBy.keeps {s t u : State} {rest : List Byte} (h : SuspendedBy s t rest u) :
    t.rip = s.rip ∧ t.len = s.len ∧ t.eb = s.eb ∧ ∀ a, a < s.rb.toNat → t.byte a = s.byte a := by
  obtain ⟨-, hd, hf, rfl⟩ := h
  obtain ⟨-, -, hrip⟩ := syscall_fetched hd
  obtain ⟨hlen, heb, -⟩ := hf.evolves.barriers
  refine ⟨?_, hlen, heb, hf.evolves.readonly⟩
  show u.rip - 1 = s.rip
  rw [hf.rip, hrip]
  exact BitVec.add_sub_cancel _ _

theorem resumeSuspendedRead_of_suspended {s : State} (hrun : s.running = true) (hsus : s.suspendedRead = true) :
    resumeSuspendedRead s = { s with suspendedRead := false } := by
  rw [resumeSuspendedRead, hrun, hsus]; rfl

theorem resumeSuspendedRead_of_not_suspended {s : State} (h : s.running = false ∨ s.suspendedRead = false) :
    resumeSuspendedRead s = s := by
  rcases h with h | h <;> simp [resumeSuspendedRead, h]

/-- Settles O19: the opcode byte lies below EB, so below RB, and no handler wrote it. -/
theorem resumeClearsTheSuspension : Obligations.ResumeClearsTheSuspension := by
  refine ⟨fun s => ⟨resumeSuspendedRead_of_suspended, resumeSuspendedRead_of_not_suspended⟩,
    fun s t hrun hsus hbar e hts => ?_⟩
  have hs : s.ready = true := (ready_iff s).mpr ⟨hrun, hsus⟩
  rcases step_of_ready hs e with ht | ht | ⟨rest, u, h⟩
  · obtain ⟨-, hnot⟩ := (ready_iff t).mp ht
    exact absurd (hnot.symm.trans hts) (by decide)
  · exact absurd (ht.notSuspended.symm.trans hts) (by decide)
  · obtain ⟨hrip, hlen, heb, hro⟩ := h.keeps
    obtain ⟨hin, hbyte, -⟩ := syscall_fetched h.decoded
    have hfetch : s.rip.toNat < s.eb.toNat := (mayFetch_iff s).mp h.mayFetch
    have htrun := h.running hs
    refine ⟨hrip, ?_⟩
    rw [resumeSuspendedRead_of_suspended htrun hts]
    refine step_syscall ((ready_iff _).mpr ⟨htrun, rfl⟩) ((mayFetch_iff _).mpr ?_) ?_ ?_
    · show t.rip.toNat < t.eb.toNat
      rwa [hrip, heb]
    · show t.rip.toNat < t.len.toNat
      rwa [hrip, hlen]
    · show t.byte t.rip.toNat = 0x02
      rw [hrip, hro _ (Nat.lt_of_lt_of_le hfetch hbar), hbyte]

end Sys2Proof.Machine
end

section
/-! PROOFS. The image (70_reset_and_hazards.md R330 to R332): O59 and O60. The header is a list of words, and a file that starts
with the words of an image and goes on with its content passes the checks and parses to it. -/

namespace Sys2Proof.Machine

/-- Settles O60: the tests of `checkImage`, each decided by the clause's premises. -/
theorem imageChecksRunInOrder : Obligations.ImageChecksRunInOrder := by
  intro P f word
  refine ⟨rfl, fun h => if_pos h, fun h hm => ?_, fun h hm hs => ?_, fun h hm hv => ?_, fun h hm hv hs => ?_,
    fun h hm hv hs => ?_⟩ <;> unfold checkImage headerWord
  · rw [if_neg (by omega), if_pos hm]
  · rw [if_neg (by omega), if_neg (not_not.mpr hm), if_pos hs]
  · rw [if_neg (by omega), if_neg (not_not.mpr hm), if_neg (by omega), if_pos hv]
  · rw [if_neg (by omega), if_neg (not_not.mpr hm), if_neg (by omega), if_neg (not_not.mpr hv), if_pos hs]
  · rw [if_neg (by omega), if_neg (not_not.mpr hm), if_neg (by omega), if_neg (not_not.mpr hv), if_neg]
    exact not_or.mpr ⟨Nat.not_lt.mpr h, not_not.mpr hs⟩

/-! ### Headers as lists of words -/

/-- The bytes of header words (R330). -/
def headerBytes (ws : List Nat) : List Byte := ws.flatMap (leBytes 8)

theorem headerBytes_length (ws : List Nat) : (headerBytes ws).length = 8 * ws.length := by
  simp [headerBytes, List.length_flatMap, Nat.mul_comm]

/-- The words of a header read back from any file that starts with it. -/
theorem headerWord_headerBytes (ws : List Nat) (content : List Byte) (k : Nat) (hk : k < ws.length)
    (hw : ws[k] < 2 ^ 64) : headerWord (headerBytes ws ++ content) k = ws[k] := by
  induction ws generalizing k with
  | nil => exact absurd hk (Nat.not_lt_zero k)
  | cons w ws ih =>
    have hcons : headerBytes (w :: ws) ++ content = leBytes 8 w ++ (headerBytes ws ++ content) := by
      simp [headerBytes]
    rw [hcons]
    cases k with
    | zero =>
      rw [headerWord, Nat.mul_zero, List.drop_zero, List.take_left' (leBytes_length 8 w), leNat_leBytes]
      exact Nat.mod_eq_of_lt hw
    | succ k =>
      rw [List.getElem_cons_succ, ← ih k (Nat.lt_of_succ_lt_succ hk) hw, headerWord, headerWord, Nat.mul_succ,
        Nat.add_comm, ← List.drop_drop, List.drop_left' (leBytes_length 8 w)]

/-! ### The file of an image -/

/-- The header words of an image, in their order (R330). -/
def Image.header (P : EngineParams) (i : Image) : List Nat :=
  [P.imageMagic.toNat, P.imageVersion.toNat, i.text.length, i.rodata.length, i.data.length, i.bss.toNat]

/-- The file of an image: its header and its content. -/
def Image.file (P : EngineParams) (i : Image) : List Byte := headerBytes (i.header P) ++ i.content

theorem saveImage_of_ne_empty (P : EngineParams) {i : Image} (h : i ≠ Image.empty) : saveImage P i = some (i.file P) := by
  rw [saveImage, if_neg h]
  simp [Image.file, headerBytes, Image.header, Image.content]

theorem Image.header_lt (P : EngineParams) {i : Image} (h : i.wf = true) : ∀ w ∈ i.header P, w < 2 ^ 64 := by
  simp only [Image.wf, Bool.and_eq_true, decide_eq_true_eq] at h
  obtain ⟨⟨ht, hr⟩, hd⟩ := h
  simp only [Image.header, List.forall_mem_cons]
  exact ⟨P.imageMagic.isLt, P.imageVersion.isLt, ht, hr, hd, i.bss.isLt, by simp⟩

/-- The header words of the file of a well-formed image. -/
theorem Image.headerWord_file (P : EngineParams) {i : Image} (h : i.wf = true) (k : Nat) (hk : k < 6) :
    headerWord (i.file P) k = (i.header P)[k]'hk :=
  headerWord_headerBytes (i.header P) i.content k hk (Image.header_lt P h _ (List.getElem_mem hk))

theorem Image.file_length (P : EngineParams) (i : Image) :
    (i.file P).length = 48 + i.text.length + i.rodata.length + i.data.length := by
  rw [Image.file, List.length_append, headerBytes_length, Image.content_length]
  show 48 + _ = _
  omega

theorem checkImage_file (P : EngineParams) {i : Image} (h : i.wf = true) : checkImage P (i.file P) = .ok := by
  have hword := Image.headerWord_file P h
  have hlen := i.file_length P
  obtain ⟨-, -, -, -, -, -, hok⟩ := imageChecksRunInOrder P (i.file P)
  refine hok (by omega) (hword 0 (by decide)) (hword 1 (by decide)) ?_
  calc (i.file P).length = 48 + i.text.length + i.rodata.length + i.data.length := hlen
    _ = 48 + headerWord (i.file P) 2 + headerWord (i.file P) 3 + headerWord (i.file P) 4 := by
      rw [hword 2 (by decide), hword 3 (by decide), hword 4 (by decide)]; rfl

theorem parseImage_file (P : EngineParams) {i : Image} (h : i.wf = true) : parseImage (i.file P) = i := by
  have hword := Image.headerWord_file P h
  have hdrop : (i.file P).drop 48 = i.text ++ (i.rodata ++ i.data) := by
    rw [Image.file, List.drop_left' (show _ = 48 from headerBytes_length _), Image.content, List.append_assoc]
  rw [parseImage, hdrop, hword 2 (by decide), hword 3 (by decide), hword 4 (by decide), hword 5 (by decide)]
  simp [Image.header, ← List.drop_drop]

theorem loadImage_of_failed (P : EngineParams) (f : Option (List Byte)) (h : (loadImage P f).1 ≠ .ok) :
    (loadImage P f).2 = Image.empty := by
  cases f with
  | none => rfl
  | some f =>
    by_cases hc : checkImage P f = .ok
    · exact absurd (by rw [loadImage, if_pos hc]) h
    · rw [loadImage, if_neg hc]

/-- Settles O59. -/
theorem savedImageLoadsBack : Obligations.SavedImageLoadsBack := by
  refine fun P => ⟨if_pos rfl, fun i hi hne => ⟨i.file P, saveImage_of_ne_empty P hne, ?_⟩, loadImage_of_failed P⟩
  rw [loadImage, if_pos (checkImage_file P hi), parseImage_file P hi]

end Sys2Proof.Machine
end

section
/-! PROOFS. `Initialize` (70_reset_and_hazards.md R340 to R344): O13, O57 and O58. First when it answers a state, then that the
reference placement completes after the commit, and what the placed strings read as. -/

namespace Sys2Proof.Machine

/-! ### When Initialize succeeds -/

theorem argsValid_iff (args : List (List Byte)) : argsValid args = true ↔ ∀ a ∈ args, (0 : Byte) ∉ a := by
  simp [argsValid]

/-- The four checks (R340, R341). -/
theorem initChecks_iff (P : EngineParams) (file : List Byte) (args : List (List Byte)) (reserve : Word) :
    initChecks P file args reserve = true ↔
      checkImage P file = .ok ∧ addressSpace (parseImage file) reserve ≤ P.maxMemSize.toNat ∧
      (∀ a ∈ args, (0 : Byte) ∉ a) ∧ P.argLayout.bytes args ≤ reserve.toNat := by
  simp only [initChecks, Bool.and_eq_true, decide_eq_true_eq, argsValid_iff, and_assoc]

section Initialize
variable {P : EngineParams} {fill : Fill} {file : List Byte} {args : List (List Byte)} {reserve : Word} {s : State}

/-- `Initialize` answers the commit, with the arguments placed where there are any, once its checks pass. -/
theorem bootstrap_eq_some_iff {t : State} : bootstrap P fill file args reserve s = some t ↔
    initChecks P file args reserve = true ∧
    ((args = [] ∧ commitImage fill (parseImage file) reserve s = t) ∨
      (args ≠ [] ∧ P.argLayout.place args (commitImage fill (parseImage file) reserve s) = .done () t)) := by
  unfold bootstrap
  by_cases hne : args = []
  · simp [hne]
  · cases he : P.argLayout.place args (commitImage fill (parseImage file) reserve s) <;> simp [hne, he]

/-- An address space that passes its check is a 64-bit word (R340). -/
theorem addressSpace_lt_of_initChecks (h : initChecks P file args reserve = true) :
    addressSpace (parseImage file) reserve < 2 ^ 64 := by
  obtain ⟨-, hspace, -⟩ := (initChecks_iff P file args reserve).mp h
  exact Nat.lt_of_le_of_lt hspace P.maxMemSize.isLt

/-- After the commit the argument area lies in the stack reserve, so the reference placement completes (R343). -/
theorem placeArgs_commitImage_done {i : Image} (hne : args ≠ []) (hL : addressSpace i reserve < 2 ^ 64)
    (hA : argBytes args ≤ reserve.toNat) : ∃ t, placeArgs args (commitImage fill i reserve s) = .done () t := by
  obtain ⟨hlen, -, hrb, hsb⟩ := commitImage_barriers fill i reserve s hL
  have hspace := addressSpace_eq i reserve
  have hend := i.rodataEnd_le_dataEnd
  have hrsp : ((commitImage fill i reserve s).reg rsp).toNat = addressSpace i reserve := by
    rw [commitImage_reg, if_pos rfl]; exact Nat.mod_eq_of_lt hL
  obtain ⟨x, m, e, -⟩ := placeArgs_done (args := args) (s := commitImage fill i reserve s)
    (b := addressSpace i reserve - argBytes args) hne (by omega) (by omega) (by omega) (by omega)
  exact ⟨_, e⟩

/-- With the reference layout `Initialize` succeeds wherever its checks pass (R341, R342). -/
theorem bootstrap_of_initChecks (hl : args ≠ [] → P.argLayout = referenceLayout)
    (hc : initChecks P file args reserve = true) : ∃ t, bootstrap P fill file args reserve s = some t := by
  by_cases hne : args = []
  · exact ⟨_, bootstrap_eq_some_iff.mpr ⟨hc, .inl ⟨hne, rfl⟩⟩⟩
  · obtain ⟨-, -, -, hbytes⟩ := (initChecks_iff P file args reserve).mp hc
    rw [hl hne] at hbytes
    obtain ⟨t, e⟩ := placeArgs_commitImage_done (fill := fill) (s := s) hne (addressSpace_lt_of_initChecks hc) hbytes
    exact ⟨t, bootstrap_eq_some_iff.mpr ⟨hc, .inr ⟨hne, by rw [hl hne]; exact e⟩⟩⟩

/-- `hostInitialize` reports `bootstrap` (R342). -/
theorem hostInitialize_eq_true_iff : (hostInitialize P fill file args reserve s).1 = true ↔
    ∃ t, bootstrap P fill file args reserve s = some t := by
  unfold hostInitialize
  cases bootstrap P fill file args reserve s <;> simp

theorem hostInitialize_state_of_false (h : (hostInitialize P fill file args reserve s).1 = false) :
    (hostInitialize P fill file args reserve s).2 = s := by
  unfold hostInitialize at h ⊢
  cases hb : bootstrap P fill file args reserve s with
  | none => rfl
  | some t => rw [hb] at h; cases h

/-- A successful `Initialize` meets the invariant: the commit does, and the placement evolves from it. -/
theorem bootstrap_inv {t : State} (hl : args ≠ [] → P.argLayout = referenceLayout)
    (h : bootstrap P fill file args reserve s = some t) : t.Inv := by
  obtain ⟨hc, h⟩ := bootstrap_eq_some_iff.mp h
  have hcommit := commitImage_inv fill (parseImage file) reserve s (addressSpace_lt_of_initChecks hc)
  rcases h with ⟨-, rfl⟩ | ⟨hne, e⟩
  · exact hcommit
  · have hev := placeArgs_evolves args (commitImage fill (parseImage file) reserve s)
    rw [hl hne] at e
    rw [show placeArgs args _ = .done () t from e] at hev
    exact hev.inv hcommit

end Initialize

theorem reset_inv : State.reset.Inv :=
  ⟨rfl, fun _ h => absurd h List.not_mem_nil, Nat.le_refl _, Nat.le_refl _, Nat.le_refl _, fun _ => rfl, by decide,
    fun _ => rfl⟩

/-- Settles O13. -/
theorem resetMeetsInvariant : Obligations.ResetMeetsInvariant :=
  ⟨reset_inv, fun _ _ _ _ _ _ _ hl h => bootstrap_inv hl h⟩

/-- Settles O57. -/
theorem initializeFailsOnlyByItsChecks : Obligations.InitializeFailsOnlyByItsChecks := by
  intro P fill file args reserve s result checks
  have hchecks : initChecks P file args reserve = true ↔ checks := initChecks_iff P file args reserve
  refine ⟨fun h => ?_, fun hl hc => ?_, hostInitialize_state_of_false⟩
  · obtain ⟨t, e⟩ := hostInitialize_eq_true_iff.mp h
    exact hchecks.mp (bootstrap_eq_some_iff.mp e).1
  · exact hostInitialize_eq_true_iff.mpr (bootstrap_of_initChecks hl (hchecks.mpr hc))

/-! ### The placed strings -/

/-- Where the strings and their terminators stand from `b` upward, each address of `strAddrs` is the start of its string, a
zero byte ends it, and it lies in the area. -/
theorem strAddrs_getElem_string (f : Nat → Byte) (as : List (List Byte)) (b : Nat)
    (hf : ∀ j (h : j < (strBytes as).length), f (b + j) = (strBytes as)[j]) (k : Nat) (hk : k < as.length) :
    ∃ p, (strAddrs as b)[k]? = some p ∧ (∀ j (h : j < as[k].length), f (p + j) = as[k][j]) ∧
      f (p + as[k].length) = 0 ∧ p + as[k].length < b + strSize as := by
  induction as generalizing b k with
  | nil => exact absurd hk (Nat.not_lt_zero k)
  | cons a as ih =>
    have hbytes : strBytes (a :: as) = a ++ 0 :: strBytes as := by simp [strBytes]
    have hsize : strSize (a :: as) = a.length + 1 + strSize as := by simp [strSize]
    simp only [hbytes, List.length_append, List.length_cons] at hf
    rw [hsize]
    cases k with
    | zero =>
      refine ⟨b, rfl, fun j (hj : j < a.length) => ?_, ?_, ?_⟩
      · exact (hf j (by omega)).trans (List.getElem_append_left hj)
      · simpa using hf a.length (by omega)
      · show b + a.length < _
        omega
    | succ k =>
      have hrest : ∀ j (h : j < (strBytes as).length), f (b + a.length + 1 + j) = (strBytes as)[j] := by
        intro j hj
        rw [show b + a.length + 1 + j = b + (a.length + (j + 1)) by omega, hf _ (by omega),
          List.getElem_append_right (by omega)]
        simp
      have hk' : k < as.length := Nat.lt_of_succ_lt_succ hk
      obtain ⟨p, hp, hstr, hz, hlt⟩ := ih (b + a.length + 1) hrest k hk'
      exact ⟨p, hp, hstr, hz, show p + as[k].length < _ by omega⟩

/-- A pointer of the array is the address of its string, whose first zero byte is its terminator. -/
theorem ArrayPlaced.readCString_pointer {args : List (List Byte)} {b : Nat} {s t : State} (h : ArrayPlaced args b s t)
    (hne : args ≠ []) (hlen : b + argBytes args ≤ t.len.toNat) (hvalid : ∀ a ∈ args, (0 : Byte) ∉ a) (k : Nat)
    (hk : k < args.length) : readCString (t.value (b + 16 + 8 * k) 8).toNat t = .done args[k] t := by
  have hbytes := argBytes_eq hne
  have hL := t.len.isLt
  obtain ⟨p, hp, hstr, hz, hlt⟩ := strAddrs_getElem_string t.byte args (b + 16 + 8 * args.length) h.strings k hk
  obtain ⟨hk', rfl⟩ := List.getElem?_eq_some_iff.mp hp
  rw [h.pointers k hk', BitVec.toNat_ofNat, Nat.mod_eq_of_lt (by omega)]
  have hnonzero : ∀ j (hj : j < args[k].length), args[k][j] ≠ 0 := fun j hj h0 =>
    hvalid _ (List.getElem_mem hk) (h0 ▸ List.getElem_mem hj)
  exact readCString_of_scan (scanCString_found t.mem args[k] _ _ (by omega) (fun j hj => ⟨hstr j hj, hnonzero j hj⟩) hz)

/-- Settles O58: the argument area ends at the buffer's end, so its addresses are 64-bit words. -/
theorem argumentsReadBackAsCStrings : Obligations.ArgumentsReadBackAsCStrings := by
  intro P fill file args reserve s t hne hl h argv
  obtain ⟨hc, -⟩ := bootstrap_eq_some_iff.mp h
  obtain ⟨-, -, hvalid, -⟩ := (initChecks_iff P file args reserve).mp hc
  obtain ⟨hL, hA, -, -, -, hplaced, x, m, ht⟩ := bootstrap_initialized (fun _ => hl) h
  have hp := hplaced hne
  have hbytes := argBytes_eq hne
  have hspace := addressSpace_eq (parseImage file) reserve
  have hlen : t.len.toNat = addressSpace (parseImage file) reserve := by
    rw [ht, hspace]; exact (commitImage_barriers fill (parseImage file) reserve s hL).1
  set b := addressSpace (parseImage file) reserve - argBytes args
  have hrsp : (t.reg rsp).toNat = b := by rw [hp.rsp]; exact Nat.mod_eq_of_lt (by omega)
  have hargv : argv.toNat = b + 16 := (congrArg _ hp.rsi).trans (Nat.mod_eq_of_lt (by omega))
  rw [hrsp, hargv]
  exact ⟨hp.count, hp.argv.trans hp.rsi.symm, hp.readCString_pointer hne (by omega) hvalid⟩

end Sys2Proof.Machine
end
